-- ==== Sys2Proof/Word.lean ====
section
/-! DEFINITION. The widths of the spec's data: 32-bit registers and weights (R9, R50), 8-bit stream units (R6), bit strings
(R12) and the fixed alphabet of 257 symbols (R5). -/

namespace Sys2Proof

/-- A register, a command word, a count or a weight: 32 bits (R9, R50, R80). -/
abbrev Word := BitVec 32

/-- One unit of the input or output stream: 8 bits (R6). -/
abbrev Byte := BitVec 8

/-- A bit string, its first bit at the head of the list (R12). -/
abbrev BitStr := List Bool

/-- A symbol, 0..256 (R5). -/
abbrev Sym := Fin 257

end Sys2Proof
end

