-- ==== Sys2Proof/Config.lean ====
section
/-! DEFINITION. The spec's fixed parameters (00_scope.md section 4), its two OPEN parameters, which have no value here (MAGIC,
D4; HUF_BASE, D7), and the free values the spec calls draws (R56, R57, R222). -/

namespace Sys2Proof.Config

/-- SYM_COUNT (R5). -/
def symCount : Nat := 257

/-- EOS, the end-of-stream sentinel (R5). -/
def eos : Sym := 256

/-- MAX_INPUT, the most bytes COUNT accepts (R9). -/
def maxInput : Nat := 2 ^ 32 - 2

/-- NODE_CAP, the number of nodes the node store holds (R10). -/
def nodeCap : Nat := 513

/-- MAX_CODE_LEN (R10). -/
def maxCodeLen : Nat := 256

/-- The constant of the ID register, ASCII "HUFF" (R23). -/
def idConst : Word := 0x48554646

/-- The constant of the PARAMS register: WEIGHT_W and NODE_CAP (R29). -/
def paramsConst : Word := 0x00020120

/-- The size in bytes of the register window (R51). -/
def windowBytes : Nat := 0x10000

/-- A stream of this many bytes or more may be refused, because the 64-bit cursor would wrap (R68, I5). -/
def streamLimit : Nat := 2 ^ 61

/-- The OPEN parameter MAGIC (R8, D4): no value. State.reset puts it in the MAGIC register. -/
opaque magic : Word

/-- The OPEN parameter HUF_BASE (R51, D7): no value. -/
opaque hufBase : Nat

/-- FREE VALUE: what the n-th draw answers to a host read (R56, R57, R58). Log entry 5. -/
opaque freeWord : Nat → Word

/-- FREE VALUE: how many bytes of the cancelled command's output had reached the port (R222). Log entry 6. -/
opaque cancelLen : Nat → Nat

/-- FREE VALUE: whether the output port had received the cancelled command's `close` (R222). Log entry 6. -/
opaque cancelClose : Nat → Bool

end Sys2Proof.Config
end

