-- ==== Sys2Proof/Syntax.lean ====
section
/-! DEFINITION. The 15 commands (R82, spec/opcode_table.json), their units (R2) and the two ways a command word is illegal
(R83). A command has no operand field, no register field and no immediate (R80), so no constructor has an argument. -/

namespace Sys2Proof

/-- One constructor per row of the opcode table (R82). -/
inductive Instr
  | nop
  | count
  | build
  | derive
  | writeMagic
  | writeHeader
  | writeBody
  | rewind
  | close
  | checkMagic
  | readHeader
  | readBody
  | clearErr
  | compress
  | decompress
  deriving DecidableEq, Repr

/-- Why a command word is illegal (R83): (a) its OPCODE is undefined, (b) its OPCODE is defined but RSVD is not 0. -/
inductive Illegal
  | undefinedOpcode
  | rsvdNonzero
  deriving DecidableEq, Repr

/-- HUF's five units (R2). -/
inductive HufUnit
  | treeBuilder
  | encoder
  | headerSerializer
  | decoder
  | transcoder
  deriving DecidableEq, Repr

/-- The unit that executes a command (R2, R82). -/
def Instr.hufUnit : Instr → HufUnit
  | .nop => .transcoder
  | .count => .treeBuilder
  | .build => .treeBuilder
  | .derive => .encoder
  | .writeMagic => .headerSerializer
  | .writeHeader => .headerSerializer
  | .writeBody => .encoder
  | .rewind => .transcoder
  | .close => .transcoder
  | .checkMagic => .headerSerializer
  | .readHeader => .headerSerializer
  | .readBody => .decoder
  | .clearErr => .transcoder
  | .compress => .transcoder
  | .decompress => .transcoder

/-- A composite command runs a list of others; the other 13 are primitive (00_scope.md section 6). -/
def Instr.composite : Instr → Bool
  | .compress => true
  | .decompress => true
  | .nop => false
  | .count => false
  | .build => false
  | .derive => false
  | .writeMagic => false
  | .writeHeader => false
  | .writeBody => false
  | .rewind => false
  | .close => false
  | .checkMagic => false
  | .readHeader => false
  | .readBody => false
  | .clearErr => false

/-- The mnemonic of R82, in upper case (R94). -/
def Instr.mnemonic : Instr → String
  | .nop => "NOP"
  | .count => "COUNT"
  | .build => "BUILD"
  | .derive => "DERIVE"
  | .writeMagic => "WRITE_MAGIC"
  | .writeHeader => "WRITE_HEADER"
  | .writeBody => "WRITE_BODY"
  | .rewind => "REWIND"
  | .close => "CLOSE"
  | .checkMagic => "CHECK_MAGIC"
  | .readHeader => "READ_HEADER"
  | .readBody => "READ_BODY"
  | .clearErr => "CLEAR_ERR"
  | .compress => "COMPRESS"
  | .decompress => "DECOMPRESS"

/-- All 15 commands, in the order of R82. -/
def Instr.all : List Instr :=
  [.nop, .count, .build, .derive, .writeMagic, .writeHeader, .writeBody, .rewind, .close, .checkMagic, .readHeader,
    .readBody, .clearErr, .compress, .decompress]

end Sys2Proof
end

