-- ==== Sys2Proof/WellFormed.lean ====
section
/-! DEFINITION. Which command words are well formed (R80, R83), said by ranges and independently of the decoder, and which
instructions are: all 15, since a command has no operand to check (R80). -/

namespace Sys2Proof

/-- R83(a): the defined opcodes are 0x00..0x0C, 0x10 and 0x11; 0x0D..0x0F and 0x12..0xFF are undefined. -/
def opcodeDefined (op : BitVec 8) : Bool :=
  decide (op.toNat ≤ 0x0C) || decide (op.toNat = 0x10) || decide (op.toNat = 0x11)

/-- R80: bits [31:8] of a command word must be 0. -/
def rsvdZero (w : Word) : Bool := w.extractLsb' 8 24 == 0

/-- R83: a word is legal exactly when its OPCODE is defined and its RSVD field is 0. -/
def legalWord (w : Word) : Bool := opcodeDefined (w.extractLsb' 0 8) && rsvdZero w

/-- R80: no command has an operand, so every command is well formed. -/
def Instr.wellFormed : Instr → Bool
  | .nop => true
  | .count => true
  | .build => true
  | .derive => true
  | .writeMagic => true
  | .writeHeader => true
  | .writeBody => true
  | .rewind => true
  | .close => true
  | .checkMagic => true
  | .readHeader => true
  | .readBody => true
  | .clearErr => true
  | .compress => true
  | .decompress => true

end Sys2Proof
end

