-- ==== Sys2Proof/Decode.lean ====
section
/-! DEFINITION. The command decoder, total on every 32-bit word (R84), and after it the encoder, from the same table (R82). -/

namespace Sys2Proof

/-- The opcode map of R82, from opcode to command. -/
def opcodeInstr (op : BitVec 8) : Option Instr :=
  match op.toNat with
  | 0x00 => some .nop
  | 0x01 => some .count
  | 0x02 => some .build
  | 0x03 => some .derive
  | 0x04 => some .writeMagic
  | 0x05 => some .writeHeader
  | 0x06 => some .writeBody
  | 0x07 => some .rewind
  | 0x08 => some .close
  | 0x09 => some .checkMagic
  | 0x0A => some .readHeader
  | 0x0B => some .readBody
  | 0x0C => some .clearErr
  | 0x10 => some .compress
  | 0x11 => some .decompress
  | _ => none

/-- The OPCODE field, bits [7:0] of a command word (R80). -/
def opcodeField (w : Word) : BitVec 8 := w.extractLsb' 0 8

/-- The RSVD field, bits [31:8] of a command word (R80). -/
def rsvdField (w : Word) : BitVec 24 := w.extractLsb' 8 24

/-- R82, R83: the undefined opcode is checked before the RSVD field. -/
def decode (w : Word) : Except Illegal Instr :=
  match opcodeInstr (opcodeField w) with
  | none => .error .undefinedOpcode
  | some i => if rsvdField w = 0 then .ok i else .error .rsvdNonzero

/-- The opcode map of R82, from command to opcode. -/
def Instr.opcode : Instr → BitVec 8
  | .nop => 0x00
  | .count => 0x01
  | .build => 0x02
  | .derive => 0x03
  | .writeMagic => 0x04
  | .writeHeader => 0x05
  | .writeBody => 0x06
  | .rewind => 0x07
  | .close => 0x08
  | .checkMagic => 0x09
  | .readHeader => 0x0A
  | .readBody => 0x0B
  | .clearErr => 0x0C
  | .compress => 0x10
  | .decompress => 0x11

/-- R82: the command word of a command is its opcode zero-extended to 32 bits. -/
def encode (i : Instr) : Word := i.opcode.setWidth 32

/-- The instruction the decoder reads from the low `nbits` bits of `w`. A command is one 32-bit register write (R50, R80), so
there is no byte order to apply. -/
def decodeTableWord (nbits w : Nat) : Option Instr :=
  match decode (BitVec.ofNat 32 (w % 2 ^ nbits)) with
  | .ok i => some i
  | .error _ => none

end Sys2Proof
end

