-- ==== Sys2Proof/Machine/State.lean ====
section
/-! DEFINITION. The machine's state as plain data: HufState (R20), the environment's streams (R49), the two parameters the
spec leaves OPEN (R8, R51), and the model's own fields (whose turn comes next, what the host has been answered, how many draws
were made). State.reset is the state after a reset with nothing attached (R220). -/

namespace Sys2Proof.Machine

/-- The kind of a tree node (R39). -/
inductive NodeKind
  | leaf
  | internal
  deriving DecidableEq, Repr

/-- One entry of the node store (R20, R39). -/
structure Node where
  kind : NodeKind
  sym : BitVec 9
  weight : Word
  left : BitVec 10
  right : BitVec 10
  deriving DecidableEq, Repr

/-- The FREQ table (R38). -/
abbrev FreqTable := Vector Word 257

/-- The node store (R39). -/
abbrev NodeStore := Vector Node 513

/-- The code table: each entry is a bit string, and its length is the entry's `len` (R40); the empty string is "no code". -/
abbrev CodeTable := Vector BitStr 257

/-- The ERROR register's three fields (R27). -/
structure ErrorReg where
  cause : BitVec 8
  op : BitVec 8
  detail : BitVec 16
  deriving DecidableEq, Repr

/-- The eight error causes (R197). -/
inductive Cause
  | format
  | truncated
  | illegalCmd
  | sequence
  | outClosed
  | noCode
  | inputTooLong
  | capacity
  deriving DecidableEq, Repr

/-- What moves next. A list of turns is a host program together with an interleaving (R100): every interleaving is a list. -/
inductive Turn
  /-- The scheduler gives the block its step; the step is enabled only while BUSY is 1 (R100). -/
  | block
  /-- One assembler line: write the word to CMD, then wait until BUSY is 0 (R94). -/
  | line (w : Word)
  /-- A host read of `bits` bits at a bus address (R50, R53). -/
  | read (bits addr : Nat)
  /-- A host write of `bits` bits at a bus address (R50, R53). -/
  | write (bits addr : Nat) (w : Word)
  /-- The platform asserts the reset input (R220). -/
  | hardReset
  deriving DecidableEq, Repr

/-- What the bus answers to one host access: the data and whether it is an error response (R53). -/
structure BusResp where
  data : Word
  error : Bool
  deriving DecidableEq, Repr

/-- What a register read gives: a value the rules fix, or a draw (R58). -/
inductive ReadVal
  | exact (w : Word)
  | draw
  deriving DecidableEq, Repr

/-- The tree the node store holds, with each node's index. Not a part of State: DERIVE and WRITE_HEADER walk it (R46). -/
inductive Tree
  | leaf (idx : Nat) (sym : Sym)
  | node (idx : Nat) (left right : Tree)
  deriving DecidableEq, Repr

/-- An element of BUILD's priority queue with its key (R45). Not a part of State: it lives inside one completion. -/
structure QEntry where
  weight : Word
  idx : Nat
  deriving DecidableEq, Repr

structure State where
  /-- CTRL.IRQ_EN (R24). -/
  irqEn : Bool
  /-- STATUS.BUSY (R26). -/
  busy : Bool
  /-- The command accepted and not yet completed (R48). -/
  pending : Option Instr
  /-- STATUS.DONE (R26). -/
  done : Bool
  /-- STATUS.ERR (R26). -/
  err : Bool
  /-- STATUS.FREQ_VALID (R26). -/
  freqValid : Bool
  /-- STATUS.TREE_VALID (R26). -/
  treeValid : Bool
  /-- STATUS.CODES_VALID (R26). -/
  codesValid : Bool
  /-- STATUS.TREE_SRC (R26): true after READ_HEADER, false after BUILD. -/
  treeSrc : Bool
  /-- STATUS.OUT_CLOSED (R26). -/
  outClosed : Bool
  /-- STATUS.CMD_REJ (R26). -/
  cmdRej : Bool
  /-- ERROR (R27). -/
  error : ErrorReg
  /-- The FREQ table (R38). -/
  freq : FreqTable
  /-- FREQ_TOTAL (R30). -/
  freqTotal : Word
  /-- The node store (R39). -/
  node : NodeStore
  /-- NODE_COUNT (R33). -/
  nodeCount : BitVec 10
  /-- ROOT (R34). -/
  root : BitVec 10
  /-- The code table (R40). -/
  code : CodeTable
  /-- CUR, the decoder's tree position (R35). -/
  cur : BitVec 10
  /-- IN_POS, the input cursor in bits (R31). -/
  inPos : BitVec 64
  /-- The packer's partial byte, 0..7 bits (R47). -/
  pend : BitStr
  /-- OUT_POS, the bits handed to the packer (R32). -/
  outPos : BitVec 64
  /-- Environment: the input stream, fixed for a launch (R49). -/
  inBytes : List Byte
  /-- Environment: the output stream, append-only (R49, R66). -/
  outBytes : List Byte
  /-- Environment: for each `close` the output port received (R65, R66), how many bytes it had received before it. -/
  outCloses : List Nat
  /-- The MAGIC register, the OPEN parameter MAGIC (R8, R28): no step writes it. -/
  magic : Word
  /-- The OPEN parameter HUF_BASE (R51): no step writes it. -/
  hufBase : Nat
  /-- The model's own: the turns to come (R100). -/
  turns : List Turn
  /-- The model's own: the bus's answers to the host so far, the newest first. -/
  busLog : List BusResp
  /-- The model's own: how many draws were made. The next draw is Config.freeWord of it. -/
  draws : Nat
  deriving DecidableEq, Repr

/-- The reasons a step stops with a fault. HUF itself has none (R195: an error is recorded, and the machine goes on). Each one
below is raised only in a state that breaks Safety's invariant, which no run from reset reaches. -/
inductive Fault
  /-- A tree link or the root names an index outside the node store. By DERIVE, WRITE_HEADER, READ_BODY. Safe: R37 excludes it. -/
  | nodeIndex
  /-- The links from the root form a cycle or a path longer than the store. By DERIVE, WRITE_HEADER. Safe: R37 excludes it. -/
  | notATree
  /-- A leaf of the valid tree holds a symbol field above 256. By DERIVE, WRITE_HEADER. Safe: R37 excludes it. -/
  | leafSymbol
  /-- The priority queue is empty: no symbol has a positive count. By BUILD. Safe: R38 sets FREQ[256] to 1. -/
  | emptyQueue
  /-- BUSY is 1 and no command is pending. By the block's step. Safe: R48 excludes it. -/
  | busyNoCommand
  deriving DecidableEq, Repr

/-- The reasons the model refuses. -/
inductive Refusal
  /-- An instruction that has no meaning yet. By no arm of exec. Safe. -/
  | notModelled (mnemonic : String)
  /-- An input stream so long that the 64-bit cursor wraps and the end of data is never met; R68 and I5 let a model refuse it. By
  WRITE_BODY, READ_BODY and DECOMPRESS; COUNT's loop names it and never reaches it, since INPUT_TOO_LONG comes first. Safe. -/
  | streamTooLong
  deriving DecidableEq, Repr

/-- How the Exec of a command ends (R105): ok with a value, a raise with the ERROR it records and the state at the raise
(R107: no roll-back), or a stop of the model. -/
inductive Run (α : Type)
  | ok (a : α) (s : State)
  | raise (e : ErrorReg) (s : State)
  | fault (f : Fault)
  | refuse (r : Refusal)

/-- The contents of a node-store entry after State.reset. DESIGN CHOICE (log entry 3): R39 gives none. -/
def Node.atReset : Node := { kind := .leaf, sym := 0, weight := 0, left := 0, right := 0 }

/-- The state after a reset (R220, 10_state.md section 6) with an empty input stream attached. The tables, FREQ_TOTAL,
NODE_COUNT and ROOT are unspecified by the spec: their values here are DESIGN CHOICE (log entry 3). -/
def State.reset : State where
  irqEn := false
  busy := false
  pending := none
  done := false
  err := false
  freqValid := false
  treeValid := false
  codesValid := false
  treeSrc := false
  outClosed := false
  cmdRej := false
  error := { cause := 0, op := 0, detail := 0 }
  freq := Vector.replicate 257 0
  freqTotal := 0
  node := Vector.replicate 513 Node.atReset
  nodeCount := 0
  root := 0
  code := Vector.replicate 257 []
  cur := 0
  inPos := 0
  pend := []
  outPos := 0
  inBytes := []
  outBytes := []
  outCloses := []
  magic := Config.magic
  hufBase := Config.hufBase
  turns := []
  busLog := []
  draws := 0

/-- A launch: the reset state with the host's input stream attached (R49, R223). -/
def State.launch (bytes : List Byte) : State := { State.reset with inBytes := bytes }

end Sys2Proof.Machine
end

