-- ==== Sys2Proof/Machine/Ops.lean ====
section
/-! DEFINITION. The shared operations: the bit unpacker and packer on the stream ports (R60-R68), the end of a command and
the one error entry (R105, R196), the return from an error (R111, R209), issue (R101) and reset (R220, R222). -/

namespace Sys2Proof.Machine

/-! Bit strings (R12). -/

/-- `uint(c)`: the value of a bit string read most significant bit first (R12). -/
def uint (c : BitStr) : Nat := c.foldl (fun a b => 2 * a + b.toNat) 0

/-- `bits_n(v)`: the low n bits of v, most significant bit first (R12, R64). -/
def bitsOf : Nat → Nat → BitStr
  | 0, _ => []
  | n + 1, v => v.testBit n :: bitsOf n v

/-! How an Exec goes on (R12, R105). -/

/-- The next step of an Exec runs only if the one before it did not raise (R12). -/
def Run.andThen {α β : Type} (r : Run α) (k : α → State → Run β) : Run β :=
  match r with
  | .ok a s => k a s
  | .raise e s => .raise e s
  | .fault f => .fault f
  | .refuse q => .refuse q

/-- `require P else E(d)` (R12). -/
def require (p : Bool) (e : ErrorReg) (s : State) : Run Unit := if p then .ok () s else .raise e s

/-- ERROR.CAUSE of a cause (R197). -/
def Cause.code : Cause → BitVec 8
  | .format => 1
  | .truncated => 2
  | .illegalCmd => 3
  | .sequence => 4
  | .outClosed => 5
  | .noCode => 6
  | .inputTooLong => 7
  | .capacity => 8

/-- The ERROR value of a raise E(d) inside the primitive `i` (R27, R105). -/
def errorOf (c : Cause) (i : Instr) (d : Nat) : ErrorReg :=
  { cause := c.code, op := i.opcode, detail := BitVec.ofNat 16 d }

/-! The input port and the bit unpacker. -/

/-- R61: stream bit k is bit 7 - (k mod 8) of byte k div 8. R62 asks only for bits inside the stream. -/
def streamBit (bytes : List Byte) (k : Nat) : Bool :=
  match bytes[k / 8]? with
  | some b => b.getLsbD (7 - k % 8)
  | none => false

/-- The n stream bits from position pos on (R61, R62). -/
def streamField (bytes : List Byte) (pos n : Nat) : BitStr :=
  (List.range n).map fun i => streamBit bytes (pos + i)

/-- `ReadBits(n)`, 1 ≤ n ≤ 32 (R62): none is EOD. -/
def State.readBits (n : Nat) (s : State) : Option Nat × State :=
  let limit := 8 * s.inBytes.length
  if s.inPos.toNat + n > limit then
    (none, { s with inPos := BitVec.ofNat 64 limit })
  else
    (some (uint (streamField s.inBytes s.inPos.toNat n)), { s with inPos := s.inPos + BitVec.ofNat 64 n })

/-- `Rewind()` (R63). After it the input port's next `get` answers the first byte, as `inPortNext` says. -/
def State.rewind (s : State) : State := { s with inPos := 0 }

/-- The input port's own position, the index of the byte its next `get` answers: the unpacker has taken whole bytes up to the
cursor (R47, R60). -/
def State.inPortNext (s : State) : Nat := (s.inPos.toNat + 7) / 8

/-! The output port and the bit packer. -/

/-- One turn of WriteBits' loop (R64): append a bit to pend, and put the byte when pend holds eight. -/
def State.putBit (b : Bool) (s : State) : State :=
  let p := s.pend ++ [b]
  if p.length = 8 then
    { s with pend := [], outBytes := s.outBytes ++ [BitVec.ofNat 8 (uint p)] }
  else
    { s with pend := p }

/-- Append a bit string to the packer, first bit first (R64). -/
def State.putBits (c : BitStr) (s : State) : State := c.foldl (fun t b => t.putBit b) s

/-- `WriteBits(n, v)`, 1 ≤ n ≤ 32 (R64). OUT_POS wraps modulo 2^64 (R68). -/
def State.writeBits (n v : Nat) (s : State) : State :=
  let t := s.putBits (bitsOf n v)
  { t with outPos := t.outPos + BitVec.ofNat 64 n }

/-- `Close()` (R65): pad pend with zero bits, issue `close` on the output port, set OUT_CLOSED. -/
def State.closeOutput (s : State) : State :=
  let t := if s.pend.length > 0 then s.writeBits (8 - s.pend.length) 0 else s
  { t with outCloses := t.outCloses ++ [t.outBytes.length], outClosed := true }

/-! The end of a command, the one error entry, and the return from an error. -/

/-- ERROR ENTRY (R196): BUSY and pending are cleared, ERR is set and ERROR records cause, op and detail. DONE is not written
(step 4), and the interrupt output follows ERR by itself (R211). Both kinds of error come through here: a raise inside a
completion (R105) and an illegal word at issue (R104). -/
def State.enterError (e : ErrorReg) (s : State) : State :=
  { s with busy := false, pending := none, err := true, error := e }

/-- The end of a completion that did not raise (R105, R106). -/
def State.finishOk (s : State) : State := { s with busy := false, pending := none, done := true }

/-- RETURN FROM AN ERROR: the body of CLEAR_ERR (R111, R209). -/
def State.clearError (s : State) : State :=
  { s with err := false, error := { cause := 0, op := 0, detail := 0 }, cmdRej := false }

/-- Completion (R105), given how the pending command's Exec ended. -/
def complete (r : Run Unit) : Host.Outcome State Fault Refusal :=
  match r with
  | .ok _ s => .next s.finishOk
  | .raise e s => .next (s.enterError e)
  | .fault f => .fault f
  | .refuse q => .refused q

/-- Run Execs one after another, up to the first raise (R167, R168). -/
def runAll : List (State → Run Unit) → State → Run Unit
  | [], s => .ok () s
  | x :: xs, s => (x s).andThen fun _ t => runAll xs t

/-! Issue. -/

/-- A rejected word's only effect (R102, R103). -/
def State.reject (s : State) : State := { s with cmdRej := true }

/-- The issue of a legal word (R101). -/
def State.accept (i : Instr) (s : State) : State := { s with done := false, busy := true, pending := some i }

/-- ERROR.DETAIL of ILLEGAL_CMD (R83, R200). -/
def Illegal.detail : Illegal → Nat
  | .undefinedOpcode => 1
  | .rsvdNonzero => 2

/-- The ERROR value of an illegal word: OP is the word's bits [7:0] (R104). -/
def illegalError (w : Word) (r : Illegal) : ErrorReg :=
  { cause := Cause.illegalCmd.code, op := opcodeField w, detail := BitVec.ofNat 16 (Illegal.detail r) }

/-- The command word of CLEAR_ERR, the only one accepted while ERR is 1 (R101, R103). -/
def clearErrWord : Word := 0x0000000C

/-- `Issue(w)` (R101): the checks in the order R208 gives. -/
def State.issue (w : Word) (s : State) : State :=
  if s.busy then s.reject
  else if s.err && w != clearErrWord then s.reject
  else
    match decode w with
    | .error r => { s with done := false }.enterError (illegalError w r)
    | .ok i => s.accept i

/-! Reset. -/

/-- The reset of R220: every register, flag, cursor and table at State.reset's value; the streams, the two parameters and the
model's own fields stay. The tables' values after it are unspecified by the spec (log entry 3). -/
def State.toReset (s : State) : State :=
  { State.reset with
    inBytes := s.inBytes, outBytes := s.outBytes, outCloses := s.outCloses, magic := s.magic, hufBase := s.hufBase,
    turns := s.turns, busLog := s.busLog, draws := s.draws }

/-- R222: the output the port may have received when a reset cancels the pending command. `t` is the state that command's Exec
would have ended in. The bytes are some beginning of those Exec would have put, and the port may have received its `close`
only after all of them. Both choices are free values. -/
def State.cancelOutput (t s : State) : State :=
  let b := t.outBytes.drop s.outBytes.length
  let p := b.take (Config.cancelLen s.draws)
  let closes := t.outCloses.drop s.outCloses.length
  let closed := p.length = b.length ∧ Config.cancelClose s.draws = true
  { s with
    outBytes := s.outBytes ++ p
    outCloses := s.outCloses ++ (if closed then closes else [])
    draws := s.draws + 1 }

end Sys2Proof.Machine
end

