-- ==== Sys2Proof/Machine/Operands.lean ====
section
/-! DEFINITION. A command's operands are HUF's own tables and streams (R80): symbols and their fields (R81, R88), the FREQ
table, the node store and the tree it holds, the code table, and the emission of a code (R134). -/

namespace Sys2Proof.Machine

/-! Symbols. -/

/-- The symbol of a value read by ReadBits(8), which is at most 255 (R6, R62). -/
def symOfByte (v : Nat) : Sym := ⟨v % 256, by omega⟩

/-- The symbol a 9-bit field names; none for 257..511 (R88, R89). -/
def symOfField (v : BitVec 9) : Option Sym := if h : v.toNat < 257 then some ⟨v.toNat, h⟩ else none

/-- The 9-bit field of a symbol (R7, R88). -/
def fieldOfSym (s : Sym) : BitVec 9 := BitVec.ofNat 9 s.val

/-- The 257 symbols in ascending order (R117). -/
def symbols : List Sym := List.finRange 257

/-! The FREQ table. -/

/-- `FREQ[v] <- FREQ[v] + 1` (R115). -/
def State.bumpFreq (v : Sym) (s : State) : State := { s with freq := s.freq.set v (s.freq[v] + 1) }

/-! The node store. -/

/-- A leaf entry (R39). -/
def Node.ofLeaf (sym : BitVec 9) (weight : Word) : Node :=
  { kind := .leaf, sym := sym, weight := weight, left := 0, right := 0 }

/-- An internal entry: its sym is written as 0 (R39). -/
def Node.ofPair (weight : Word) (left right : Nat) : Node :=
  { kind := .internal, sym := 0, weight := weight, left := BitVec.ofNat 10 left, right := BitVec.ofNat 10 right }

/-- `NODE[n] <- nd`. The index is below NODE_CAP in every use (R119, R146). -/
def State.setNode (n : Nat) (nd : Node) (s : State) : State := { s with node := s.node.setIfInBounds n nd }

/-- The tree the links from node n describe (R37, R46), explored to a depth of `fuel` nodes. -/
def treeAt (nodes : NodeStore) : Nat → Nat → Except Fault Tree
  | 0, _ => .error .notATree
  | fuel + 1, n =>
    match nodes[n]? with
    | none => .error .nodeIndex
    | some nd =>
      match nd.kind with
      | .leaf =>
        match symOfField nd.sym with
        | none => .error .leafSymbol
        | some s => .ok (.leaf n s)
      | .internal =>
        match treeAt nodes fuel nd.left.toNat with
        | .error f => .error f
        | .ok l =>
          match treeAt nodes fuel nd.right.toNat with
          | .error f => .error f
          | .ok r => .ok (.node n l r)

/-- The tree of the node store from ROOT. A path has at most NODE_CAP nodes (R10). -/
def State.tree (s : State) : Except Fault Tree := treeAt s.node Config.nodeCap s.root.toNat

/-- DERIVE and WRITE_HEADER walk the tree from the root. -/
def State.withTree (s : State) (k : Tree → Run Unit) : Run Unit :=
  match s.tree with
  | .error f => .fault f
  | .ok t => k t

/-- The indices of a tree's nodes in pre-order (R46). -/
def Tree.indices : Tree → List Nat
  | .leaf n _ => [n]
  | .node n l r => n :: (l.indices ++ r.indices)

/-- A tree with at least one internal node (R37.2). -/
def Tree.isNode : Tree → Bool
  | .leaf _ _ => false
  | .node _ _ _ => true

/-- The number of leaves. -/
def Tree.leafCount : Tree → Nat
  | .leaf _ _ => 1
  | .node _ l r => l.leafCount + r.leafCount

/-- Every leaf's symbol with its root-to-leaf path, in pre-order (R131). -/
def Tree.paths : Tree → BitStr → List (Sym × BitStr)
  | .leaf _ s, p => [(s, p)]
  | .node _ l r, p => l.paths (p ++ [false]) ++ r.paths (p ++ [true])

/-- Structural equality: same shape and same leaf symbol at each position, whatever the node indices (R147). -/
def Tree.sameShape : Tree → Tree → Bool
  | .leaf _ s, .leaf _ s' => s == s'
  | .node _ l r, .node _ l' r' => l.sameShape l' && r.sameShape r'
  | .leaf _ _, .node _ _ _ => false
  | .node _ _ _, .leaf _ _ => false

/-! The code table. -/

/-- `CODE[s].len` (R40). -/
def codeLen (t : CodeTable) (s : Sym) : Nat := t[s].length

/-- The table with no code for any symbol (R130). -/
def noCodes : CodeTable := Vector.replicate 257 []

/-! Code emission. -/

/-- `EmitCode(c)` (R134): fields of at most 32 bits, the first bits first. `fuel` bounds the number of fields by the length. -/
def emitFields : Nat → BitStr → State → State
  | 0, _, s => s
  | fuel + 1, c, s =>
    if c.length = 0 then s
    else emitFields fuel (c.drop 32) (s.writeBits (min 32 c.length) (uint (c.take 32)))

/-- `EmitCode(c)` (R134). -/
def State.emitCode (c : BitStr) (s : State) : State := emitFields c.length c s

end Sys2Proof.Machine
end

