-- ==== Sys2Proof/Machine/Flags.lean ====
section
/-! DEFINITION. STATUS, CTRL and ERROR as words (R24, R26, R27), the interrupt level (R211), the VALID flags a command clears
at its start (R26, "start of X"), and the write-1-to-clear bits (R26). -/

namespace Sys2Proof.Machine

/-- The interrupt output, level-sensitive and active high (R211). -/
def State.irq (s : State) : Bool := s.irqEn && (s.done || s.err)

/-- STATUS (R26): bits [9:0], with [31:10] reading 0. -/
def State.statusWord (s : State) : Word :=
  BitVec.setWidth 32
    (BitVec.ofBool s.irq ++ BitVec.ofBool s.cmdRej ++ BitVec.ofBool s.outClosed ++ BitVec.ofBool s.treeSrc ++
      BitVec.ofBool s.codesValid ++ BitVec.ofBool s.treeValid ++ BitVec.ofBool s.freqValid ++ BitVec.ofBool s.err ++
      BitVec.ofBool s.done ++ BitVec.ofBool s.busy)

/-- CTRL (R24): SOFT_RESET reads 0, IRQ_EN is bit 1, [31:2] read 0. -/
def State.ctrlWord (s : State) : Word := BitVec.setWidth 32 (BitVec.ofBool s.irqEn ++ 0#1)

/-- ERROR (R27): DETAIL, OP, CAUSE from the top. -/
def ErrorReg.word (e : ErrorReg) : Word := e.detail ++ e.op ++ e.cause

/-- Start of COUNT (R26, R115). -/
def State.startCount (s : State) : State := { s with freqValid := false, treeValid := false, codesValid := false }

/-- Start of BUILD and of READ_HEADER (R26, R116, R144). -/
def State.startTree (s : State) : State := { s with treeValid := false, codesValid := false }

/-- Start of DERIVE (R26, R130). -/
def State.startDerive (s : State) : State := { s with codesValid := false }

/-- A host write to STATUS: a 1 in bit 1 clears DONE and a 1 in bit 8 clears CMD_REJ (R26, R55). -/
def State.ackStatus (w : Word) (s : State) : State :=
  { s with done := s.done && !w.getLsbD 1, cmdRej := s.cmdRej && !w.getLsbD 8 }

/-- A host write to CTRL with bit 0 clear: IRQ_EN is set from bit 1 (R24, R55, R221). -/
def State.setIrqEn (w : Word) (s : State) : State := { s with irqEn := w.getLsbD 1 }

end Sys2Proof.Machine
end

