-- ==== Sys2Proof/Machine/Control.lean ====
section
/-! DEFINITION. bitstream_transcoder: NOP and CLEAR_ERR (40_command_execution.md section 4). -/

namespace Sys2Proof.Machine

/-- Exec(NOP) (R110). -/
def runNop (s : State) : Run Unit := .ok () s

/-- NOP (R110). -/
def execNop (s : State) : Host.Outcome State Fault Refusal := complete (runNop s)

/-- Exec(CLEAR_ERR) (R111). -/
def runClearErr (s : State) : Run Unit := .ok () s.clearError

/-- CLEAR_ERR (R111). -/
def execClearErr (s : State) : Host.Outcome State Fault Refusal := complete (runClearErr s)

end Sys2Proof.Machine
end

