-- ==== Sys2Proof/Machine/Decoder.lean ====
section
/-! DEFINITION. huffman_decoder: READ_BODY (44_decoder.md). -/

namespace Sys2Proof.Machine

/-- The bit-driven descent: CUR moves to its left child on bit 0 and to its right child on bit 1 (R155, R156). -/
def childOf (nd : Node) (b : Nat) : BitVec 10 := if b = 0 then nd.left else nd.right

/-- READ_BODY's loop (R155): each turn reads one bit and is one transition of the automaton (R156). -/
def decodeLoop : Nat → State → Run Unit
  | 0, _ => .refuse .streamTooLong
  | fuel + 1, s =>
    match s.readBits 1 with
    | (none, t) => .raise (errorOf .truncated .readBody 2) t
    | (some b, t) =>
      match t.node[t.cur.toNat]? with
      | none => .fault .nodeIndex
      | some here =>
        let t := { t with cur := childOf here b }
        match t.node[t.cur.toNat]? with
        | none => .fault .nodeIndex
        | some nd =>
          match nd.kind with
          | .internal => decodeLoop fuel t
          | .leaf =>
            if nd.sym.toNat = 256 then .ok () t
            else decodeLoop fuel { t.writeBits 8 nd.sym.toNat with cur := t.root }

/-- Exec(READ_BODY) (R155). Each turn consumes a bit or meets the end, so one turn more than the stream has bits is enough. -/
def runReadBody (s : State) : Run Unit :=
  (require s.treeValid (errorOf .sequence .readBody 2) s).andThen fun _ s =>
    (require (!s.outClosed) (errorOf .outClosed .readBody 0) s).andThen fun _ s =>
      decodeLoop (8 * s.inBytes.length + 1) { s with cur := s.root }

/-- READ_BODY (R155). -/
def execReadBody (s : State) : Host.Outcome State Fault Refusal := complete (runReadBody s)

end Sys2Proof.Machine
end

