-- ==== Sys2Proof/Machine/Encoder.lean ====
section
/-! DEFINITION. huffman_encoder: DERIVE and WRITE_BODY (42_encoder.md). -/

namespace Sys2Proof.Machine

/-- `Walk(n, p)` (R130): pre-order, and a later leaf overwrites an earlier one of the same symbol (R131). -/
def Tree.walk : Tree → BitStr → CodeTable → CodeTable
  | .leaf _ s, p, c => c.set s p
  | .node _ l r, p, c => r.walk (p ++ [true]) (l.walk (p ++ [false]) c)

/-- Exec(DERIVE) (R130). -/
def runDerive (s : State) : Run Unit :=
  (require s.treeValid (errorOf .sequence .derive 2) s).andThen fun _ s =>
    s.startDerive.withTree fun t => .ok () { s.startDerive with code := t.walk [] noCodes, codesValid := true }

/-- DERIVE (R130). -/
def execDerive (s : State) : Host.Outcome State Fault Refusal := complete (runDerive s)

/-- Emit a symbol's code, or raise NO_CODE before any bit of it is written (R133, R135). -/
def emitSym (v : Sym) (s : State) : Run Unit :=
  if codeLen s.code v = 0 then .raise (errorOf .noCode .writeBody v.val) s else .ok () (s.emitCode s.code[v])

/-- WRITE_BODY's loop up to the end of the input (R133). -/
def bodyLoop : Nat → State → Run Unit
  | 0, _ => .refuse .streamTooLong
  | fuel + 1, s =>
    match s.readBits 8 with
    | (none, t) => .ok () t
    | (some v, t) => (emitSym (symOfByte v) t).andThen fun _ t => bodyLoop fuel t

/-- Exec(WRITE_BODY) (R133): SEQUENCE is checked before OUT_CLOSED, and code(EOS) is written once at the end. -/
def runWriteBody (s : State) : Run Unit :=
  (require s.codesValid (errorOf .sequence .writeBody 3) s).andThen fun _ s =>
    (require (!s.outClosed) (errorOf .outClosed .writeBody 0) s).andThen fun _ s =>
      (bodyLoop (s.inBytes.length + 1) s).andThen fun _ t => emitSym Config.eos t

/-- WRITE_BODY (R133). -/
def execWriteBody (s : State) : Host.Outcome State Fault Refusal := complete (runWriteBody s)

end Sys2Proof.Machine
end

