-- ==== Sys2Proof/Machine/HeaderCodec.lean ====
section
/-! DEFINITION. huffman_header_serializer: WRITE_MAGIC, WRITE_HEADER, CHECK_MAGIC and READ_HEADER (43_header_codec.md). -/

namespace Sys2Proof.Machine

/-- Exec(WRITE_MAGIC) (R140). -/
def runWriteMagic (s : State) : Run Unit :=
  (require (!s.outClosed) (errorOf .outClosed .writeMagic 0) s).andThen fun _ s =>
    .ok () (s.writeBits 32 s.magic.toNat)

/-- WRITE_MAGIC (R140). -/
def execWriteMagic (s : State) : Host.Outcome State Fault Refusal := complete (runWriteMagic s)

/-- `Emit(n)` (R141): a bit 0 before an internal node's two subtrees; a bit 1 and the 9-bit symbol field for a leaf. -/
def Tree.emit : Tree → State → State
  | .leaf _ v, s => (s.writeBits 1 1).writeBits 9 v.val
  | .node _ l r, s => r.emit (l.emit (s.writeBits 1 0))

/-- Exec(WRITE_HEADER) (R141). -/
def runWriteHeader (s : State) : Run Unit :=
  (require s.treeValid (errorOf .sequence .writeHeader 2) s).andThen fun _ s =>
    (require (!s.outClosed) (errorOf .outClosed .writeHeader 0) s).andThen fun _ s =>
      s.withTree fun t => .ok () (t.emit s)

/-- WRITE_HEADER (R141). -/
def execWriteHeader (s : State) : Host.Outcome State Fault Refusal := complete (runWriteHeader s)

/-- Exec(CHECK_MAGIC) (R143). -/
def runCheckMagic (s : State) : Run Unit :=
  match s.readBits 32 with
  | (none, t) => .raise (errorOf .format .checkMagic 1) t
  | (some v, t) => require (v == s.magic.toNat) (errorOf .format .checkMagic 0) t

/-- CHECK_MAGIC (R143). -/
def execCheckMagic (s : State) : Host.Outcome State Fault Refusal := complete (runCheckMagic s)

/-- The node count after one more allocation (R145). -/
def State.allocNode (s : State) : State := { s with nodeCount := s.nodeCount + 1 }

/-- `Parse(is_root)` (R144), its checks in the order of R146. `fuel` starts at NODE_CAP and every call allocates a node, so the
fuel is at an end only when NODE_CAP nodes are allocated, which is CAPACITY. -/
def parseNode : Nat → Bool → State → Run Nat
  | 0, _, s => .raise (errorOf .capacity .readHeader 0) s
  | fuel + 1, isRoot, s =>
    if s.nodeCount.toNat = Config.nodeCap then .raise (errorOf .capacity .readHeader 0) s
    else
      match s.readBits 1 with
      | (none, t) => .raise (errorOf .truncated .readHeader 0) t
      | (some b, t) =>
        if b = 1 && isRoot then .raise (errorOf .format .readHeader 3) t
        else
          let n := t.nodeCount.toNat
          let t := t.allocNode
          if b = 0 then
            (parseNode fuel false (t.setNode n (Node.ofPair 0 0 0))).andThen fun l u =>
              (parseNode fuel false u).andThen fun r v => .ok n (v.setNode n (Node.ofPair 0 l r))
          else
            match t.readBits 9 with
            | (none, u) => .raise (errorOf .truncated .readHeader 1) u
            | (some v, u) =>
              if v > 256 then .raise (errorOf .format .readHeader 2) u
              else .ok n (u.setNode n (Node.ofLeaf (BitVec.ofNat 9 v) 0))

/-- Exec(READ_HEADER) (R144). -/
def runReadHeader (s : State) : Run Unit :=
  (parseNode Config.nodeCap true { s.startTree with nodeCount := 0 }).andThen fun r t =>
    .ok () { t with root := BitVec.ofNat 10 r, treeSrc := true, treeValid := true }

/-- READ_HEADER (R144). -/
def execReadHeader (s : State) : Host.Outcome State Fault Refusal := complete (runReadHeader s)

end Sys2Proof.Machine
end

