-- ==== Sys2Proof/Machine/TreeBuilder.lean ====
section
/-! DEFINITION. huffman_tree_builder: COUNT and BUILD (41_tree_builder.md). -/

namespace Sys2Proof.Machine

/-- COUNT's loop (R115). `fuel` bounds the number of reads; `n` is the count of data bytes so far. -/
def countLoop : Nat → Word → State → Run Word
  | 0, _, _ => .refuse .streamTooLong
  | fuel + 1, n, s =>
    match s.readBits 8 with
    | (none, t) => .ok n t
    | (some v, t) =>
      if n.toNat < Config.maxInput then countLoop fuel (n + 1) (t.bumpFreq (symOfByte v))
      else .raise (errorOf .inputTooLong .count 0) t

/-- Exec(COUNT) (R115). Each read consumes a byte or meets the end, so one read more than the stream has bytes is enough. -/
def runCount (s : State) : Run Unit :=
  let s1 := { s.startCount with freq := Vector.replicate 257 0 }
  (countLoop (s.inBytes.length + 1) 0 s1).andThen fun n t =>
    .ok () { t with freq := t.freq.set 256 1, freqTotal := n, freqValid := true }

/-- COUNT (R115). -/
def execCount (s : State) : Host.Outcome State Fault Refusal := complete (runCount s)

/-- The key order of the priority queue: by weight, then by node index (R45, R118). -/
def QEntry.before (a b : QEntry) : Bool :=
  decide (a.weight < b.weight) || (a.weight == b.weight && decide (a.idx < b.idx))

/-- The least element of e and the queue. -/
def leastOf (e : QEntry) (q : List QEntry) : QEntry := q.foldl (fun m x => if x.before m then x else m) e

/-- `ExtractMin(PQ)`: the least element and the queue without it; none when the queue is empty (R118). -/
def extractMin : List QEntry → Option (QEntry × List QEntry)
  | [] => none
  | e :: q => some (leastOf e q, (e :: q).erase (leastOf e q))

/-- The leaves and the queue they start (R116, R117): k, the node store and PQ after the symbols given. -/
def seedLeaves (freq : FreqTable) : List Sym → Nat → NodeStore → List QEntry → Nat × NodeStore × List QEntry
  | [], k, nodes, q => (k, nodes, q)
  | s :: rest, k, nodes, q =>
    if 0 < freq[s] then
      seedLeaves freq rest (k + 1) (nodes.setIfInBounds k (Node.ofLeaf (fieldOfSym s) freq[s])) (q ++ [{ weight := freq[s], idx := k }])
    else seedLeaves freq rest k nodes q

/-- The merge loop (R116, R119): the last element's index, `next` and the node store. Each turn takes one element off the
queue's length, so the queue's length is fuel enough. -/
def mergeLoop : Nat → List QEntry → Nat → NodeStore → Option (Nat × Nat × NodeStore)
  | 0, _, _, _ => none
  | fuel + 1, q, next, nodes =>
    match extractMin q with
    | none => none
    | some (a, q1) =>
      match extractMin q1 with
      | none => some (a.idx, next, nodes)
      | some (b, q2) =>
        let w := a.weight + b.weight
        mergeLoop fuel (q2 ++ [{ weight := w, idx := next }]) (next + 1) (nodes.setIfInBounds next (Node.ofPair w a.idx b.idx))

/-- The wrap of a lone leaf (R121): root, node count and node store. -/
def wrapLone (r next : Nat) (nodes : NodeStore) : Nat × Nat × NodeStore :=
  match nodes[r]? with
  | some { kind := .leaf, weight := w, .. } =>
    let n1 := nodes.setIfInBounds next (Node.ofLeaf 0 0)
    (next + 1, next + 2, n1.setIfInBounds (next + 1) (Node.ofPair w r next))
  | _ => (r, next, nodes)

/-- The tree BUILD makes of a FREQ table over a node store (R116-R121): root, node count and node store. -/
def buildTree (freq : FreqTable) (nodes : NodeStore) : Option (Nat × Nat × NodeStore) :=
  let (k, nodes1, q) := seedLeaves freq symbols 0 nodes []
  match mergeLoop q.length q k nodes1 with
  | none => none
  | some (r, next, nodes2) => some (wrapLone r next nodes2)

/-- Exec(BUILD) (R116). -/
def runBuild (s : State) : Run Unit :=
  (require s.freqValid (errorOf .sequence .build 1) s).andThen fun _ s =>
    let s1 := s.startTree
    match buildTree s1.freq s1.node with
    | none => .fault .emptyQueue
    | some (r, count, nodes) =>
      .ok () { s1 with
        node := nodes, root := BitVec.ofNat 10 r, nodeCount := BitVec.ofNat 10 count, treeSrc := false, treeValid := true }

/-- BUILD (R116). -/
def execBuild (s : State) : Host.Outcome State Fault Refusal := complete (runBuild s)

end Sys2Proof.Machine
end

