-- ==== Sys2Proof/Machine/StreamControl.lean ====
section
/-! DEFINITION. bitstream_transcoder: REWIND, CLOSE and the composites COMPRESS and DECOMPRESS (45_stream_control.md). -/

namespace Sys2Proof.Machine

/-- Exec(REWIND) (R165). -/
def runRewind (s : State) : Run Unit := .ok () s.rewind

/-- REWIND (R165). -/
def execRewind (s : State) : Host.Outcome State Fault Refusal := complete (runRewind s)

/-- Exec(CLOSE) (R166). -/
def runClose (s : State) : Run Unit :=
  (require (!s.outClosed) (errorOf .outClosed .close 0) s).andThen fun _ s => .ok () s.closeOutput

/-- CLOSE (R166). -/
def execClose (s : State) : Host.Outcome State Fault Refusal := complete (runClose s)

/-- Exec(COMPRESS) (R167). -/
def runCompress (s : State) : Run Unit :=
  (require (!s.outClosed) (errorOf .outClosed .compress 0) s).andThen fun _ s =>
    runAll [runRewind, runCount, runBuild, runDerive, runWriteMagic, runWriteHeader, runRewind, runWriteBody, runClose] s

/-- COMPRESS (R167). -/
def execCompress (s : State) : Host.Outcome State Fault Refusal := complete (runCompress s)

/-- Exec(DECOMPRESS) (R168). -/
def runDecompress (s : State) : Run Unit :=
  (require (!s.outClosed) (errorOf .outClosed .decompress 0) s).andThen fun _ s =>
    runAll [runRewind, runCheckMagic, runReadHeader, runReadBody, runClose] s

/-- DECOMPRESS (R168). -/
def execDecompress (s : State) : Host.Outcome State Fault Refusal := complete (runDecompress s)

end Sys2Proof.Machine
end

