-- ==== Sys2Proof/Machine/Dispatch.lean ====
section
/-! DEFINITION. The completion of a command (R105): one arm per command, each one call of the command's own meaning. -/

namespace Sys2Proof.Machine

def exec (i : Instr) (s : State) : Host.Outcome State Fault Refusal :=
  match i with
  | .nop => Sys2Proof.Machine.execNop s
  | .count => Sys2Proof.Machine.execCount s
  | .build => Sys2Proof.Machine.execBuild s
  | .derive => Sys2Proof.Machine.execDerive s
  | .writeMagic => Sys2Proof.Machine.execWriteMagic s
  | .writeHeader => Sys2Proof.Machine.execWriteHeader s
  | .writeBody => Sys2Proof.Machine.execWriteBody s
  | .rewind => Sys2Proof.Machine.execRewind s
  | .close => Sys2Proof.Machine.execClose s
  | .checkMagic => Sys2Proof.Machine.execCheckMagic s
  | .readHeader => Sys2Proof.Machine.execReadHeader s
  | .readBody => Sys2Proof.Machine.execReadBody s
  | .clearErr => Sys2Proof.Machine.execClearErr s
  | .compress => Sys2Proof.Machine.execCompress s
  | .decompress => Sys2Proof.Machine.execDecompress s

end Sys2Proof.Machine
end

