-- ==== Sys2Proof/Machine/HostAccess.lean ====
section
/-! DEFINITION. The host's side: the register window and its address map (R50-R59, R23-R36, R41-R44), and resets (R220-R222). -/

namespace Sys2Proof.Machine

/-- The register-window offset of a bus address, if the address is inside the window (R51). -/
def windowOffset (base addr : Nat) : Option Nat :=
  if base ≤ addr ∧ addr < base + Config.windowBytes then some (addr - base) else none

/-- HUF defines only 32-bit accesses at offsets that are multiples of 4 (R50, R53). -/
def definedAccess (bits off : Nat) : Bool := decide (bits = 32) && decide (off % 4 = 0)

/-- A read that is exact only while BUSY is 0 (R56). -/
def State.whenIdle (s : State) (w : Word) : ReadVal := if s.busy then .draw else .exact w

/-- A read governed by a VALID flag: exact only while BUSY is 0 and the flag is 1 (R56, R57). -/
def State.whenValid (s : State) (valid : Bool) (w : Word) : ReadVal := if s.busy || !valid then .draw else .exact w

/-- Word j of a code's bits (R43): code bit 32 j + i is at bit position 31 - i, and bits past the code's end read 0. -/
def codeWord (c : BitStr) (j : Nat) : Word :=
  BitVec.ofNat 32 (uint ((List.range 32).map fun i => c.getD (32 * j + i) false))

/-- Word j of a node entry (R44). -/
def nodeWord (nd : Node) (j : Nat) : Word :=
  match j with
  | 0 =>
    match nd.kind with
    | .leaf => (1#1 ++ 0#22 ++ nd.sym : BitVec 32)
    | .internal => (0#1 ++ 0#22 ++ nd.sym : BitVec 32)
  | 1 => nd.weight
  | 2 => nd.left.setWidth 32
  | _ => nd.right.setWidth 32

/-- The control and status registers, offsets 0x000..0x038 (R23-R35). -/
def State.readScalar (off : Nat) (s : State) : ReadVal :=
  match off with
  | 0x000 => .exact Config.idConst
  | 0x004 => .exact s.ctrlWord
  | 0x008 => .exact 0
  | 0x00C => .exact s.statusWord
  | 0x010 => .exact s.error.word
  | 0x014 => .exact s.magic
  | 0x018 => .exact Config.paramsConst
  | 0x01C => s.whenValid s.freqValid s.freqTotal
  | 0x020 => s.whenIdle (s.inPos.extractLsb' 0 32)
  | 0x024 => s.whenIdle (s.inPos.extractLsb' 32 32)
  | 0x028 => s.whenIdle (s.outPos.extractLsb' 0 32)
  | 0x02C => s.whenIdle (s.outPos.extractLsb' 32 32)
  | 0x030 => s.whenValid s.treeValid (s.nodeCount.setWidth 32)
  | 0x034 => s.whenValid s.treeValid (s.root.setWidth 32)
  | 0x038 => s.whenIdle (s.cur.setWidth 32)
  | _ => .exact 0

/-- The FREQ window (R41). -/
def State.readFreq (k : Nat) (s : State) : ReadVal :=
  match s.freq[k]? with
  | some w => s.whenValid s.freqValid w
  | none => .exact 0

/-- The CODE_LEN window (R42). -/
def State.readCodeLen (k : Nat) (s : State) : ReadVal :=
  match s.code[k]? with
  | some c => s.whenValid s.codesValid (BitVec.ofNat 32 c.length)
  | none => .exact 0

/-- The CODE_BITS window (R43). -/
def State.readCodeBits (k : Nat) (s : State) : ReadVal :=
  match s.code[k / 8]? with
  | some c => s.whenValid s.codesValid (codeWord c (k % 8))
  | none => .exact 0

/-- The NODE window: also a draw for n at or above NODE_COUNT (R44, R57). -/
def State.readNode (k : Nat) (s : State) : ReadVal :=
  match s.node[k / 4]? with
  | some nd => s.whenValid (s.treeValid && decide (k / 4 < s.nodeCount.toNat)) (nodeWord nd (k % 4))
  | none => .exact 0

/-- The address map (R52): what a 32-bit read at an aligned offset gives. Every window is counted in words from its start,
and a word index past a table's end is a reserved offset, which reads 0 (R36). -/
def State.readReg (off : Nat) (s : State) : ReadVal :=
  if off < 0x1000 then s.readScalar off
  else if off < 0x2000 then s.readFreq ((off - 0x1000) / 4)
  else if off < 0x4000 then s.readCodeLen ((off - 0x2000) / 4)
  else if off < 0x8000 then s.readCodeBits ((off - 0x4000) / 4)
  else s.readNode ((off - 0x8000) / 4)

/-- The bus answers one access. -/
def State.respond (data : Word) (error : Bool) (s : State) : State :=
  { s with busLog := { data := data, error := error } :: s.busLog }

/-- The data of a read, and the draw made if the read is one (R58). -/
def State.answerRead (v : ReadVal) (s : State) : State :=
  match v with
  | .exact w => s.respond w false
  | .draw => { s with draws := s.draws + 1 }.respond (Config.freeWord s.draws) false

/-- A host read (R53, R54): an undefined access reads 0 with an error response, and an address outside the window does not
reach HUF. -/
def State.hostRead (bits addr : Nat) (s : State) : State :=
  match windowOffset s.hufBase addr with
  | none => s
  | some off => if definedAccess bits off then s.answerRead (s.readReg off) else s.respond 0 true

/-- A reset, hard or soft (R220-R222). While BUSY is 1 it cancels the pending command, whose output may have begun (R222). -/
def State.resetNow (s : State) : Host.Outcome State Fault Refusal :=
  if s.busy then
    match s.pending with
    | none => .fault .busyNoCommand
    | some i =>
      match exec i s with
      | .next t => .next (State.cancelOutput t s).toReset
      | .fault f => .fault f
      | .refused q => .refused q
  else .next s.toReset

/-- The effect of a 32-bit write at an aligned offset (R55): CTRL, CMD and STATUS; every other offset ignores writes. -/
def State.writeReg (off : Nat) (w : Word) (s : State) : Host.Outcome State Fault Refusal :=
  match off with
  | 0x004 => if w.getLsbD 0 then (s.setIrqEn w).resetNow else .next (s.setIrqEn w)
  | 0x008 => .next (s.issue w)
  | 0x00C => .next (s.ackStatus w)
  | _ => .next s

/-- A host write (R53, R55): the bus answers it, and an undefined access has no effect and gets an error response. -/
def State.hostWrite (bits addr : Nat) (w : Word) (s : State) : Host.Outcome State Fault Refusal :=
  match windowOffset s.hufBase addr with
  | none => .next s
  | some off => if definedAccess bits off then (s.respond 0 false).writeReg off w else .next (s.respond 0 true)

end Sys2Proof.Machine
end

