-- ==== Sys2Proof/Machine/Turns.lean ====
section
/-! DEFINITION. The two agents' steps (R100): the block's completion (R105) and the host's turns, with the assembler line (R94). -/

namespace Sys2Proof.Machine

/-- The block's step (R105), enabled exactly when BUSY is 1 (R100). -/
def State.blockStep (s : State) : Host.Outcome State Fault Refusal :=
  if s.busy then
    match s.pending with
    | none => .fault .busyNoCommand
    | some i => exec i s
  else .next s

/-- One turn. A line is a CMD write and then the wait for BUSY = 0 (R94): the block's step, if a command is in progress. -/
def takeTurn (t : Turn) (s : State) : Host.Outcome State Fault Refusal :=
  match t with
  | .block => s.blockStep
  | .line w => (s.issue w).blockStep
  | .read bits addr => .next (s.hostRead bits addr)
  | .write bits addr w => s.hostWrite bits addr w
  | .hardReset => s.resetNow

/-- With no turn left the host is idle: a command in progress completes (R112, R238), and an idle block stays as it is (R219). -/
def nextTurn (s : State) : Host.Outcome State Fault Refusal :=
  match s.turns with
  | [] => s.blockStep
  | t :: rest => takeTurn t { s with turns := rest }

/-- The state in which the next turn is the line that issues `w` to an idle block. A block in the error state would accept
CLEAR_ERR only (R103), so for any other word ERR is clear. -/
def State.readyFor (w : Word) (s : State) : State :=
  let t := { s with turns := .line w :: s.turns, busy := false, pending := none }
  if w = clearErrWord then t else { t with err := false, error := { cause := 0, op := 0, detail := 0 } }

end Sys2Proof.Machine
end

