-- ==== Sys2Proof/Machine/Step.lean ====
section
/-! DEFINITION. One step of the machine (R100), and the state whose next step issues and completes a given command word. -/

namespace Sys2Proof.Machine

/-- One step: the next turn's. -/
def step (s : State) : Host.Outcome State Fault Refusal := nextTurn s

/-- The state whose very next step issues the low `nbits` bits of `w` as a command word and completes it. -/
def State.withFetchWord (s : State) (nbits w : Nat) : State := s.readyFor (BitVec.ofNat 32 (w % 2 ^ nbits))

end Sys2Proof.Machine
end

