-- ==== Sys2Proof/Machine/Assembler.lean ====
section
/-! DEFINITION. The assembler syntax of host programs (R94) and the pseudo-instructions, each with its exact expansion (R95). -/

namespace Sys2Proof.Machine

/-- One line of a host program (R94, R95). -/
inductive AsmLine
  | cmd (i : Instr)
  | word (w : Word)
  | compressSeq
  | decompressSeq
  | softReset
  | ack
  deriving DecidableEq, Repr

/-- The expansion of COMPRESS_SEQ (R95). -/
def compressSeqInstrs : List Instr :=
  [.rewind, .count, .build, .derive, .writeMagic, .writeHeader, .rewind, .writeBody, .close]

/-- The expansion of DECOMPRESS_SEQ (R95). -/
def decompressSeqInstrs : List Instr := [.rewind, .checkMagic, .readHeader, .readBody, .close]

/-- The line turn of a command: its word written to CMD, then the wait (R82, R94). -/
def lineOf (i : Instr) : Turn := .line (encode i)

/-- The host's turns for one line, with the register window at `base` (R94, R95). -/
def AsmLine.turns (base : Nat) : AsmLine → List Turn
  | .cmd i => [lineOf i]
  | .word w => [.line w]
  | .compressSeq => compressSeqInstrs.map lineOf
  | .decompressSeq => decompressSeqInstrs.map lineOf
  | .softReset => [.write 32 (base + 0x004) 0x00000001]
  | .ack => [.write 32 (base + 0x00C) 0x00000102]

/-- The turns of a whole program. -/
def programTurns (base : Nat) (p : List AsmLine) : List Turn := p.flatMap (AsmLine.turns base)

/-- A line's text without its `; comment` and the blanks around what is left (R94). R94 and D19 show the comment after a mnemonic
only. DESIGN CHOICE (safe, log entry 17): a `.word` line and a pseudo-instruction's line may carry one too. -/
def stripLine (cs : List Char) : List Char :=
  let body := (cs.takeWhile fun c => c != ';').dropWhile Char.isWhitespace
  (body.reverse.dropWhile Char.isWhitespace).reverse

/-- The sixteen hexadecimal digits; the value of each is its place here. -/
def hexDigits : List Char := "0123456789ABCDEF".toList

/-- The value of eight digits H of R94's `0xHHHHHHHH`, the first the most significant; none when one is no digit. A letter may
stand in either case (DESIGN CHOICE, log entry 17). -/
def wordOfDigits (cs : List Char) : Option Word :=
  (cs.mapM fun c => hexDigits.idxOf? c.toUpper).map fun places =>
    places.foldl (fun w d => w <<< 4 ||| BitVec.ofNat 32 d) 0

/-- `.word 0xHHHHHHHH`: exactly eight hexadecimal digits (R94). -/
def parseWord (cs : List Char) : Option Word :=
  match cs with
  | '.' :: 'w' :: 'o' :: 'r' :: 'd' :: ' ' :: rest =>
    match rest.dropWhile Char.isWhitespace with
    | '0' :: 'x' :: digits =>
      if digits.length = 8 then wordOfDigits digits else none
    | _ => none
  | _ => none

/-- The pseudo-instructions' names (R95). -/
def pseudoLine (name : String) : Option AsmLine :=
  if name = "COMPRESS_SEQ" then some .compressSeq
  else if name = "DECOMPRESS_SEQ" then some .decompressSeq
  else if name = "SOFT_RESET" then some .softReset
  else if name = "ACK" then some .ack
  else none

/-- One line of program text (R94, R95); none when it is no line of the syntax. -/
def assembleLine (cs : List Char) : Option AsmLine :=
  let body := stripLine cs
  match parseWord body with
  | some w => some (.word w)
  | none =>
    match Instr.all.find? (fun i => i.mnemonic == String.ofList body) with
    | some i => some (.cmd i)
    | none => pseudoLine (String.ofList body)

end Sys2Proof.Machine
end

