-- ==== Sys2Proof/Safety.lean ====
section
/-! DEFINITION. What claims are stated in: the streams as bit strings, the stream format (R85-R93), the valid tree (R37), the
rows of the cause table (R197), and the invariant that every step keeps. -/

namespace Sys2Proof.Machine

/-! Streams as bits. -/

/-- A byte stream as the bit string it is read as: each byte most significant bit first (R61, R64). -/
def bytesBits (bytes : List Byte) : BitStr := bytes.flatMap fun b => bitsOf 8 b.toNat

/-- The unread part of the input (R31, R61). -/
def State.restBits (s : State) : BitStr := (bytesBits s.inBytes).drop s.inPos.toNat

/-- Every bit the output holds: the bytes put and then the packer's partial byte (R47, R64). -/
def State.outBits (s : State) : BitStr := bytesBits s.outBytes ++ s.pend

/-- The length of the input in bits (R62). -/
def State.inLimit (s : State) : Nat := 8 * s.inBytes.length

/-- The whole 8-bit fields of a bit string, as symbols (R6, R115). -/
def byteFields (bits : BitStr) : List Sym :=
  (List.range (bits.length / 8)).map fun i => symOfByte (uint ((bits.drop (8 * i)).take 8))

/-! The stream format. -/

/-- HEADER, the pre-order grammar of R87 with the 9-bit symbol field of R88. -/
def Tree.headerBits : Tree → BitStr
  | .leaf _ v => true :: bitsOf 9 v.val
  | .node _ l r => false :: (l.headerBits ++ r.headerBits)

/-- The header bits of one node: 0 for an internal node (none), 1 and the symbol field for a leaf (R87, R88). -/
def nodeBits : Option Sym → BitStr
  | none => [false]
  | some v => true :: bitsOf 9 v.val

/-- A tree's nodes in pre-order, the order of its header (R87). -/
def Tree.preorder : Tree → List (Option Sym)
  | .leaf _ v => [some v]
  | .node _ l r => none :: (l.preorder ++ r.preorder)

/-- What a writing command does to the output (R64, R66): the bits `c` follow the bits already there, no byte is taken back, and
fewer than eight bits wait in the packer. The three together determine the bytes `ob` and the partial byte `p`. -/
def State.Emits (s : State) (c : BitStr) (ob : List Byte) (p : BitStr) : Prop :=
  s.outBytes <+: ob ∧ bytesBits ob ++ p = s.outBits ++ c ∧ p.length < 8

/-- The input's bytes as symbols, when they are read from a byte boundary (R5). -/
def dataSyms (bytes : List Byte) : List Sym := bytes.map fun b => symOfByte b.toNat

/-- The codes of a list of symbols, one after another (R91). -/
def codesBits (code : CodeTable) (syms : List Sym) : BitStr := syms.flatMap fun c => code[c]

/-- PAD: zero bits up to the next byte boundary (R93). -/
def padBits (n : Nat) : BitStr := List.replicate ((8 - n % 8) % 8) false

/-- The stream format of R85: tag, header, body and pad. -/
def streamBits (magic : Word) (tree : Tree) (code : CodeTable) (data : List Sym) : BitStr :=
  let bits := bitsOf 32 magic.toNat ++ tree.headerBits ++ codesBits code data ++ code[Config.eos]
  bits ++ padBits bits.length

/-! Trees. -/

/-- The leaf symbols of a tree, in pre-order. -/
def Tree.syms (t : Tree) : List Sym := (t.paths []).map Prod.fst

/-- Follow a bit string from a node: left on 0, right on 1, through internal nodes only (R92, R155). -/
def followBits (nodes : NodeStore) : Nat → BitStr → Option Nat
  | n, [] => some n
  | n, b :: bs =>
    match nodes[n]? with
    | some { kind := .internal, left := l, right := r, .. } => followBits nodes (if b then r.toNat else l.toNat) bs
    | _ => none

/-- The path recorded last for a symbol, or the empty string (R131). -/
def lastPath (ps : List (Sym × BitStr)) (c : Sym) : BitStr :=
  match (ps.filter fun q => q.1 == c).getLast? with
  | some q => q.2
  | none => []

/-- The valid-tree invariant, its five items in the order of R37. -/
structure ValidTree (s : State) : Prop where
  count_ge : 3 ≤ s.nodeCount.toNat
  count_le : s.nodeCount.toNat ≤ Config.nodeCap
  root_lt : s.root.toNat < s.nodeCount.toNat
  root_internal : ∃ nd, s.node[s.root.toNat]? = some nd ∧ nd.kind = .internal
  children : ∀ n nd, n < s.nodeCount.toNat → s.node[n]? = some nd → nd.kind = .internal →
    nd.left.toNat < s.nodeCount.toNat ∧ nd.right.toNat < s.nodeCount.toNat ∧ nd.left ≠ nd.right
  reaches : ∃ t, s.tree = .ok t ∧ t.indices.Perm (List.range s.nodeCount.toNat)
  leaf_sym : ∀ n nd, n < s.nodeCount.toNat → s.node[n]? = some nd → nd.kind = .leaf → nd.sym.toNat ≤ 256

/-- The FREQ table while FREQ_VALID is 1 (R38, R120): EOS counts 1, and the counts sum to FREQ_TOTAL + 1. -/
structure FreqOk (s : State) : Prop where
  eos_one : s.freq[Config.eos] = 1
  total : (s.freq.toList.map BitVec.toNat).sum = s.freqTotal.toNat + 1
  bound : s.freqTotal.toNat ≤ Config.maxInput

/-- The code table while CODES_VALID is 1 (R40): what DERIVE makes of the tree in the node store. -/
def CodesOk (s : State) : Prop := ∃ t, s.tree = .ok t ∧ s.code = t.walk [] noCodes

/-- The symbols with a positive count, in ascending order (R117). -/
def positives (f : FreqTable) : List Sym := symbols.filter fun c => decide (0 < f[c])

/-- The key order of two nodes, by weight and then by index (R118). -/
def keyBefore (nodes : NodeStore) (a b : Nat) : Prop :=
  ∃ x y, nodes[a]? = some x ∧ nodes[b]? = some y ∧ (x.weight < y.weight ∨ (x.weight = y.weight ∧ a < b))

/-- With leaves 0..k-1, node n is still in the queue when node j is made: it is no child of an earlier merge (R118, R119). -/
def waiting (nodes : NodeStore) (k j n : Nat) : Prop :=
  n < j ∧ ∀ m nd, k ≤ m → m < j → nodes[m]? = some nd → nd.left.toNat ≠ n ∧ nd.right.toNat ≠ n

/-! The cause table. -/

/-- ERROR is a row of the cause table: its CAUSE, a primitive that raises it, and one of its DETAIL values (R197-R205). The
composites' own opcodes stand in the OUT_CLOSED row (R202). -/
def ErrorReg.isRow (e : ErrorReg) : Prop :=
  (e.cause = 1 ∧ e.op = Instr.checkMagic.opcode ∧ e.detail.toNat ≤ 1) ∨
  (e.cause = 1 ∧ e.op = Instr.readHeader.opcode ∧ (e.detail = 2 ∨ e.detail = 3)) ∨
  (e.cause = 2 ∧ e.op = Instr.readHeader.opcode ∧ e.detail.toNat ≤ 1) ∨
  (e.cause = 2 ∧ e.op = Instr.readBody.opcode ∧ e.detail = 2) ∨
  (e.cause = 3 ∧ (e.detail = 1 ∨ e.detail = 2)) ∨
  (e.cause = 4 ∧ e.op = Instr.build.opcode ∧ e.detail = 1) ∨
  (e.cause = 4 ∧ (e.op = Instr.derive.opcode ∨ e.op = Instr.writeHeader.opcode ∨ e.op = Instr.readBody.opcode) ∧ e.detail = 2) ∨
  (e.cause = 4 ∧ e.op = Instr.writeBody.opcode ∧ e.detail = 3) ∨
  (e.cause = 5 ∧ e.detail = 0 ∧
    e.op ∈ [Instr.writeMagic, .writeHeader, .writeBody, .readBody, .close, .compress, .decompress].map Instr.opcode) ∨
  (e.cause = 6 ∧ e.op = Instr.writeBody.opcode ∧ e.detail.toNat ≤ 256) ∨
  (e.cause = 7 ∧ e.op = Instr.count.opcode ∧ e.detail = 0) ∨
  (e.cause = 8 ∧ e.op = Instr.readHeader.opcode ∧ e.detail = 0)

/-- ERROR with no error recorded (R27, R197). -/
def ErrorReg.none : ErrorReg := { cause := 0, op := 0, detail := 0 }

/-! The invariant. -/

/-- What holds of every state a run reaches from a launch whose stream is shorter than 2^61 bytes (R68). -/
structure Inv (s : State) : Prop where
  /-- A command is pending exactly when BUSY is 1 (R48). -/
  pending_iff : s.busy = s.pending.isSome
  /-- DONE is 0 while a command is in progress (R101). -/
  busy_done : s.busy = true → s.done = false
  /-- DONE and ERR are never 1 together (R101, R105, R111). -/
  done_err : s.done = true → s.err = false
  /-- While ERR is 1 only CLEAR_ERR can be in progress (R103). -/
  err_pending : s.err = true → s.busy = true → s.pending = some .clearErr
  /-- ERR = 0 implies ERROR = 0 (R27). -/
  no_err : s.err = false → s.error = ErrorReg.none
  /-- A recorded error is a row of the cause table (R197). -/
  err_row : s.err = true → s.error.isRow
  /-- The partial byte has OUT_POS mod 8 bits (R32, R47). -/
  pend_len : s.pend.length = s.outPos.toNat % 8
  /-- The stream is one the model does not refuse (R68). -/
  stream_fits : s.inBytes.length < Config.streamLimit
  /-- The cursor is inside the stream or at its end (R62). -/
  cursor_le : s.inPos.toNat ≤ s.inLimit
  freq_ok : s.freqValid = true → FreqOk s
  tree_ok : s.treeValid = true → ValidTree s
  /-- Whatever clears TREE_VALID clears CODES_VALID (R26). -/
  codes_tree : s.codesValid = true → s.treeValid = true
  codes_ok : s.codesValid = true → CodesOk s

/-- A safe step ends in a next state that keeps the invariant: it neither faults nor is refused. -/
def SafeStep (s : State) : Prop := ∃ t, step s = .next t ∧ Inv t

end Sys2Proof.Machine
end

