-- ==== Sys2Proof/Certificates/Slice0/Obligations.lean ====
section
/-! DEFINITION. The statements for the provers. Each docstring names the rule of spec/ it formalises. -/

open Sys2Proof Sys2Proof.Machine

/-! ### Encoding -/

/-- R82: the command word of each mnemonic is its opcode, zero-extended. The words are written out from R82's table. -/
def Obligations.CommandWordsDecode : Prop :=
  decode 0x00000000 = .ok .nop ∧ decode 0x00000001 = .ok .count ∧ decode 0x00000002 = .ok .build ∧
  decode 0x00000003 = .ok .derive ∧ decode 0x00000004 = .ok .writeMagic ∧ decode 0x00000005 = .ok .writeHeader ∧
  decode 0x00000006 = .ok .writeBody ∧ decode 0x00000007 = .ok .rewind ∧ decode 0x00000008 = .ok .close ∧
  decode 0x00000009 = .ok .checkMagic ∧ decode 0x0000000A = .ok .readHeader ∧ decode 0x0000000B = .ok .readBody ∧
  decode 0x0000000C = .ok .clearErr ∧ decode 0x00000010 = .ok .compress ∧ decode 0x00000011 = .ok .decompress

/-- R82, R83, R84: every word is exactly one command's word or is illegal; the decoder gives the command of a command's word
and no other, and tells the two cases of R83 apart with the undefined opcode first. -/
def Obligations.DecoderIsTotal : Prop :=
  (∀ i : Instr, decode (encode i) = .ok i) ∧
  (∀ (w : Word) (i : Instr), decode w = .ok i → encode i = w) ∧
  (∀ w : Word, legalWord w = true → ∃ i, decode w = .ok i) ∧
  (∀ w : Word, opcodeDefined (w.extractLsb' 0 8) = false → decode w = .error .undefinedOpcode) ∧
  (∀ w : Word, opcodeDefined (w.extractLsb' 0 8) = true → rsvdZero w = false → decode w = .error .rsvdNonzero)

/-! ### The step, issue and completion -/

/-- R94, R101-R105: a line writes its word to CMD and waits for BUSY = 0. On an idle block that accepts the word the step is
exec of the decoded command, on the state in which it is accepted; an illegal word sets ERR at issue and there is nothing to
wait for; while ERR is 1 every word but CLEAR_ERR's is rejected; while BUSY is 1 the word is rejected and the wait completes the
pending command. That a line is one step is the model's choice (log entry 4). -/
def Obligations.LineIssuesAndWaits : Prop :=
  ∀ (s : State) (w : Word) (ts : List Turn), s.turns = .line w :: ts →
    (∀ i, s.busy = false → (s.err = false ∨ w = 0x0000000C) → decode w = .ok i →
      step s = exec i { s with turns := ts, done := false, busy := true, pending := some i }) ∧
    (s.busy = false → s.pending = none → s.err = false → opcodeDefined (w.extractLsb' 0 8) = false →
      step s = .next { s with
        turns := ts, done := false, err := true, error := { cause := 3, op := w.extractLsb' 0 8, detail := 1 } }) ∧
    (s.busy = false → s.pending = none → s.err = false → opcodeDefined (w.extractLsb' 0 8) = true → rsvdZero w = false →
      step s = .next { s with
        turns := ts, done := false, err := true, error := { cause := 3, op := w.extractLsb' 0 8, detail := 2 } }) ∧
    (s.busy = false → s.err = true → w ≠ 0x0000000C → step s = .next { s with turns := ts, cmdRej := true }) ∧
    (∀ i, s.busy = true → s.pending = some i → step s = exec i { s with turns := ts, cmdRej := true })

/-- R100, R105: the block's turn completes the pending command while BUSY is 1 and does nothing while BUSY is 0. That
with no turn left it is the block's turn is the model's choice (log entry 4). -/
def Obligations.BlockTurnCompletesPending : Prop :=
  ∀ (s : State) (ts : List Turn), (s.turns = .block :: ts ∨ (s.turns = [] ∧ ts = [])) →
    (∀ i, s.busy = true → s.pending = some i → step s = exec i { s with turns := ts }) ∧
    (s.busy = false → step s = .next { s with turns := ts })

/-- R102: a word written to CMD while BUSY is 1. -/
def Obligations.BusyRejectsEveryWord : Prop :=
  ∀ (s : State) (w : Word) (ts : List Turn), s.turns = .write 32 (s.hufBase + 0x008) w :: ts → s.busy = true →
    step s = .next { s with turns := ts, busLog := { data := 0, error := false } :: s.busLog, cmdRej := true }

/-- R103: while ERR is 1 every word but CLEAR_ERR's is dropped, legal or not. -/
def Obligations.ErrorRejectsAllButClearErr : Prop :=
  ∀ (s : State) (w : Word) (ts : List Turn), s.turns = .write 32 (s.hufBase + 0x008) w :: ts → s.err = true →
    w ≠ 0x0000000C →
    step s = .next { s with turns := ts, busLog := { data := 0, error := false } :: s.busLog, cmdRej := true }

/-- R104, R200: an illegal word issued while BUSY and ERR are 0 sets ERR at once. -/
def Obligations.IllegalWordSetsErrAtIssue : Prop :=
  ∀ (s : State) (w : Word) (ts : List Turn), s.turns = .write 32 (s.hufBase + 0x008) w :: ts → s.busy = false →
    s.pending = none → s.err = false →
    (opcodeDefined (w.extractLsb' 0 8) = false →
      step s = .next { s with
        turns := ts, busLog := { data := 0, error := false } :: s.busLog, done := false, err := true
        error := { cause := 3, op := w.extractLsb' 0 8, detail := 1 } }) ∧
    (opcodeDefined (w.extractLsb' 0 8) = true → rsvdZero w = false →
      step s = .next { s with
        turns := ts, busLog := { data := 0, error := false } :: s.busLog, done := false, err := true
        error := { cause := 3, op := w.extractLsb' 0 8, detail := 2 } })

/-- R101: a legal word issued to an idle block is accepted: DONE is cleared, BUSY is set, and the command is pending. -/
def Obligations.LegalWordIsAccepted : Prop :=
  ∀ (s : State) (i : Instr) (ts : List Turn), s.turns = .write 32 (s.hufBase + 0x008) (encode i) :: ts → s.busy = false →
    (s.err = false ∨ i = .clearErr) →
    step s = .next { s with
      turns := ts, busLog := { data := 0, error := false } :: s.busLog, done := false, busy := true, pending := some i }

/-- R201: a command whose required table is not valid raises SEQUENCE before any state changes. -/
def Obligations.SequenceErrors : Prop :=
  ∀ s : State,
    (s.freqValid = false → exec .build s = .next { s with
      busy := false, pending := none, err := true, error := { cause := 4, op := 0x02, detail := 1 } }) ∧
    (s.treeValid = false → exec .derive s = .next { s with
      busy := false, pending := none, err := true, error := { cause := 4, op := 0x03, detail := 2 } }) ∧
    (s.treeValid = false → exec .writeHeader s = .next { s with
      busy := false, pending := none, err := true, error := { cause := 4, op := 0x05, detail := 2 } }) ∧
    (s.treeValid = false → exec .readBody s = .next { s with
      busy := false, pending := none, err := true, error := { cause := 4, op := 0x0B, detail := 2 } }) ∧
    (s.codesValid = false → exec .writeBody s = .next { s with
      busy := false, pending := none, err := true, error := { cause := 4, op := 0x06, detail := 3 } })

/-- R202: after CLOSE every writing command raises OUT_CLOSED before any state changes, a composite with its own opcode. -/
def Obligations.OutClosedErrors : Prop :=
  ∀ s : State, s.outClosed = true →
    (∀ i ∈ [Instr.writeMagic, .close, .compress, .decompress], exec i s = .next { s with
      busy := false, pending := none, err := true, error := { cause := 5, op := i.opcode, detail := 0 } }) ∧
    (s.treeValid = true → ∀ i ∈ [Instr.writeHeader, .readBody], exec i s = .next { s with
      busy := false, pending := none, err := true, error := { cause := 5, op := i.opcode, detail := 0 } }) ∧
    (s.codesValid = true → exec .writeBody s = .next { s with
      busy := false, pending := none, err := true, error := { cause := 5, op := 0x06, detail := 0 } })

/-! ### NOP, CLEAR_ERR, REWIND, CLOSE -/

/-- R110, R106. -/
def Obligations.NopCompletes : Prop :=
  ∀ s : State, exec .nop s = .next { s with busy := false, pending := none, done := true }

/-- R111, R106, R209. -/
def Obligations.ClearErrCompletes : Prop :=
  ∀ s : State, exec .clearErr s = .next { s with
    err := false, error := { cause := 0, op := 0, detail := 0 }, cmdRej := false, busy := false, pending := none, done := true }

/-- R165: REWIND sets IN_POS to 0 and touches nothing else. -/
def Obligations.RewindCompletes : Prop :=
  ∀ s : State, exec .rewind s = .next { s with inPos := 0, busy := false, pending := none, done := true }

/-- R166, R65: CLOSE pads the partial byte with zero bits, counts the pad in OUT_POS, and sets OUT_CLOSED; with no partial byte
it puts no byte. -/
def Obligations.ClosePadsAndCloses : Prop :=
  ∀ s : State, s.outClosed = false → s.pend.length < 8 →
    ∃ ob, exec .close s = .next { s with
        outBytes := ob, pend := [], outPos := s.outPos + BitVec.ofNat 64 (padBits s.pend.length).length
        outClosed := true, outCloses := s.outCloses ++ [ob.length], busy := false, pending := none, done := true } ∧
      s.Emits (padBits s.pend.length) ob [] ∧ (s.pend = [] → ob = s.outBytes)

/-! ### COUNT and BUILD -/

/-- R115: COUNT over at most MAX_INPUT whole 8-bit fields from the cursor on: FREQ of each byte value is how often it stands
among them, FREQ of EOS is 1, FREQ_TOTAL is their number, and the cursor ends at the end of the stream. -/
def Obligations.CountTalliesTheInput : Prop :=
  ∀ s : State, s.inBytes.length < Config.streamLimit → (byteFields s.restBits).length ≤ Config.maxInput →
    ∃ fr : FreqTable, exec .count s = .next { s with
        freq := fr, freqTotal := BitVec.ofNat 32 (byteFields s.restBits).length, inPos := BitVec.ofNat 64 s.inLimit
        freqValid := true, treeValid := false, codesValid := false, busy := false, pending := none, done := true } ∧
      fr[Config.eos] = 1 ∧ ∀ c : Sym, c ≠ Config.eos → fr[c].toNat = (byteFields s.restBits).count c

/-- R204: COUNT raises INPUT_TOO_LONG at the byte after MAX_INPUT; that byte is consumed and not counted, and no VALID flag
is set. -/
def Obligations.CountRefusesLongInput : Prop :=
  ∀ s : State, s.inBytes.length < Config.streamLimit → Config.maxInput < (byteFields s.restBits).length →
    ∃ fr : FreqTable, exec .count s = .next { s with
        freq := fr, inPos := s.inPos + BitVec.ofNat 64 (8 * (Config.maxInput + 1))
        freqValid := false, treeValid := false, codesValid := false, busy := false, pending := none
        err := true, error := { cause := 7, op := 0x01, detail := 0 } } ∧
      ∀ c : Sym, fr[c].toNat = ((byteFields s.restBits).take Config.maxInput).count c

/-- R121: when only EOS has a positive count, BUILD wraps its leaf. -/
def Obligations.BuildWrapsALoneLeaf : Prop :=
  ∀ s : State, s.freqValid = true → positives s.freq = [Config.eos] →
    ∃ nodes : NodeStore, exec .build s = .next { s with
        node := nodes, root := 2, nodeCount := 3, treeSrc := false, treeValid := true, codesValid := false
        busy := false, pending := none, done := true } ∧
      nodes[0]? = some { kind := .leaf, sym := 256, weight := s.freq[Config.eos], left := 0, right := 0 } ∧
      nodes[1]? = some { kind := .leaf, sym := 0, weight := 0, left := 0, right := 0 } ∧
      nodes[2]? = some { kind := .internal, sym := 0, weight := s.freq[Config.eos], left := 0, right := 1 }

/-- R117, R118, R119: with k ≥ 2 positive counts BUILD makes the leaves 0..k-1 in ascending symbol order and then k - 1
internal nodes, each from the two waiting nodes with the least keys, the least on the left; the last one is the root. -/
def Obligations.BuildMergesTheTwoLeast : Prop :=
  ∀ s : State, s.freqValid = true → 2 ≤ (positives s.freq).length →
    ∃ nodes : NodeStore, exec .build s = .next { s with
        node := nodes, root := BitVec.ofNat 10 (2 * (positives s.freq).length - 2)
        nodeCount := BitVec.ofNat 10 (2 * (positives s.freq).length - 1), treeSrc := false, treeValid := true
        codesValid := false, busy := false, pending := none, done := true } ∧
      (∀ (i : Nat) (c : Sym), (positives s.freq)[i]? = some c → nodes[i]? = some (Node.ofLeaf (fieldOfSym c) s.freq[c])) ∧
      ∀ j, (positives s.freq).length ≤ j → j < 2 * (positives s.freq).length - 1 →
        ∃ a b x y, nodes[a]? = some x ∧ nodes[b]? = some y ∧ nodes[j]? = some (Node.ofPair (x.weight + y.weight) a b) ∧
          waiting nodes (positives s.freq).length j a ∧ waiting nodes (positives s.freq).length j b ∧ keyBefore nodes a b ∧
          ∀ n, waiting nodes (positives s.freq).length j n → n ≠ a → n ≠ b → keyBefore nodes b n

/-- R122: what holds after a successful BUILD. -/
def Obligations.BuildMakesAValidTree : Prop :=
  ∀ s : State, s.freqValid = true → FreqOk s →
    ∃ t tr, exec .build s = .next t ∧ ValidTree t ∧ t.tree = .ok tr ∧ tr.syms.Nodup ∧
      (2 ≤ (positives s.freq).length → tr.syms.Perm (positives s.freq)) ∧
      ((positives s.freq).length = 1 → tr.syms = [Config.eos, 0]) ∧
      ∃ nd, t.node[t.root.toNat]? = some nd ∧ nd.weight.toNat = s.freqTotal.toNat + 1

/-! ### DERIVE and WRITE_BODY -/

/-- R130, R131: DERIVE on a valid tree gives each symbol the root-to-leaf path of its last leaf in pre-order, and no code to a
symbol without a leaf; the recorded paths are those that lead through the node store from the root to a leaf of the symbol,
and every leaf has one. -/
def Obligations.DeriveRecordsLeafPaths : Prop :=
  ∀ s : State, s.treeValid = true → ValidTree s →
    ∃ (code : CodeTable) (tr : Tree), exec .derive s = .next { s with
        code := code, codesValid := true, busy := false, pending := none, done := true } ∧
      s.tree = .ok tr ∧ (∀ c : Sym, code[c] = lastPath (tr.paths []) c) ∧
      (∀ q ∈ tr.paths [], ∃ n nd, n < s.nodeCount.toNat ∧ followBits s.node s.root.toNat q.2 = some n ∧
        s.node[n]? = some nd ∧ nd.kind = .leaf ∧ nd.sym.toNat = q.1.val) ∧
      (∀ n nd, n < s.nodeCount.toNat → s.node[n]? = some nd → nd.kind = .leaf →
        ∃ q ∈ tr.paths [], followBits s.node s.root.toNat q.2 = some n ∧ nd.sym.toNat = q.1.val)

/-- R132 (1, 2): in every state in which the tree and the code table are what the VALID flags promise, each code that is not
empty has 1 to 256 bits and no code is the beginning of another symbol's code. -/
def Obligations.CodesArePrefixFree : Prop :=
  ∀ s : State, ValidTree s → CodesOk s →
    (∀ c : Sym, s.code[c].length ≤ Config.maxCodeLen) ∧
    ∀ a b : Sym, a ≠ b → s.code[a] ≠ [] → s.code[b] ≠ [] → ¬ s.code[a] <+: s.code[b]

/-- R133, R134, R91: WRITE_BODY, when every field read and EOS have a code, appends the codes in order and then EOS's. -/
def Obligations.WriteBodyEncodesTheInput : Prop :=
  ∀ s : State, s.codesValid = true → s.outClosed = false → s.pend.length < 8 → s.inBytes.length < Config.streamLimit →
    (∀ c ∈ byteFields s.restBits, s.code[c] ≠ []) → s.code[Config.eos] ≠ [] →
    ∃ ob p, exec .writeBody s = .next { s with
        inPos := BitVec.ofNat 64 s.inLimit, outBytes := ob, pend := p
        outPos := s.outPos + BitVec.ofNat 64 (codesBits s.code (byteFields s.restBits) ++ s.code[Config.eos]).length
        busy := false, pending := none, done := true } ∧
      s.Emits (codesBits s.code (byteFields s.restBits) ++ s.code[Config.eos]) ob p

/-- R135, R203: WRITE_BODY raises NO_CODE at the first field without a code, before any bit of it, and with EOS's number when
EOS has none, after the whole input; what was emitted before stays. -/
def Obligations.WriteBodyRaisesNoCode : Prop :=
  ∀ s : State, s.codesValid = true → s.outClosed = false → s.pend.length < 8 → s.inBytes.length < Config.streamLimit →
    (∀ pre v post, byteFields s.restBits = pre ++ v :: post → (∀ c ∈ pre, s.code[c] ≠ []) → s.code[v] = [] →
      ∃ ob p, exec .writeBody s = .next { s with
          inPos := s.inPos + BitVec.ofNat 64 (8 * (pre.length + 1)), outBytes := ob, pend := p
          outPos := s.outPos + BitVec.ofNat 64 (codesBits s.code pre).length
          busy := false, pending := none, err := true, error := { cause := 6, op := 0x06, detail := BitVec.ofNat 16 v.val } } ∧
        s.Emits (codesBits s.code pre) ob p) ∧
    ((∀ c ∈ byteFields s.restBits, s.code[c] ≠ []) → s.code[Config.eos] = [] →
      ∃ ob p, exec .writeBody s = .next { s with
          inPos := BitVec.ofNat 64 s.inLimit, outBytes := ob, pend := p
          outPos := s.outPos + BitVec.ofNat 64 (codesBits s.code (byteFields s.restBits)).length
          busy := false, pending := none, err := true, error := { cause := 6, op := 0x06, detail := 256 } } ∧
        s.Emits (codesBits s.code (byteFields s.restBits)) ob p)

/-! ### The header codec -/

/-- R140: WRITE_MAGIC appends the 32 bits of MAGIC. -/
def Obligations.WriteMagicCompletes : Prop :=
  ∀ s : State, s.outClosed = false → s.pend.length < 8 →
    ∃ ob p, exec .writeMagic s = .next { s with
        outBytes := ob, pend := p, outPos := s.outPos + 32, busy := false, pending := none, done := true } ∧
      s.Emits (bitsOf 32 s.magic.toNat) ob p

/-- R141, R142: WRITE_HEADER appends the header of the valid tree, 11 · n_leaf - 1 bits. -/
def Obligations.WriteHeaderEmitsTheTree : Prop :=
  ∀ s : State, s.treeValid = true → ValidTree s → s.outClosed = false → s.pend.length < 8 →
    ∃ tr ob p, s.tree = .ok tr ∧ tr.headerBits.length = 11 * tr.leafCount - 1 ∧
      exec .writeHeader s = .next { s with
        outBytes := ob, pend := p, outPos := s.outPos + BitVec.ofNat 64 (11 * tr.leafCount - 1)
        busy := false, pending := none, done := true } ∧
      s.Emits tr.headerBits ob p

/-- R143, R198: CHECK_MAGIC's three outcomes: the tag, another 32 bits, fewer than 32 bits. -/
def Obligations.CheckMagicOutcomes : Prop :=
  ∀ s : State,
    (s.restBits.take 32 = bitsOf 32 s.magic.toNat → exec .checkMagic s = .next { s with
      inPos := s.inPos + 32, busy := false, pending := none, done := true }) ∧
    (32 ≤ s.restBits.length → s.restBits.take 32 ≠ bitsOf 32 s.magic.toNat → exec .checkMagic s = .next { s with
      inPos := s.inPos + 32, busy := false, pending := none, err := true, error := { cause := 1, op := 0x09, detail := 0 } }) ∧
    (s.restBits.length < 32 → exec .checkMagic s = .next { s with
      inPos := BitVec.ofNat 64 s.inLimit, busy := false, pending := none, err := true
      error := { cause := 1, op := 0x09, detail := 1 } })

/-- R144, R145, R147: when the unread bits begin with the header of a tree whose root is internal and which fits the store,
READ_HEADER reads exactly that header and builds a structurally equal valid tree, its nodes numbered in pre-order from 0 and
every weight 0. -/
def Obligations.ReadHeaderRebuildsTheTree : Prop :=
  ∀ (s : State) (tr : Tree) (rest : BitStr), s.inBytes.length < Config.streamLimit → tr.isNode = true →
    tr.indices.length ≤ Config.nodeCap → s.restBits = tr.headerBits ++ rest →
    ∃ (nodes : NodeStore) (tr' : Tree) (t : State), exec .readHeader s = .next t ∧
      t = { s with
        node := nodes, nodeCount := BitVec.ofNat 10 tr.indices.length, root := 0, treeSrc := true, treeValid := true
        codesValid := false, inPos := s.inPos + BitVec.ofNat 64 tr.headerBits.length
        busy := false, pending := none, done := true } ∧
      ValidTree t ∧ t.tree = .ok tr' ∧ tr'.sameShape tr = true ∧ tr'.indices = List.range tr.indices.length ∧
      ∀ n nd, n < tr.indices.length → nodes[n]? = some nd → nd.weight = 0

/-- R144, R37: READ_HEADER always completes: with a valid tree and TREE_SRC = 1, or with one of its errors, TREE_VALID and
CODES_VALID 0 and TREE_SRC as it was. It writes no output. -/
def Obligations.ReadHeaderSucceedsOrInvalidates : Prop :=
  ∀ s : State, ∃ t, exec .readHeader s = .next t ∧
    ((t.done = true ∧ t.err = s.err ∧ t.treeValid = true ∧ t.codesValid = false ∧ t.treeSrc = true ∧ t.root = 0 ∧ ValidTree t) ∨
      (t.done = s.done ∧ t.err = true ∧ t.treeValid = false ∧ t.codesValid = false ∧ t.treeSrc = s.treeSrc ∧
        t.error.op = 0x0A ∧ t.error.isRow)) ∧
    t = { s with
      node := t.node, nodeCount := t.nodeCount, root := t.root, treeSrc := t.treeSrc, treeValid := t.treeValid
      codesValid := false, inPos := t.inPos, busy := false, pending := none, done := t.done, err := t.err, error := t.error }

/-- R146, R198, R199, R205: READ_HEADER's errors, each with the cursor it leaves. A leaf at the root gives FORMAT(3). Otherwise let
the nodes `pre` of any tree's pre-order be read in full and one more node be due: no structure bit for it gives TRUNCATED(0), a
leaf whose field runs out TRUNCATED(1), a leaf whose field is above 256 FORMAT(2); and when `pre` are 513 nodes CAPACITY comes
before a bit of the next node is read. -/
def Obligations.ReadHeaderErrorsInOrder : Prop :=
  ∀ s : State, s.inBytes.length < Config.streamLimit →
    (∀ rest, s.restBits = true :: rest → ∃ t, exec .readHeader s = .next t ∧ t.err = true ∧
      t.error = { cause := 1, op := 0x0A, detail := 3 } ∧ t.inPos.toNat = s.inPos.toNat + 1) ∧
    ∀ (tr : Tree) (pre post : List (Option Sym)), tr.isNode = true → tr.preorder = pre ++ post → post ≠ [] →
      (pre.length < Config.nodeCap → s.restBits = pre.flatMap nodeBits → ∃ t, exec .readHeader s = .next t ∧ t.err = true ∧
        t.error = { cause := 2, op := 0x0A, detail := 0 } ∧ t.inPos.toNat = s.inLimit) ∧
      (∀ rest, pre ≠ [] → pre.length < Config.nodeCap → s.restBits = pre.flatMap nodeBits ++ true :: rest → rest.length < 9 →
        ∃ t, exec .readHeader s = .next t ∧ t.err = true ∧
          t.error = { cause := 2, op := 0x0A, detail := 1 } ∧ t.inPos.toNat = s.inLimit) ∧
      (∀ field rest, pre ≠ [] → pre.length < Config.nodeCap → s.restBits = pre.flatMap nodeBits ++ true :: (field ++ rest) →
        field.length = 9 → 256 < uint field → ∃ t, exec .readHeader s = .next t ∧ t.err = true ∧
          t.error = { cause := 1, op := 0x0A, detail := 2 } ∧
          t.inPos.toNat = s.inPos.toNat + (pre.flatMap nodeBits).length + 10) ∧
      (∀ rest, pre.length = Config.nodeCap → s.restBits = pre.flatMap nodeBits ++ rest → ∃ t, exec .readHeader s = .next t ∧
        t.err = true ∧ t.error = { cause := 8, op := 0x0A, detail := 0 } ∧
        t.inPos.toNat = s.inPos.toNat + (pre.flatMap nodeBits).length)

/-! ### READ_BODY -/

/-- R155, R156, R157, R159: when the unread bits are paths to leaves that are not EOS, then a path to an EOS leaf, then anything,
READ_BODY puts one byte for each of those leaves, stops at the EOS leaf with CUR on it, and reads nothing after it. -/
def Obligations.ReadBodyDecodesPaths : Prop :=
  ∀ (s : State) (tr : Tree) (items : List (Sym × BitStr)) (e rest : BitStr), s.treeValid = true → ValidTree s →
    s.outClosed = false → s.pend.length < 8 → s.inBytes.length < Config.streamLimit → s.tree = .ok tr →
    (∀ q ∈ items, q ∈ tr.paths [] ∧ q.1 ≠ Config.eos) → (Config.eos, e) ∈ tr.paths [] →
    s.restBits = items.flatMap Prod.snd ++ (e ++ rest) →
    ∃ ob p n, followBits s.node s.root.toNat e = some n ∧
      exec .readBody s = .next { s with
        cur := BitVec.ofNat 10 n, inPos := s.inPos + BitVec.ofNat 64 (items.flatMap Prod.snd ++ e).length
        outBytes := ob, pend := p, outPos := s.outPos + BitVec.ofNat 64 (8 * items.length)
        busy := false, pending := none, done := true } ∧
      s.Emits (items.flatMap fun q => bitsOf 8 q.1.val) ob p

/-- R155, R156, R158, R199: when the unread bits are paths to leaves that are not EOS and then lead to an internal node, READ_BODY
raises TRUNCATED(2) with CUR on that node and the cursor at the end; the bytes decoded before it stay. -/
def Obligations.ReadBodyTruncated : Prop :=
  ∀ (s : State) (tr : Tree) (items : List (Sym × BitStr)) (q : BitStr) (n : Nat) (nd : Node), s.treeValid = true →
    ValidTree s → s.outClosed = false → s.pend.length < 8 → s.inBytes.length < Config.streamLimit → s.tree = .ok tr →
    (∀ x ∈ items, x ∈ tr.paths [] ∧ x.1 ≠ Config.eos) → followBits s.node s.root.toNat q = some n →
    s.node[n]? = some nd → nd.kind = .internal → s.restBits = items.flatMap Prod.snd ++ q →
    ∃ ob p, exec .readBody s = .next { s with
        cur := BitVec.ofNat 10 n, inPos := BitVec.ofNat 64 s.inLimit
        outBytes := ob, pend := p, outPos := s.outPos + BitVec.ofNat 64 (8 * items.length)
        busy := false, pending := none, err := true, error := { cause := 2, op := 0x0B, detail := 2 } } ∧
      s.Emits (items.flatMap fun q => bitsOf 8 q.1.val) ob p

/-- R160: READ_BODY puts at most one byte for each unread bit, and reads no bit twice. -/
def Obligations.ReadBodyOutputBound : Prop :=
  ∀ s t : State, s.inBytes.length < Config.streamLimit → s.inPos.toNat ≤ s.inLimit → exec .readBody s = .next t →
    s.inPos.toNat ≤ t.inPos.toNat ∧ t.inPos.toNat ≤ s.inLimit ∧
      t.outBits.length ≤ s.outBits.length + 8 * (t.inPos.toNat - s.inPos.toNat)

/-! ### COMPRESS, DECOMPRESS and the stream laws -/

/-- R167, R85: COMPRESS of an input of at most MAX_INPUT bytes to an open output appends tag, header, body and pad, closes the
output, and leaves all three tables valid. -/
def Obligations.CompressWritesTheStream : Prop :=
  ∀ s : State, s.outClosed = false → s.pend.length < 8 → s.inBytes.length ≤ Config.maxInput →
    ∃ (fr : FreqTable) (nodes : NodeStore) (count root : BitVec 10) (code : CodeTable) (ob : List Byte) (tr : Tree)
      (bits : BitStr) (t : State),
      exec .compress s = .next t ∧
      t = { s with
        freq := fr, freqTotal := BitVec.ofNat 32 s.inBytes.length, node := nodes, nodeCount := count, root := root
        code := code, freqValid := true, treeValid := true, codesValid := true, treeSrc := false
        inPos := BitVec.ofNat 64 s.inLimit, outBytes := ob, pend := [], outPos := s.outPos + BitVec.ofNat 64 bits.length
        outClosed := true, outCloses := s.outCloses ++ [ob.length], busy := false, pending := none, done := true } ∧
      FreqOk t ∧ ValidTree t ∧ CodesOk t ∧ t.tree = .ok tr ∧
      bits = bitsOf 32 s.magic.toNat ++ tr.headerBits ++ codesBits code (dataSyms s.inBytes) ++ code[Config.eos] ++
        padBits (s.pend ++ bitsOf 32 s.magic.toNat ++ tr.headerBits ++ codesBits code (dataSyms s.inBytes) ++
          code[Config.eos]).length ∧
      (∀ c ∈ dataSyms s.inBytes, code[c] ≠ []) ∧ code[Config.eos] ≠ [] ∧ s.Emits bits ob []

/-- R168, R65, R156: DECOMPRESS of a stream that is the tag, a header and a body, whatever follows, to an open output emits the
decoded bytes and the pad, closes the output, and leaves CUR on the EOS leaf, the tree valid and the code table not. -/
def Obligations.DecompressDecodesTheStream : Prop :=
  ∀ (s : State) (tr : Tree) (items : List (Sym × BitStr)) (e rest : BitStr), s.outClosed = false → s.pend.length < 8 →
    s.inBytes.length < Config.streamLimit → tr.isNode = true → tr.indices.length ≤ Config.nodeCap →
    (∀ q ∈ items, q ∈ tr.paths [] ∧ q.1 ≠ Config.eos) → (Config.eos, e) ∈ tr.paths [] →
    bytesBits s.inBytes = bitsOf 32 s.magic.toNat ++ (tr.headerBits ++ (items.flatMap Prod.snd ++ (e ++ rest))) →
    ∃ (nodes : NodeStore) (cur : BitVec 10) (ob : List Byte) (bits : BitStr) (tr' : Tree) (t : State),
      exec .decompress s = .next t ∧
      t = { s with
        node := nodes, nodeCount := BitVec.ofNat 10 tr.indices.length, root := 0, treeSrc := true, treeValid := true
        codesValid := false, cur := cur
        inPos := BitVec.ofNat 64 (32 + tr.headerBits.length + (items.flatMap Prod.snd ++ e).length)
        outBytes := ob, pend := [], outPos := s.outPos + BitVec.ofNat 64 bits.length
        outClosed := true, outCloses := s.outCloses ++ [ob.length], busy := false, pending := none, done := true } ∧
      bits = items.flatMap (fun q => bitsOf 8 q.1.val) ++ padBits s.pend.length ∧ s.Emits bits ob [] ∧
      (s.pend = [] → ob = s.outBytes ++ items.map fun q => BitVec.ofNat 8 q.1.val) ∧
      followBits nodes 0 e = some cur.toNat ∧ ValidTree t ∧ t.tree = .ok tr' ∧ tr'.sameShape tr = true

/-- R170: DECOMPRESS of a stream whose first 32 bits are not the tag raises FORMAT from CHECK_MAGIC and writes nothing, with
DETAIL 1 when the stream has no 32 bits. -/
def Obligations.DecompressRejectsAWrongTag : Prop :=
  ∀ s : State, s.outClosed = false →
    (4 ≤ s.inBytes.length → (bytesBits s.inBytes).take 32 ≠ bitsOf 32 s.magic.toNat →
      exec .decompress s = .next { s with
        inPos := 32, busy := false, pending := none, err := true, error := { cause := 1, op := 0x09, detail := 0 } }) ∧
    (s.inBytes.length < 4 →
      exec .decompress s = .next { s with
        inPos := BitVec.ofNat 64 s.inLimit, busy := false, pending := none, err := true
        error := { cause := 1, op := 0x09, detail := 1 } })

/-- R169: the round-trip law, for every value of MAGIC and every input of at most MAX_INPUT bytes. -/
def Obligations.RoundTrip : Prop :=
  ∀ (magic : Word) (bytes : List Byte), bytes.length ≤ Config.maxInput →
    ∃ c d, exec .compress { State.launch bytes with magic := magic } = .next c ∧ c.done = true ∧
      exec .decompress { State.launch c.outBytes with magic := magic } = .next d ∧ d.done = true ∧ d.outBytes = bytes

/-- R171: DECOMPRESS of a proper beginning of a stream COMPRESS wrote: TRUNCATED from READ_HEADER while the header is
incomplete, TRUNCATED from READ_BODY after it, FORMAT(1) below four bytes. -/
def Obligations.TruncationIsDetected : Prop :=
  ∀ (magic : Word) (bytes : List Byte) (c : State) (tr : Tree) (cut : List Byte), bytes.length ≤ Config.maxInput →
    exec .compress { State.launch bytes with magic := magic } = .next c → c.tree = .ok tr → cut <+: c.outBytes →
    cut.length < c.outBytes.length →
    ∃ d, exec .decompress { State.launch cut with magic := magic } = .next d ∧ d.err = true ∧ d.done = false ∧
      (cut.length < 4 → d.error = { cause := 1, op := 0x09, detail := 1 }) ∧
      (4 ≤ cut.length → 8 * cut.length < 32 + tr.headerBits.length →
        d.error.cause = 2 ∧ d.error.op = 0x0A ∧ d.error.detail.toNat ≤ 1) ∧
      (32 + tr.headerBits.length ≤ 8 * cut.length → d.error = { cause := 2, op := 0x0B, detail := 2 })

/-- R167: from an idle state with no error and an open output, the nine lines of COMPRESS_SEQ end in the state COMPRESS ends
in, but for CMD_REJ. -/
def Obligations.CompressSeqEndsAsCompress : Prop :=
  ∀ (s t : State), s.busy = false → s.err = false → s.outClosed = false →
    step { s with turns := [lineOf .compress] } = .next t →
    ∃ u, Sys2Proof.core.run 9 { s with turns := compressSeqInstrs.map lineOf } = .next u ∧ t = { u with cmdRej := t.cmdRej } ∧
      (t.err = false → u = t)

/-- R168: the same for DECOMPRESS_SEQ's five lines and DECOMPRESS. -/
def Obligations.DecompressSeqEndsAsDecompress : Prop :=
  ∀ (s t : State), s.busy = false → s.err = false → s.outClosed = false →
    step { s with turns := [lineOf .decompress] } = .next t →
    ∃ u, Sys2Proof.core.run 5 { s with turns := decompressSeqInstrs.map lineOf } = .next u ∧
      t = { u with cmdRej := t.cmdRej } ∧ (t.err = false → u = t)

/-- R206: a composite that fails never reaches its CLOSE. -/
def Obligations.FailedCompositeNeverCloses : Prop :=
  ∀ (i : Instr) (s t : State), i = .compress ∨ i = .decompress → s.err = false → exec i s = .next t → t.err = true →
    t.outCloses = s.outCloses ∧ t.outClosed = s.outClosed ∧ s.outBytes <+: t.outBytes

/-! ### The register window -/

/-- R26, R211: a read of STATUS, bit by bit, also while BUSY is 1. -/
def Obligations.StatusReadsItsBits : Prop :=
  ∀ (s : State) (ts : List Turn), s.turns = .read 32 (s.hufBase + 0x00C) :: ts →
    ∃ w : Word, step s = .next { s with turns := ts, busLog := { data := w, error := false } :: s.busLog } ∧
      w.getLsbD 0 = s.busy ∧ w.getLsbD 1 = s.done ∧ w.getLsbD 2 = s.err ∧ w.getLsbD 3 = s.freqValid ∧
      w.getLsbD 4 = s.treeValid ∧ w.getLsbD 5 = s.codesValid ∧ w.getLsbD 6 = s.treeSrc ∧ w.getLsbD 7 = s.outClosed ∧
      w.getLsbD 8 = s.cmdRej ∧ w.getLsbD 9 = (s.irqEn && (s.done || s.err)) ∧ ∀ k, 10 ≤ k → w.getLsbD k = false

/-- R23, R24, R25, R27, R28, R29: the registers that read exactly at any time. That CMD's read is 0 also while BUSY is 1 is the
model's reading of R56 (log entry 8, DEDUCED). -/
def Obligations.ExactRegistersRead : Prop :=
  ∀ (s : State) (ts : List Turn) (off : Nat) (w : Word),
    (off, w) ∈ [(0x000, (0x48554646 : Word)), (0x004, if s.irqEn then 2 else 0), (0x008, 0),
      (0x010, s.error.detail ++ s.error.op ++ s.error.cause), (0x014, s.magic), (0x018, 0x00020120)] →
    s.turns = .read 32 (s.hufBase + off) :: ts →
    step s = .next { s with turns := ts, busLog := { data := w, error := false } :: s.busLog }

/-- R31, R32, R35: the position counters and CUR read exactly while BUSY is 0. -/
def Obligations.CursorsReadWhenIdle : Prop :=
  ∀ (s : State) (ts : List Turn) (off : Nat) (w : Word), s.busy = false →
    (off, w) ∈ [(0x020, s.inPos.extractLsb' 0 32), (0x024, s.inPos.extractLsb' 32 32), (0x028, s.outPos.extractLsb' 0 32),
      (0x02C, s.outPos.extractLsb' 32 32), (0x038, s.cur.setWidth 32)] →
    s.turns = .read 32 (s.hufBase + off) :: ts →
    step s = .next { s with turns := ts, busLog := { data := w, error := false } :: s.busLog }

/-- R30, R33, R34, R41, R42, R44: while BUSY is 0 and the governing VALID flag is 1, FREQ_TOTAL, NODE_COUNT, ROOT and the FREQ,
CODE_LEN and NODE windows read what the tables hold. -/
def Obligations.TablesReadWhenValid : Prop :=
  ∀ (s : State) (ts : List Turn) (off : Nat) (w : Word), s.busy = false → s.turns = .read 32 (s.hufBase + off) :: ts →
    ((s.freqValid = true ∧ ((off = 0x01C ∧ w = s.freqTotal) ∨ ∃ c : Sym, off = 0x1000 + 4 * c.val ∧ w = s.freq[c])) ∨
      (s.codesValid = true ∧ ∃ c : Sym, off = 0x2000 + 4 * c.val ∧ w = BitVec.ofNat 32 s.code[c].length) ∨
      (s.treeValid = true ∧ ((off = 0x030 ∧ w = s.nodeCount.setWidth 32) ∨ (off = 0x034 ∧ w = s.root.setWidth 32) ∨
        ∃ n nd, n < s.nodeCount.toNat ∧ s.node[n]? = some nd ∧
          ((off = 0x8000 + 16 * n ∧ w = (if nd.kind = .leaf then 0x80000000 else 0) ||| nd.sym.setWidth 32) ∨
            (off = 0x8000 + 16 * n + 4 ∧ w = nd.weight) ∨ (off = 0x8000 + 16 * n + 8 ∧ w = nd.left.setWidth 32) ∨
            (off = 0x8000 + 16 * n + 12 ∧ w = nd.right.setWidth 32))))) →
    step s = .next { s with turns := ts, busLog := { data := w, error := false } :: s.busLog }

/-- R43: the CODE_BITS window packs a code's bits first bit first: bit 32 j + i of the code is bit 31 - i of word j, and bits
past the code's end read 0. -/
def Obligations.CodeBitsReadWhenValid : Prop :=
  ∀ (s : State) (ts : List Turn) (c : Sym) (j : Nat), s.busy = false → s.codesValid = true → j < 8 →
    s.turns = .read 32 (s.hufBase + (0x4000 + 32 * c.val + 4 * j)) :: ts →
    ∃ w : Word, step s = .next { s with turns := ts, busLog := { data := w, error := false } :: s.busLog } ∧
      ∀ i, i < 32 → w.getLsbD (31 - i) = s.code[c].getD (32 * j + i) false

/-- R56, R57: which reads are draws: of the scalars and windows named, while BUSY is 1 or the governing flag is 0, and of node
entries at or above NODE_COUNT. The value is a free value (log entry 5). -/
def Obligations.UnsettledReadsAreDraws : Prop :=
  ∀ (s : State) (ts : List Turn) (off : Nat), s.turns = .read 32 (s.hufBase + off) :: ts →
    ((s.busy = true ∧ off ∈ [0x020, 0x024, 0x028, 0x02C, 0x038]) ∨
      ((s.busy = true ∨ s.freqValid = false) ∧ (off = 0x01C ∨ ∃ c : Sym, off = 0x1000 + 4 * c.val)) ∨
      ((s.busy = true ∨ s.codesValid = false) ∧
        ((∃ c : Sym, off = 0x2000 + 4 * c.val) ∨ ∃ (c : Sym) (j : Nat), j < 8 ∧ off = 0x4000 + 32 * c.val + 4 * j)) ∨
      ((s.busy = true ∨ s.treeValid = false) ∧ (off = 0x030 ∨ off = 0x034)) ∨
      (∃ n j, n < 513 ∧ j < 4 ∧ off = 0x8000 + 16 * n + 4 * j ∧
        (s.busy = true ∨ s.treeValid = false ∨ s.nodeCount.toNat ≤ n))) →
    step s = .next { s with
      turns := ts, draws := s.draws + 1, busLog := { data := Config.freeWord s.draws, error := false } :: s.busLog }

/-- R36, R52: a reserved offset reads 0. That it does so also while BUSY is 1, where R56 makes "every other read" a draw, is the
model's reading (log entry 8, DEDUCED, 93_implementation_defined.md I11). R55: a write at any aligned offset other than CTRL, CMD
and STATUS has no effect. -/
def Obligations.ReservedReadsAndOtherWrites : Prop :=
  ∀ (s : State) (ts : List Turn) (off : Nat) (w : Word), off % 4 = 0 → off < 0x10000 →
    (((0x03C ≤ off ∧ off < 0x1000) ∨ (0x1404 ≤ off ∧ off < 0x2000) ∨ (0x2404 ≤ off ∧ off < 0x4000) ∨
        (0x6020 ≤ off ∧ off < 0x8000) ∨ 0xA010 ≤ off) → s.turns = .read 32 (s.hufBase + off) :: ts →
      step s = .next { s with turns := ts, busLog := { data := 0, error := false } :: s.busLog }) ∧
    (off ≠ 0x004 → off ≠ 0x008 → off ≠ 0x00C → s.turns = .write 32 (s.hufBase + off) w :: ts →
      step s = .next { s with turns := ts, busLog := { data := 0, error := false } :: s.busLog })

/-- R26, R55, R24, R221: a write to STATUS clears DONE and CMD_REJ where it has a 1 in bit 1 and bit 8; a write to CTRL with bit
0 clear sets IRQ_EN from bit 1. -/
def Obligations.AcknowledgeAndEnableWrites : Prop :=
  ∀ (s : State) (ts : List Turn) (w : Word),
    (s.turns = .write 32 (s.hufBase + 0x00C) w :: ts →
      step s = .next { s with
        turns := ts, busLog := { data := 0, error := false } :: s.busLog
        done := if w.getLsbD 1 then false else s.done, cmdRej := if w.getLsbD 8 then false else s.cmdRej }) ∧
    (s.turns = .write 32 (s.hufBase + 0x004) w :: ts → w.getLsbD 0 = false →
      step s = .next { s with turns := ts, busLog := { data := 0, error := false } :: s.busLog, irqEn := w.getLsbD 1 })

/-- R53: an access that is not 32 bits wide or not at a multiple of 4 has no effect on HUF, reads 0, and gets an error response.
An access outside the window does not reach HUF (R51). -/
def Obligations.UndefinedAccessesHaveNoEffect : Prop :=
  ∀ (s : State) (ts : List Turn) (bits off : Nat) (w : Word),
    (bits ≠ 32 ∨ off % 4 ≠ 0) → off < 0x10000 →
    (s.turns = .read bits (s.hufBase + off) :: ts ∨ s.turns = .write bits (s.hufBase + off) w :: ts) →
    step s = .next { s with turns := ts, busLog := { data := 0, error := true } :: s.busLog }

/-- R54: a read has no side effect on HUF: only the answer and the model's count of draws are new. -/
def Obligations.ReadsHaveNoSideEffects : Prop :=
  ∀ (s : State) (ts : List Turn) (bits addr : Nat), s.turns = .read bits addr :: ts →
    ∃ t, step s = .next t ∧ t = { s with turns := ts, busLog := t.busLog, draws := t.draws } ∧ s.draws ≤ t.draws ∧
      (t.busLog = s.busLog ∨ ∃ r, t.busLog = r :: s.busLog)

/-! ### Reset -/

/-- R220, R221: a reset of an idle block, hard or soft: the values the spec gives. The streams and the parameters stay. -/
def Obligations.ResetGivesTheResetValues : Prop :=
  ∀ (s : State) (ts : List Turn) (w : Word), s.busy = false →
    (s.turns = .hardReset :: ts ∨ (s.turns = .write 32 (s.hufBase + 0x004) w :: ts ∧ w.getLsbD 0 = true)) →
    ∃ t, step s = .next t ∧ t.irqEn = false ∧ t.busy = false ∧ t.pending = none ∧ t.done = false ∧ t.err = false ∧
      t.freqValid = false ∧ t.treeValid = false ∧ t.codesValid = false ∧ t.treeSrc = false ∧ t.outClosed = false ∧
      t.cmdRej = false ∧ t.error = { cause := 0, op := 0, detail := 0 } ∧ t.inPos = 0 ∧ t.outPos = 0 ∧ t.pend = [] ∧
      t.cur = 0 ∧ t.inBytes = s.inBytes ∧ t.outBytes = s.outBytes ∧ t.outCloses = s.outCloses ∧ t.magic = s.magic ∧
      t.hufBase = s.hufBase ∧ t.turns = ts

/-- R222: a reset while BUSY is 1, hard or soft, first lets some beginning of the pending command's output reach the port, and
its `close` only after all of it. Which beginning is a free value (log entry 6). -/
def Obligations.ResetCancelsTheCommand : Prop :=
  ∀ (s r e : State) (ts : List Turn) (w : Word) (i : Instr) (out : List Byte), s.busy = true → s.pending = some i →
    ((s.turns = .hardReset :: ts ∧ r = { s with turns := ts }) ∨
      (s.turns = .write 32 (s.hufBase + 0x004) w :: ts ∧ w.getLsbD 0 = true ∧
        r = { s with turns := ts, busLog := { data := 0, error := false } :: s.busLog, irqEn := w.getLsbD 1 })) →
    exec i r = .next e → e.outBytes = s.outBytes ++ out →
    ∃ t got, step s = .next t ∧ got <+: out ∧ t.outBytes = s.outBytes ++ got ∧
      (t.outCloses = s.outCloses ∨ (got = out ∧ t.outCloses = e.outCloses)) ∧
      t.irqEn = false ∧ t.busy = false ∧ t.pending = none ∧ t.done = false ∧ t.err = false ∧
      t.freqValid = false ∧ t.treeValid = false ∧ t.codesValid = false ∧ t.treeSrc = false ∧ t.outClosed = false ∧
      t.cmdRej = false ∧ t.error = { cause := 0, op := 0, detail := 0 } ∧ t.inPos = 0 ∧ t.outPos = 0 ∧ t.pend = [] ∧
      t.cur = 0 ∧ t.inBytes = s.inBytes ∧ t.magic = s.magic ∧ t.hufBase = s.hufBase ∧ t.turns = ts

/-! ### Invariants and whole-machine rules -/

/-- The invariant holds at a launch, for every stream the model does not refuse. -/
def Obligations.LaunchMeetsTheInvariant : Prop :=
  ∀ bytes : List Byte, bytes.length < Config.streamLimit → Inv (State.launch bytes)

/-- R27, R32, R37, R38, R40, R48, R197: every step from a state that meets the invariant ends in one that meets it. -/
def Obligations.EveryStepKeepsTheInvariant : Prop := ∀ s t : State, Inv s → step s = .next t → Inv t

/-- R112, R218: from a state that meets the invariant no step faults and none is refused, whatever the host does. -/
def Obligations.NoStepStops : Prop := ∀ s : State, Inv s → ∃ t, step s = .next t

/-- R49, R66: no step changes the input stream, takes back an output byte, or changes a parameter. -/
def Obligations.OutputIsAppendOnly : Prop :=
  ∀ s t : State, step s = .next t →
    s.outBytes <+: t.outBytes ∧ s.outCloses <+: t.outCloses ∧ t.inBytes = s.inBytes ∧ t.magic = s.magic ∧
      t.hufBase = s.hufBase

/-- R35, R38, R39, R40: which commands write FREQ, the node store, the code table and CUR. -/
def Obligations.OnlyTheirCommandsWriteTheTables : Prop :=
  ∀ (i : Instr) (s t : State), exec i s = .next t →
    (i ∉ [Instr.count, .compress] → t.freq = s.freq ∧ t.freqTotal = s.freqTotal ∧ t.freqValid = s.freqValid) ∧
    (i ∉ [Instr.build, .readHeader, .compress, .decompress] →
      t.node = s.node ∧ t.nodeCount = s.nodeCount ∧ t.root = s.root ∧ t.treeSrc = s.treeSrc) ∧
    (i ∉ [Instr.derive, .compress] → t.code = s.code) ∧
    (i ∉ [Instr.readBody, .decompress] → t.cur = s.cur) ∧
    t.irqEn = s.irqEn ∧ t.busy = false ∧ t.pending = none

/-- R26, R209: ERR goes from 1 to 0 only by the completion of CLEAR_ERR or by a reset. -/
def Obligations.ErrClearsOnlyByClearErrOrReset : Prop :=
  ∀ s t : State, step s = .next t → s.err = true → t.err = false →
    (s.busy = true ∧ s.pending = some .clearErr) ∨ (∃ ts, s.turns = lineOf .clearErr :: ts) ∨
      (∃ ts, s.turns = .hardReset :: ts) ∨
      ∃ w ts, s.turns = .write 32 (s.hufBase + 0x004) w :: ts ∧ w.getLsbD 0 = true

/-- R166, R26: OUT_CLOSED goes from 1 to 0 only by a reset. -/
def Obligations.OutputReopensOnlyByReset : Prop :=
  ∀ s t : State, step s = .next t → s.outClosed = true → t.outClosed = false →
    (∃ ts, s.turns = .hardReset :: ts) ∨ ∃ w ts, s.turns = .write 32 (s.hufBase + 0x004) w :: ts ∧ w.getLsbD 0 = true
end

