-- ==== Sys2Proof/Laws/State.lean ====
section
/-! SUPPORT. One lemma per field and named update of State, each true by rfl, so that no proof unfolds a record update. -/

namespace Sys2Proof.Machine

/-! accept -/

@[simp] theorem State.accept_irqEn (i : Instr) (s : State) : (s.accept i).irqEn = s.irqEn := rfl
@[simp] theorem State.accept_busy (i : Instr) (s : State) : (s.accept i).busy = true := rfl
@[simp] theorem State.accept_pending (i : Instr) (s : State) : (s.accept i).pending = some i := rfl
@[simp] theorem State.accept_done (i : Instr) (s : State) : (s.accept i).done = false := rfl
@[simp] theorem State.accept_err (i : Instr) (s : State) : (s.accept i).err = s.err := rfl
@[simp] theorem State.accept_freqValid (i : Instr) (s : State) : (s.accept i).freqValid = s.freqValid := rfl
@[simp] theorem State.accept_treeValid (i : Instr) (s : State) : (s.accept i).treeValid = s.treeValid := rfl
@[simp] theorem State.accept_codesValid (i : Instr) (s : State) : (s.accept i).codesValid = s.codesValid := rfl
@[simp] theorem State.accept_treeSrc (i : Instr) (s : State) : (s.accept i).treeSrc = s.treeSrc := rfl
@[simp] theorem State.accept_outClosed (i : Instr) (s : State) : (s.accept i).outClosed = s.outClosed := rfl
@[simp] theorem State.accept_cmdRej (i : Instr) (s : State) : (s.accept i).cmdRej = s.cmdRej := rfl
@[simp] theorem State.accept_error (i : Instr) (s : State) : (s.accept i).error = s.error := rfl
@[simp] theorem State.accept_freq (i : Instr) (s : State) : (s.accept i).freq = s.freq := rfl
@[simp] theorem State.accept_freqTotal (i : Instr) (s : State) : (s.accept i).freqTotal = s.freqTotal := rfl
@[simp] theorem State.accept_node (i : Instr) (s : State) : (s.accept i).node = s.node := rfl
@[simp] theorem State.accept_nodeCount (i : Instr) (s : State) : (s.accept i).nodeCount = s.nodeCount := rfl
@[simp] theorem State.accept_root (i : Instr) (s : State) : (s.accept i).root = s.root := rfl
@[simp] theorem State.accept_code (i : Instr) (s : State) : (s.accept i).code = s.code := rfl
@[simp] theorem State.accept_cur (i : Instr) (s : State) : (s.accept i).cur = s.cur := rfl
@[simp] theorem State.accept_inPos (i : Instr) (s : State) : (s.accept i).inPos = s.inPos := rfl
@[simp] theorem State.accept_pend (i : Instr) (s : State) : (s.accept i).pend = s.pend := rfl
@[simp] theorem State.accept_outPos (i : Instr) (s : State) : (s.accept i).outPos = s.outPos := rfl
@[simp] theorem State.accept_inBytes (i : Instr) (s : State) : (s.accept i).inBytes = s.inBytes := rfl
@[simp] theorem State.accept_outBytes (i : Instr) (s : State) : (s.accept i).outBytes = s.outBytes := rfl
@[simp] theorem State.accept_outCloses (i : Instr) (s : State) : (s.accept i).outCloses = s.outCloses := rfl
@[simp] theorem State.accept_magic (i : Instr) (s : State) : (s.accept i).magic = s.magic := rfl
@[simp] theorem State.accept_hufBase (i : Instr) (s : State) : (s.accept i).hufBase = s.hufBase := rfl
@[simp] theorem State.accept_turns (i : Instr) (s : State) : (s.accept i).turns = s.turns := rfl
@[simp] theorem State.accept_busLog (i : Instr) (s : State) : (s.accept i).busLog = s.busLog := rfl
@[simp] theorem State.accept_draws (i : Instr) (s : State) : (s.accept i).draws = s.draws := rfl

/-! reject -/

@[simp] theorem State.reject_irqEn (s : State) : (s.reject).irqEn = s.irqEn := rfl
@[simp] theorem State.reject_busy (s : State) : (s.reject).busy = s.busy := rfl
@[simp] theorem State.reject_pending (s : State) : (s.reject).pending = s.pending := rfl
@[simp] theorem State.reject_done (s : State) : (s.reject).done = s.done := rfl
@[simp] theorem State.reject_err (s : State) : (s.reject).err = s.err := rfl
@[simp] theorem State.reject_freqValid (s : State) : (s.reject).freqValid = s.freqValid := rfl
@[simp] theorem State.reject_treeValid (s : State) : (s.reject).treeValid = s.treeValid := rfl
@[simp] theorem State.reject_codesValid (s : State) : (s.reject).codesValid = s.codesValid := rfl
@[simp] theorem State.reject_treeSrc (s : State) : (s.reject).treeSrc = s.treeSrc := rfl
@[simp] theorem State.reject_outClosed (s : State) : (s.reject).outClosed = s.outClosed := rfl
@[simp] theorem State.reject_cmdRej (s : State) : (s.reject).cmdRej = true := rfl
@[simp] theorem State.reject_error (s : State) : (s.reject).error = s.error := rfl
@[simp] theorem State.reject_freq (s : State) : (s.reject).freq = s.freq := rfl
@[simp] theorem State.reject_freqTotal (s : State) : (s.reject).freqTotal = s.freqTotal := rfl
@[simp] theorem State.reject_node (s : State) : (s.reject).node = s.node := rfl
@[simp] theorem State.reject_nodeCount (s : State) : (s.reject).nodeCount = s.nodeCount := rfl
@[simp] theorem State.reject_root (s : State) : (s.reject).root = s.root := rfl
@[simp] theorem State.reject_code (s : State) : (s.reject).code = s.code := rfl
@[simp] theorem State.reject_cur (s : State) : (s.reject).cur = s.cur := rfl
@[simp] theorem State.reject_inPos (s : State) : (s.reject).inPos = s.inPos := rfl
@[simp] theorem State.reject_pend (s : State) : (s.reject).pend = s.pend := rfl
@[simp] theorem State.reject_outPos (s : State) : (s.reject).outPos = s.outPos := rfl
@[simp] theorem State.reject_inBytes (s : State) : (s.reject).inBytes = s.inBytes := rfl
@[simp] theorem State.reject_outBytes (s : State) : (s.reject).outBytes = s.outBytes := rfl
@[simp] theorem State.reject_outCloses (s : State) : (s.reject).outCloses = s.outCloses := rfl
@[simp] theorem State.reject_magic (s : State) : (s.reject).magic = s.magic := rfl
@[simp] theorem State.reject_hufBase (s : State) : (s.reject).hufBase = s.hufBase := rfl
@[simp] theorem State.reject_turns (s : State) : (s.reject).turns = s.turns := rfl
@[simp] theorem State.reject_busLog (s : State) : (s.reject).busLog = s.busLog := rfl
@[simp] theorem State.reject_draws (s : State) : (s.reject).draws = s.draws := rfl

/-! enterError -/

@[simp] theorem State.enterError_irqEn (e : ErrorReg) (s : State) : (s.enterError e).irqEn = s.irqEn := rfl
@[simp] theorem State.enterError_busy (e : ErrorReg) (s : State) : (s.enterError e).busy = false := rfl
@[simp] theorem State.enterError_pending (e : ErrorReg) (s : State) : (s.enterError e).pending = none := rfl
@[simp] theorem State.enterError_done (e : ErrorReg) (s : State) : (s.enterError e).done = s.done := rfl
@[simp] theorem State.enterError_err (e : ErrorReg) (s : State) : (s.enterError e).err = true := rfl
@[simp] theorem State.enterError_freqValid (e : ErrorReg) (s : State) : (s.enterError e).freqValid = s.freqValid := rfl
@[simp] theorem State.enterError_treeValid (e : ErrorReg) (s : State) : (s.enterError e).treeValid = s.treeValid := rfl
@[simp] theorem State.enterError_codesValid (e : ErrorReg) (s : State) : (s.enterError e).codesValid = s.codesValid := rfl
@[simp] theorem State.enterError_treeSrc (e : ErrorReg) (s : State) : (s.enterError e).treeSrc = s.treeSrc := rfl
@[simp] theorem State.enterError_outClosed (e : ErrorReg) (s : State) : (s.enterError e).outClosed = s.outClosed := rfl
@[simp] theorem State.enterError_cmdRej (e : ErrorReg) (s : State) : (s.enterError e).cmdRej = s.cmdRej := rfl
@[simp] theorem State.enterError_error (e : ErrorReg) (s : State) : (s.enterError e).error = e := rfl
@[simp] theorem State.enterError_freq (e : ErrorReg) (s : State) : (s.enterError e).freq = s.freq := rfl
@[simp] theorem State.enterError_freqTotal (e : ErrorReg) (s : State) : (s.enterError e).freqTotal = s.freqTotal := rfl
@[simp] theorem State.enterError_node (e : ErrorReg) (s : State) : (s.enterError e).node = s.node := rfl
@[simp] theorem State.enterError_nodeCount (e : ErrorReg) (s : State) : (s.enterError e).nodeCount = s.nodeCount := rfl
@[simp] theorem State.enterError_root (e : ErrorReg) (s : State) : (s.enterError e).root = s.root := rfl
@[simp] theorem State.enterError_code (e : ErrorReg) (s : State) : (s.enterError e).code = s.code := rfl
@[simp] theorem State.enterError_cur (e : ErrorReg) (s : State) : (s.enterError e).cur = s.cur := rfl
@[simp] theorem State.enterError_inPos (e : ErrorReg) (s : State) : (s.enterError e).inPos = s.inPos := rfl
@[simp] theorem State.enterError_pend (e : ErrorReg) (s : State) : (s.enterError e).pend = s.pend := rfl
@[simp] theorem State.enterError_outPos (e : ErrorReg) (s : State) : (s.enterError e).outPos = s.outPos := rfl
@[simp] theorem State.enterError_inBytes (e : ErrorReg) (s : State) : (s.enterError e).inBytes = s.inBytes := rfl
@[simp] theorem State.enterError_outBytes (e : ErrorReg) (s : State) : (s.enterError e).outBytes = s.outBytes := rfl
@[simp] theorem State.enterError_outCloses (e : ErrorReg) (s : State) : (s.enterError e).outCloses = s.outCloses := rfl
@[simp] theorem State.enterError_magic (e : ErrorReg) (s : State) : (s.enterError e).magic = s.magic := rfl
@[simp] theorem State.enterError_hufBase (e : ErrorReg) (s : State) : (s.enterError e).hufBase = s.hufBase := rfl
@[simp] theorem State.enterError_turns (e : ErrorReg) (s : State) : (s.enterError e).turns = s.turns := rfl
@[simp] theorem State.enterError_busLog (e : ErrorReg) (s : State) : (s.enterError e).busLog = s.busLog := rfl
@[simp] theorem State.enterError_draws (e : ErrorReg) (s : State) : (s.enterError e).draws = s.draws := rfl

/-! finishOk -/

@[simp] theorem State.finishOk_irqEn (s : State) : (s.finishOk).irqEn = s.irqEn := rfl
@[simp] theorem State.finishOk_busy (s : State) : (s.finishOk).busy = false := rfl
@[simp] theorem State.finishOk_pending (s : State) : (s.finishOk).pending = none := rfl
@[simp] theorem State.finishOk_done (s : State) : (s.finishOk).done = true := rfl
@[simp] theorem State.finishOk_err (s : State) : (s.finishOk).err = s.err := rfl
@[simp] theorem State.finishOk_freqValid (s : State) : (s.finishOk).freqValid = s.freqValid := rfl
@[simp] theorem State.finishOk_treeValid (s : State) : (s.finishOk).treeValid = s.treeValid := rfl
@[simp] theorem State.finishOk_codesValid (s : State) : (s.finishOk).codesValid = s.codesValid := rfl
@[simp] theorem State.finishOk_treeSrc (s : State) : (s.finishOk).treeSrc = s.treeSrc := rfl
@[simp] theorem State.finishOk_outClosed (s : State) : (s.finishOk).outClosed = s.outClosed := rfl
@[simp] theorem State.finishOk_cmdRej (s : State) : (s.finishOk).cmdRej = s.cmdRej := rfl
@[simp] theorem State.finishOk_error (s : State) : (s.finishOk).error = s.error := rfl
@[simp] theorem State.finishOk_freq (s : State) : (s.finishOk).freq = s.freq := rfl
@[simp] theorem State.finishOk_freqTotal (s : State) : (s.finishOk).freqTotal = s.freqTotal := rfl
@[simp] theorem State.finishOk_node (s : State) : (s.finishOk).node = s.node := rfl
@[simp] theorem State.finishOk_nodeCount (s : State) : (s.finishOk).nodeCount = s.nodeCount := rfl
@[simp] theorem State.finishOk_root (s : State) : (s.finishOk).root = s.root := rfl
@[simp] theorem State.finishOk_code (s : State) : (s.finishOk).code = s.code := rfl
@[simp] theorem State.finishOk_cur (s : State) : (s.finishOk).cur = s.cur := rfl
@[simp] theorem State.finishOk_inPos (s : State) : (s.finishOk).inPos = s.inPos := rfl
@[simp] theorem State.finishOk_pend (s : State) : (s.finishOk).pend = s.pend := rfl
@[simp] theorem State.finishOk_outPos (s : State) : (s.finishOk).outPos = s.outPos := rfl
@[simp] theorem State.finishOk_inBytes (s : State) : (s.finishOk).inBytes = s.inBytes := rfl
@[simp] theorem State.finishOk_outBytes (s : State) : (s.finishOk).outBytes = s.outBytes := rfl
@[simp] theorem State.finishOk_outCloses (s : State) : (s.finishOk).outCloses = s.outCloses := rfl
@[simp] theorem State.finishOk_magic (s : State) : (s.finishOk).magic = s.magic := rfl
@[simp] theorem State.finishOk_hufBase (s : State) : (s.finishOk).hufBase = s.hufBase := rfl
@[simp] theorem State.finishOk_turns (s : State) : (s.finishOk).turns = s.turns := rfl
@[simp] theorem State.finishOk_busLog (s : State) : (s.finishOk).busLog = s.busLog := rfl
@[simp] theorem State.finishOk_draws (s : State) : (s.finishOk).draws = s.draws := rfl

/-! clearError -/

@[simp] theorem State.clearError_irqEn (s : State) : (s.clearError).irqEn = s.irqEn := rfl
@[simp] theorem State.clearError_busy (s : State) : (s.clearError).busy = s.busy := rfl
@[simp] theorem State.clearError_pending (s : State) : (s.clearError).pending = s.pending := rfl
@[simp] theorem State.clearError_done (s : State) : (s.clearError).done = s.done := rfl
@[simp] theorem State.clearError_err (s : State) : (s.clearError).err = false := rfl
@[simp] theorem State.clearError_freqValid (s : State) : (s.clearError).freqValid = s.freqValid := rfl
@[simp] theorem State.clearError_treeValid (s : State) : (s.clearError).treeValid = s.treeValid := rfl
@[simp] theorem State.clearError_codesValid (s : State) : (s.clearError).codesValid = s.codesValid := rfl
@[simp] theorem State.clearError_treeSrc (s : State) : (s.clearError).treeSrc = s.treeSrc := rfl
@[simp] theorem State.clearError_outClosed (s : State) : (s.clearError).outClosed = s.outClosed := rfl
@[simp] theorem State.clearError_cmdRej (s : State) : (s.clearError).cmdRej = false := rfl
@[simp] theorem State.clearError_error (s : State) : (s.clearError).error = { cause := 0, op := 0, detail := 0 } := rfl
@[simp] theorem State.clearError_freq (s : State) : (s.clearError).freq = s.freq := rfl
@[simp] theorem State.clearError_freqTotal (s : State) : (s.clearError).freqTotal = s.freqTotal := rfl
@[simp] theorem State.clearError_node (s : State) : (s.clearError).node = s.node := rfl
@[simp] theorem State.clearError_nodeCount (s : State) : (s.clearError).nodeCount = s.nodeCount := rfl
@[simp] theorem State.clearError_root (s : State) : (s.clearError).root = s.root := rfl
@[simp] theorem State.clearError_code (s : State) : (s.clearError).code = s.code := rfl
@[simp] theorem State.clearError_cur (s : State) : (s.clearError).cur = s.cur := rfl
@[simp] theorem State.clearError_inPos (s : State) : (s.clearError).inPos = s.inPos := rfl
@[simp] theorem State.clearError_pend (s : State) : (s.clearError).pend = s.pend := rfl
@[simp] theorem State.clearError_outPos (s : State) : (s.clearError).outPos = s.outPos := rfl
@[simp] theorem State.clearError_inBytes (s : State) : (s.clearError).inBytes = s.inBytes := rfl
@[simp] theorem State.clearError_outBytes (s : State) : (s.clearError).outBytes = s.outBytes := rfl
@[simp] theorem State.clearError_outCloses (s : State) : (s.clearError).outCloses = s.outCloses := rfl
@[simp] theorem State.clearError_magic (s : State) : (s.clearError).magic = s.magic := rfl
@[simp] theorem State.clearError_hufBase (s : State) : (s.clearError).hufBase = s.hufBase := rfl
@[simp] theorem State.clearError_turns (s : State) : (s.clearError).turns = s.turns := rfl
@[simp] theorem State.clearError_busLog (s : State) : (s.clearError).busLog = s.busLog := rfl
@[simp] theorem State.clearError_draws (s : State) : (s.clearError).draws = s.draws := rfl

/-! rewind -/

@[simp] theorem State.rewind_irqEn (s : State) : (s.rewind).irqEn = s.irqEn := rfl
@[simp] theorem State.rewind_busy (s : State) : (s.rewind).busy = s.busy := rfl
@[simp] theorem State.rewind_pending (s : State) : (s.rewind).pending = s.pending := rfl
@[simp] theorem State.rewind_done (s : State) : (s.rewind).done = s.done := rfl
@[simp] theorem State.rewind_err (s : State) : (s.rewind).err = s.err := rfl
@[simp] theorem State.rewind_freqValid (s : State) : (s.rewind).freqValid = s.freqValid := rfl
@[simp] theorem State.rewind_treeValid (s : State) : (s.rewind).treeValid = s.treeValid := rfl
@[simp] theorem State.rewind_codesValid (s : State) : (s.rewind).codesValid = s.codesValid := rfl
@[simp] theorem State.rewind_treeSrc (s : State) : (s.rewind).treeSrc = s.treeSrc := rfl
@[simp] theorem State.rewind_outClosed (s : State) : (s.rewind).outClosed = s.outClosed := rfl
@[simp] theorem State.rewind_cmdRej (s : State) : (s.rewind).cmdRej = s.cmdRej := rfl
@[simp] theorem State.rewind_error (s : State) : (s.rewind).error = s.error := rfl
@[simp] theorem State.rewind_freq (s : State) : (s.rewind).freq = s.freq := rfl
@[simp] theorem State.rewind_freqTotal (s : State) : (s.rewind).freqTotal = s.freqTotal := rfl
@[simp] theorem State.rewind_node (s : State) : (s.rewind).node = s.node := rfl
@[simp] theorem State.rewind_nodeCount (s : State) : (s.rewind).nodeCount = s.nodeCount := rfl
@[simp] theorem State.rewind_root (s : State) : (s.rewind).root = s.root := rfl
@[simp] theorem State.rewind_code (s : State) : (s.rewind).code = s.code := rfl
@[simp] theorem State.rewind_cur (s : State) : (s.rewind).cur = s.cur := rfl
@[simp] theorem State.rewind_inPos (s : State) : (s.rewind).inPos = 0 := rfl
@[simp] theorem State.rewind_pend (s : State) : (s.rewind).pend = s.pend := rfl
@[simp] theorem State.rewind_outPos (s : State) : (s.rewind).outPos = s.outPos := rfl
@[simp] theorem State.rewind_inBytes (s : State) : (s.rewind).inBytes = s.inBytes := rfl
@[simp] theorem State.rewind_outBytes (s : State) : (s.rewind).outBytes = s.outBytes := rfl
@[simp] theorem State.rewind_outCloses (s : State) : (s.rewind).outCloses = s.outCloses := rfl
@[simp] theorem State.rewind_magic (s : State) : (s.rewind).magic = s.magic := rfl
@[simp] theorem State.rewind_hufBase (s : State) : (s.rewind).hufBase = s.hufBase := rfl
@[simp] theorem State.rewind_turns (s : State) : (s.rewind).turns = s.turns := rfl
@[simp] theorem State.rewind_busLog (s : State) : (s.rewind).busLog = s.busLog := rfl
@[simp] theorem State.rewind_draws (s : State) : (s.rewind).draws = s.draws := rfl

/-! startCount -/

@[simp] theorem State.startCount_irqEn (s : State) : (s.startCount).irqEn = s.irqEn := rfl
@[simp] theorem State.startCount_busy (s : State) : (s.startCount).busy = s.busy := rfl
@[simp] theorem State.startCount_pending (s : State) : (s.startCount).pending = s.pending := rfl
@[simp] theorem State.startCount_done (s : State) : (s.startCount).done = s.done := rfl
@[simp] theorem State.startCount_err (s : State) : (s.startCount).err = s.err := rfl
@[simp] theorem State.startCount_freqValid (s : State) : (s.startCount).freqValid = false := rfl
@[simp] theorem State.startCount_treeValid (s : State) : (s.startCount).treeValid = false := rfl
@[simp] theorem State.startCount_codesValid (s : State) : (s.startCount).codesValid = false := rfl
@[simp] theorem State.startCount_treeSrc (s : State) : (s.startCount).treeSrc = s.treeSrc := rfl
@[simp] theorem State.startCount_outClosed (s : State) : (s.startCount).outClosed = s.outClosed := rfl
@[simp] theorem State.startCount_cmdRej (s : State) : (s.startCount).cmdRej = s.cmdRej := rfl
@[simp] theorem State.startCount_error (s : State) : (s.startCount).error = s.error := rfl
@[simp] theorem State.startCount_freq (s : State) : (s.startCount).freq = s.freq := rfl
@[simp] theorem State.startCount_freqTotal (s : State) : (s.startCount).freqTotal = s.freqTotal := rfl
@[simp] theorem State.startCount_node (s : State) : (s.startCount).node = s.node := rfl
@[simp] theorem State.startCount_nodeCount (s : State) : (s.startCount).nodeCount = s.nodeCount := rfl
@[simp] theorem State.startCount_root (s : State) : (s.startCount).root = s.root := rfl
@[simp] theorem State.startCount_code (s : State) : (s.startCount).code = s.code := rfl
@[simp] theorem State.startCount_cur (s : State) : (s.startCount).cur = s.cur := rfl
@[simp] theorem State.startCount_inPos (s : State) : (s.startCount).inPos = s.inPos := rfl
@[simp] theorem State.startCount_pend (s : State) : (s.startCount).pend = s.pend := rfl
@[simp] theorem State.startCount_outPos (s : State) : (s.startCount).outPos = s.outPos := rfl
@[simp] theorem State.startCount_inBytes (s : State) : (s.startCount).inBytes = s.inBytes := rfl
@[simp] theorem State.startCount_outBytes (s : State) : (s.startCount).outBytes = s.outBytes := rfl
@[simp] theorem State.startCount_outCloses (s : State) : (s.startCount).outCloses = s.outCloses := rfl
@[simp] theorem State.startCount_magic (s : State) : (s.startCount).magic = s.magic := rfl
@[simp] theorem State.startCount_hufBase (s : State) : (s.startCount).hufBase = s.hufBase := rfl
@[simp] theorem State.startCount_turns (s : State) : (s.startCount).turns = s.turns := rfl
@[simp] theorem State.startCount_busLog (s : State) : (s.startCount).busLog = s.busLog := rfl
@[simp] theorem State.startCount_draws (s : State) : (s.startCount).draws = s.draws := rfl

/-! startTree -/

@[simp] theorem State.startTree_irqEn (s : State) : (s.startTree).irqEn = s.irqEn := rfl
@[simp] theorem State.startTree_busy (s : State) : (s.startTree).busy = s.busy := rfl
@[simp] theorem State.startTree_pending (s : State) : (s.startTree).pending = s.pending := rfl
@[simp] theorem State.startTree_done (s : State) : (s.startTree).done = s.done := rfl
@[simp] theorem State.startTree_err (s : State) : (s.startTree).err = s.err := rfl
@[simp] theorem State.startTree_freqValid (s : State) : (s.startTree).freqValid = s.freqValid := rfl
@[simp] theorem State.startTree_treeValid (s : State) : (s.startTree).treeValid = false := rfl
@[simp] theorem State.startTree_codesValid (s : State) : (s.startTree).codesValid = false := rfl
@[simp] theorem State.startTree_treeSrc (s : State) : (s.startTree).treeSrc = s.treeSrc := rfl
@[simp] theorem State.startTree_outClosed (s : State) : (s.startTree).outClosed = s.outClosed := rfl
@[simp] theorem State.startTree_cmdRej (s : State) : (s.startTree).cmdRej = s.cmdRej := rfl
@[simp] theorem State.startTree_error (s : State) : (s.startTree).error = s.error := rfl
@[simp] theorem State.startTree_freq (s : State) : (s.startTree).freq = s.freq := rfl
@[simp] theorem State.startTree_freqTotal (s : State) : (s.startTree).freqTotal = s.freqTotal := rfl
@[simp] theorem State.startTree_node (s : State) : (s.startTree).node = s.node := rfl
@[simp] theorem State.startTree_nodeCount (s : State) : (s.startTree).nodeCount = s.nodeCount := rfl
@[simp] theorem State.startTree_root (s : State) : (s.startTree).root = s.root := rfl
@[simp] theorem State.startTree_code (s : State) : (s.startTree).code = s.code := rfl
@[simp] theorem State.startTree_cur (s : State) : (s.startTree).cur = s.cur := rfl
@[simp] theorem State.startTree_inPos (s : State) : (s.startTree).inPos = s.inPos := rfl
@[simp] theorem State.startTree_pend (s : State) : (s.startTree).pend = s.pend := rfl
@[simp] theorem State.startTree_outPos (s : State) : (s.startTree).outPos = s.outPos := rfl
@[simp] theorem State.startTree_inBytes (s : State) : (s.startTree).inBytes = s.inBytes := rfl
@[simp] theorem State.startTree_outBytes (s : State) : (s.startTree).outBytes = s.outBytes := rfl
@[simp] theorem State.startTree_outCloses (s : State) : (s.startTree).outCloses = s.outCloses := rfl
@[simp] theorem State.startTree_magic (s : State) : (s.startTree).magic = s.magic := rfl
@[simp] theorem State.startTree_hufBase (s : State) : (s.startTree).hufBase = s.hufBase := rfl
@[simp] theorem State.startTree_turns (s : State) : (s.startTree).turns = s.turns := rfl
@[simp] theorem State.startTree_busLog (s : State) : (s.startTree).busLog = s.busLog := rfl
@[simp] theorem State.startTree_draws (s : State) : (s.startTree).draws = s.draws := rfl

/-! startDerive -/

@[simp] theorem State.startDerive_irqEn (s : State) : (s.startDerive).irqEn = s.irqEn := rfl
@[simp] theorem State.startDerive_busy (s : State) : (s.startDerive).busy = s.busy := rfl
@[simp] theorem State.startDerive_pending (s : State) : (s.startDerive).pending = s.pending := rfl
@[simp] theorem State.startDerive_done (s : State) : (s.startDerive).done = s.done := rfl
@[simp] theorem State.startDerive_err (s : State) : (s.startDerive).err = s.err := rfl
@[simp] theorem State.startDerive_freqValid (s : State) : (s.startDerive).freqValid = s.freqValid := rfl
@[simp] theorem State.startDerive_treeValid (s : State) : (s.startDerive).treeValid = s.treeValid := rfl
@[simp] theorem State.startDerive_codesValid (s : State) : (s.startDerive).codesValid = false := rfl
@[simp] theorem State.startDerive_treeSrc (s : State) : (s.startDerive).treeSrc = s.treeSrc := rfl
@[simp] theorem State.startDerive_outClosed (s : State) : (s.startDerive).outClosed = s.outClosed := rfl
@[simp] theorem State.startDerive_cmdRej (s : State) : (s.startDerive).cmdRej = s.cmdRej := rfl
@[simp] theorem State.startDerive_error (s : State) : (s.startDerive).error = s.error := rfl
@[simp] theorem State.startDerive_freq (s : State) : (s.startDerive).freq = s.freq := rfl
@[simp] theorem State.startDerive_freqTotal (s : State) : (s.startDerive).freqTotal = s.freqTotal := rfl
@[simp] theorem State.startDerive_node (s : State) : (s.startDerive).node = s.node := rfl
@[simp] theorem State.startDerive_nodeCount (s : State) : (s.startDerive).nodeCount = s.nodeCount := rfl
@[simp] theorem State.startDerive_root (s : State) : (s.startDerive).root = s.root := rfl
@[simp] theorem State.startDerive_code (s : State) : (s.startDerive).code = s.code := rfl
@[simp] theorem State.startDerive_cur (s : State) : (s.startDerive).cur = s.cur := rfl
@[simp] theorem State.startDerive_inPos (s : State) : (s.startDerive).inPos = s.inPos := rfl
@[simp] theorem State.startDerive_pend (s : State) : (s.startDerive).pend = s.pend := rfl
@[simp] theorem State.startDerive_outPos (s : State) : (s.startDerive).outPos = s.outPos := rfl
@[simp] theorem State.startDerive_inBytes (s : State) : (s.startDerive).inBytes = s.inBytes := rfl
@[simp] theorem State.startDerive_outBytes (s : State) : (s.startDerive).outBytes = s.outBytes := rfl
@[simp] theorem State.startDerive_outCloses (s : State) : (s.startDerive).outCloses = s.outCloses := rfl
@[simp] theorem State.startDerive_magic (s : State) : (s.startDerive).magic = s.magic := rfl
@[simp] theorem State.startDerive_hufBase (s : State) : (s.startDerive).hufBase = s.hufBase := rfl
@[simp] theorem State.startDerive_turns (s : State) : (s.startDerive).turns = s.turns := rfl
@[simp] theorem State.startDerive_busLog (s : State) : (s.startDerive).busLog = s.busLog := rfl
@[simp] theorem State.startDerive_draws (s : State) : (s.startDerive).draws = s.draws := rfl

/-! bumpFreq -/

@[simp] theorem State.bumpFreq_irqEn (v : Sym) (s : State) : (s.bumpFreq v).irqEn = s.irqEn := rfl
@[simp] theorem State.bumpFreq_busy (v : Sym) (s : State) : (s.bumpFreq v).busy = s.busy := rfl
@[simp] theorem State.bumpFreq_pending (v : Sym) (s : State) : (s.bumpFreq v).pending = s.pending := rfl
@[simp] theorem State.bumpFreq_done (v : Sym) (s : State) : (s.bumpFreq v).done = s.done := rfl
@[simp] theorem State.bumpFreq_err (v : Sym) (s : State) : (s.bumpFreq v).err = s.err := rfl
@[simp] theorem State.bumpFreq_freqValid (v : Sym) (s : State) : (s.bumpFreq v).freqValid = s.freqValid := rfl
@[simp] theorem State.bumpFreq_treeValid (v : Sym) (s : State) : (s.bumpFreq v).treeValid = s.treeValid := rfl
@[simp] theorem State.bumpFreq_codesValid (v : Sym) (s : State) : (s.bumpFreq v).codesValid = s.codesValid := rfl
@[simp] theorem State.bumpFreq_treeSrc (v : Sym) (s : State) : (s.bumpFreq v).treeSrc = s.treeSrc := rfl
@[simp] theorem State.bumpFreq_outClosed (v : Sym) (s : State) : (s.bumpFreq v).outClosed = s.outClosed := rfl
@[simp] theorem State.bumpFreq_cmdRej (v : Sym) (s : State) : (s.bumpFreq v).cmdRej = s.cmdRej := rfl
@[simp] theorem State.bumpFreq_error (v : Sym) (s : State) : (s.bumpFreq v).error = s.error := rfl
@[simp] theorem State.bumpFreq_freq (v : Sym) (s : State) : (s.bumpFreq v).freq = s.freq.set v (s.freq[v] + 1) := rfl
@[simp] theorem State.bumpFreq_freqTotal (v : Sym) (s : State) : (s.bumpFreq v).freqTotal = s.freqTotal := rfl
@[simp] theorem State.bumpFreq_node (v : Sym) (s : State) : (s.bumpFreq v).node = s.node := rfl
@[simp] theorem State.bumpFreq_nodeCount (v : Sym) (s : State) : (s.bumpFreq v).nodeCount = s.nodeCount := rfl
@[simp] theorem State.bumpFreq_root (v : Sym) (s : State) : (s.bumpFreq v).root = s.root := rfl
@[simp] theorem State.bumpFreq_code (v : Sym) (s : State) : (s.bumpFreq v).code = s.code := rfl
@[simp] theorem State.bumpFreq_cur (v : Sym) (s : State) : (s.bumpFreq v).cur = s.cur := rfl
@[simp] theorem State.bumpFreq_inPos (v : Sym) (s : State) : (s.bumpFreq v).inPos = s.inPos := rfl
@[simp] theorem State.bumpFreq_pend (v : Sym) (s : State) : (s.bumpFreq v).pend = s.pend := rfl
@[simp] theorem State.bumpFreq_outPos (v : Sym) (s : State) : (s.bumpFreq v).outPos = s.outPos := rfl
@[simp] theorem State.bumpFreq_inBytes (v : Sym) (s : State) : (s.bumpFreq v).inBytes = s.inBytes := rfl
@[simp] theorem State.bumpFreq_outBytes (v : Sym) (s : State) : (s.bumpFreq v).outBytes = s.outBytes := rfl
@[simp] theorem State.bumpFreq_outCloses (v : Sym) (s : State) : (s.bumpFreq v).outCloses = s.outCloses := rfl
@[simp] theorem State.bumpFreq_magic (v : Sym) (s : State) : (s.bumpFreq v).magic = s.magic := rfl
@[simp] theorem State.bumpFreq_hufBase (v : Sym) (s : State) : (s.bumpFreq v).hufBase = s.hufBase := rfl
@[simp] theorem State.bumpFreq_turns (v : Sym) (s : State) : (s.bumpFreq v).turns = s.turns := rfl
@[simp] theorem State.bumpFreq_busLog (v : Sym) (s : State) : (s.bumpFreq v).busLog = s.busLog := rfl
@[simp] theorem State.bumpFreq_draws (v : Sym) (s : State) : (s.bumpFreq v).draws = s.draws := rfl

/-! setNode -/

@[simp] theorem State.setNode_irqEn (n : Nat) (nd : Node) (s : State) : (s.setNode n nd).irqEn = s.irqEn := rfl
@[simp] theorem State.setNode_busy (n : Nat) (nd : Node) (s : State) : (s.setNode n nd).busy = s.busy := rfl
@[simp] theorem State.setNode_pending (n : Nat) (nd : Node) (s : State) : (s.setNode n nd).pending = s.pending := rfl
@[simp] theorem State.setNode_done (n : Nat) (nd : Node) (s : State) : (s.setNode n nd).done = s.done := rfl
@[simp] theorem State.setNode_err (n : Nat) (nd : Node) (s : State) : (s.setNode n nd).err = s.err := rfl
@[simp] theorem State.setNode_freqValid (n : Nat) (nd : Node) (s : State) : (s.setNode n nd).freqValid = s.freqValid := rfl
@[simp] theorem State.setNode_treeValid (n : Nat) (nd : Node) (s : State) : (s.setNode n nd).treeValid = s.treeValid := rfl
@[simp] theorem State.setNode_codesValid (n : Nat) (nd : Node) (s : State) : (s.setNode n nd).codesValid = s.codesValid := rfl
@[simp] theorem State.setNode_treeSrc (n : Nat) (nd : Node) (s : State) : (s.setNode n nd).treeSrc = s.treeSrc := rfl
@[simp] theorem State.setNode_outClosed (n : Nat) (nd : Node) (s : State) : (s.setNode n nd).outClosed = s.outClosed := rfl
@[simp] theorem State.setNode_cmdRej (n : Nat) (nd : Node) (s : State) : (s.setNode n nd).cmdRej = s.cmdRej := rfl
@[simp] theorem State.setNode_error (n : Nat) (nd : Node) (s : State) : (s.setNode n nd).error = s.error := rfl
@[simp] theorem State.setNode_freq (n : Nat) (nd : Node) (s : State) : (s.setNode n nd).freq = s.freq := rfl
@[simp] theorem State.setNode_freqTotal (n : Nat) (nd : Node) (s : State) : (s.setNode n nd).freqTotal = s.freqTotal := rfl
@[simp] theorem State.setNode_node (n : Nat) (nd : Node) (s : State) : (s.setNode n nd).node = s.node.setIfInBounds n nd := rfl
@[simp] theorem State.setNode_nodeCount (n : Nat) (nd : Node) (s : State) : (s.setNode n nd).nodeCount = s.nodeCount := rfl
@[simp] theorem State.setNode_root (n : Nat) (nd : Node) (s : State) : (s.setNode n nd).root = s.root := rfl
@[simp] theorem State.setNode_code (n : Nat) (nd : Node) (s : State) : (s.setNode n nd).code = s.code := rfl
@[simp] theorem State.setNode_cur (n : Nat) (nd : Node) (s : State) : (s.setNode n nd).cur = s.cur := rfl
@[simp] theorem State.setNode_inPos (n : Nat) (nd : Node) (s : State) : (s.setNode n nd).inPos = s.inPos := rfl
@[simp] theorem State.setNode_pend (n : Nat) (nd : Node) (s : State) : (s.setNode n nd).pend = s.pend := rfl
@[simp] theorem State.setNode_outPos (n : Nat) (nd : Node) (s : State) : (s.setNode n nd).outPos = s.outPos := rfl
@[simp] theorem State.setNode_inBytes (n : Nat) (nd : Node) (s : State) : (s.setNode n nd).inBytes = s.inBytes := rfl
@[simp] theorem State.setNode_outBytes (n : Nat) (nd : Node) (s : State) : (s.setNode n nd).outBytes = s.outBytes := rfl
@[simp] theorem State.setNode_outCloses (n : Nat) (nd : Node) (s : State) : (s.setNode n nd).outCloses = s.outCloses := rfl
@[simp] theorem State.setNode_magic (n : Nat) (nd : Node) (s : State) : (s.setNode n nd).magic = s.magic := rfl
@[simp] theorem State.setNode_hufBase (n : Nat) (nd : Node) (s : State) : (s.setNode n nd).hufBase = s.hufBase := rfl
@[simp] theorem State.setNode_turns (n : Nat) (nd : Node) (s : State) : (s.setNode n nd).turns = s.turns := rfl
@[simp] theorem State.setNode_busLog (n : Nat) (nd : Node) (s : State) : (s.setNode n nd).busLog = s.busLog := rfl
@[simp] theorem State.setNode_draws (n : Nat) (nd : Node) (s : State) : (s.setNode n nd).draws = s.draws := rfl

/-! allocNode -/

@[simp] theorem State.allocNode_irqEn (s : State) : (s.allocNode).irqEn = s.irqEn := rfl
@[simp] theorem State.allocNode_busy (s : State) : (s.allocNode).busy = s.busy := rfl
@[simp] theorem State.allocNode_pending (s : State) : (s.allocNode).pending = s.pending := rfl
@[simp] theorem State.allocNode_done (s : State) : (s.allocNode).done = s.done := rfl
@[simp] theorem State.allocNode_err (s : State) : (s.allocNode).err = s.err := rfl
@[simp] theorem State.allocNode_freqValid (s : State) : (s.allocNode).freqValid = s.freqValid := rfl
@[simp] theorem State.allocNode_treeValid (s : State) : (s.allocNode).treeValid = s.treeValid := rfl
@[simp] theorem State.allocNode_codesValid (s : State) : (s.allocNode).codesValid = s.codesValid := rfl
@[simp] theorem State.allocNode_treeSrc (s : State) : (s.allocNode).treeSrc = s.treeSrc := rfl
@[simp] theorem State.allocNode_outClosed (s : State) : (s.allocNode).outClosed = s.outClosed := rfl
@[simp] theorem State.allocNode_cmdRej (s : State) : (s.allocNode).cmdRej = s.cmdRej := rfl
@[simp] theorem State.allocNode_error (s : State) : (s.allocNode).error = s.error := rfl
@[simp] theorem State.allocNode_freq (s : State) : (s.allocNode).freq = s.freq := rfl
@[simp] theorem State.allocNode_freqTotal (s : State) : (s.allocNode).freqTotal = s.freqTotal := rfl
@[simp] theorem State.allocNode_node (s : State) : (s.allocNode).node = s.node := rfl
@[simp] theorem State.allocNode_nodeCount (s : State) : (s.allocNode).nodeCount = s.nodeCount + 1 := rfl
@[simp] theorem State.allocNode_root (s : State) : (s.allocNode).root = s.root := rfl
@[simp] theorem State.allocNode_code (s : State) : (s.allocNode).code = s.code := rfl
@[simp] theorem State.allocNode_cur (s : State) : (s.allocNode).cur = s.cur := rfl
@[simp] theorem State.allocNode_inPos (s : State) : (s.allocNode).inPos = s.inPos := rfl
@[simp] theorem State.allocNode_pend (s : State) : (s.allocNode).pend = s.pend := rfl
@[simp] theorem State.allocNode_outPos (s : State) : (s.allocNode).outPos = s.outPos := rfl
@[simp] theorem State.allocNode_inBytes (s : State) : (s.allocNode).inBytes = s.inBytes := rfl
@[simp] theorem State.allocNode_outBytes (s : State) : (s.allocNode).outBytes = s.outBytes := rfl
@[simp] theorem State.allocNode_outCloses (s : State) : (s.allocNode).outCloses = s.outCloses := rfl
@[simp] theorem State.allocNode_magic (s : State) : (s.allocNode).magic = s.magic := rfl
@[simp] theorem State.allocNode_hufBase (s : State) : (s.allocNode).hufBase = s.hufBase := rfl
@[simp] theorem State.allocNode_turns (s : State) : (s.allocNode).turns = s.turns := rfl
@[simp] theorem State.allocNode_busLog (s : State) : (s.allocNode).busLog = s.busLog := rfl
@[simp] theorem State.allocNode_draws (s : State) : (s.allocNode).draws = s.draws := rfl

/-! setIrqEn -/

@[simp] theorem State.setIrqEn_irqEn (w : Word) (s : State) : (s.setIrqEn w).irqEn = w.getLsbD 1 := rfl
@[simp] theorem State.setIrqEn_busy (w : Word) (s : State) : (s.setIrqEn w).busy = s.busy := rfl
@[simp] theorem State.setIrqEn_pending (w : Word) (s : State) : (s.setIrqEn w).pending = s.pending := rfl
@[simp] theorem State.setIrqEn_done (w : Word) (s : State) : (s.setIrqEn w).done = s.done := rfl
@[simp] theorem State.setIrqEn_err (w : Word) (s : State) : (s.setIrqEn w).err = s.err := rfl
@[simp] theorem State.setIrqEn_freqValid (w : Word) (s : State) : (s.setIrqEn w).freqValid = s.freqValid := rfl
@[simp] theorem State.setIrqEn_treeValid (w : Word) (s : State) : (s.setIrqEn w).treeValid = s.treeValid := rfl
@[simp] theorem State.setIrqEn_codesValid (w : Word) (s : State) : (s.setIrqEn w).codesValid = s.codesValid := rfl
@[simp] theorem State.setIrqEn_treeSrc (w : Word) (s : State) : (s.setIrqEn w).treeSrc = s.treeSrc := rfl
@[simp] theorem State.setIrqEn_outClosed (w : Word) (s : State) : (s.setIrqEn w).outClosed = s.outClosed := rfl
@[simp] theorem State.setIrqEn_cmdRej (w : Word) (s : State) : (s.setIrqEn w).cmdRej = s.cmdRej := rfl
@[simp] theorem State.setIrqEn_error (w : Word) (s : State) : (s.setIrqEn w).error = s.error := rfl
@[simp] theorem State.setIrqEn_freq (w : Word) (s : State) : (s.setIrqEn w).freq = s.freq := rfl
@[simp] theorem State.setIrqEn_freqTotal (w : Word) (s : State) : (s.setIrqEn w).freqTotal = s.freqTotal := rfl
@[simp] theorem State.setIrqEn_node (w : Word) (s : State) : (s.setIrqEn w).node = s.node := rfl
@[simp] theorem State.setIrqEn_nodeCount (w : Word) (s : State) : (s.setIrqEn w).nodeCount = s.nodeCount := rfl
@[simp] theorem State.setIrqEn_root (w : Word) (s : State) : (s.setIrqEn w).root = s.root := rfl
@[simp] theorem State.setIrqEn_code (w : Word) (s : State) : (s.setIrqEn w).code = s.code := rfl
@[simp] theorem State.setIrqEn_cur (w : Word) (s : State) : (s.setIrqEn w).cur = s.cur := rfl
@[simp] theorem State.setIrqEn_inPos (w : Word) (s : State) : (s.setIrqEn w).inPos = s.inPos := rfl
@[simp] theorem State.setIrqEn_pend (w : Word) (s : State) : (s.setIrqEn w).pend = s.pend := rfl
@[simp] theorem State.setIrqEn_outPos (w : Word) (s : State) : (s.setIrqEn w).outPos = s.outPos := rfl
@[simp] theorem State.setIrqEn_inBytes (w : Word) (s : State) : (s.setIrqEn w).inBytes = s.inBytes := rfl
@[simp] theorem State.setIrqEn_outBytes (w : Word) (s : State) : (s.setIrqEn w).outBytes = s.outBytes := rfl
@[simp] theorem State.setIrqEn_outCloses (w : Word) (s : State) : (s.setIrqEn w).outCloses = s.outCloses := rfl
@[simp] theorem State.setIrqEn_magic (w : Word) (s : State) : (s.setIrqEn w).magic = s.magic := rfl
@[simp] theorem State.setIrqEn_hufBase (w : Word) (s : State) : (s.setIrqEn w).hufBase = s.hufBase := rfl
@[simp] theorem State.setIrqEn_turns (w : Word) (s : State) : (s.setIrqEn w).turns = s.turns := rfl
@[simp] theorem State.setIrqEn_busLog (w : Word) (s : State) : (s.setIrqEn w).busLog = s.busLog := rfl
@[simp] theorem State.setIrqEn_draws (w : Word) (s : State) : (s.setIrqEn w).draws = s.draws := rfl

/-! ackStatus -/

@[simp] theorem State.ackStatus_irqEn (w : Word) (s : State) : (s.ackStatus w).irqEn = s.irqEn := rfl
@[simp] theorem State.ackStatus_busy (w : Word) (s : State) : (s.ackStatus w).busy = s.busy := rfl
@[simp] theorem State.ackStatus_pending (w : Word) (s : State) : (s.ackStatus w).pending = s.pending := rfl
@[simp] theorem State.ackStatus_done (w : Word) (s : State) : (s.ackStatus w).done = (s.done && !w.getLsbD 1) := rfl
@[simp] theorem State.ackStatus_err (w : Word) (s : State) : (s.ackStatus w).err = s.err := rfl
@[simp] theorem State.ackStatus_freqValid (w : Word) (s : State) : (s.ackStatus w).freqValid = s.freqValid := rfl
@[simp] theorem State.ackStatus_treeValid (w : Word) (s : State) : (s.ackStatus w).treeValid = s.treeValid := rfl
@[simp] theorem State.ackStatus_codesValid (w : Word) (s : State) : (s.ackStatus w).codesValid = s.codesValid := rfl
@[simp] theorem State.ackStatus_treeSrc (w : Word) (s : State) : (s.ackStatus w).treeSrc = s.treeSrc := rfl
@[simp] theorem State.ackStatus_outClosed (w : Word) (s : State) : (s.ackStatus w).outClosed = s.outClosed := rfl
@[simp] theorem State.ackStatus_cmdRej (w : Word) (s : State) : (s.ackStatus w).cmdRej = (s.cmdRej && !w.getLsbD 8) := rfl
@[simp] theorem State.ackStatus_error (w : Word) (s : State) : (s.ackStatus w).error = s.error := rfl
@[simp] theorem State.ackStatus_freq (w : Word) (s : State) : (s.ackStatus w).freq = s.freq := rfl
@[simp] theorem State.ackStatus_freqTotal (w : Word) (s : State) : (s.ackStatus w).freqTotal = s.freqTotal := rfl
@[simp] theorem State.ackStatus_node (w : Word) (s : State) : (s.ackStatus w).node = s.node := rfl
@[simp] theorem State.ackStatus_nodeCount (w : Word) (s : State) : (s.ackStatus w).nodeCount = s.nodeCount := rfl
@[simp] theorem State.ackStatus_root (w : Word) (s : State) : (s.ackStatus w).root = s.root := rfl
@[simp] theorem State.ackStatus_code (w : Word) (s : State) : (s.ackStatus w).code = s.code := rfl
@[simp] theorem State.ackStatus_cur (w : Word) (s : State) : (s.ackStatus w).cur = s.cur := rfl
@[simp] theorem State.ackStatus_inPos (w : Word) (s : State) : (s.ackStatus w).inPos = s.inPos := rfl
@[simp] theorem State.ackStatus_pend (w : Word) (s : State) : (s.ackStatus w).pend = s.pend := rfl
@[simp] theorem State.ackStatus_outPos (w : Word) (s : State) : (s.ackStatus w).outPos = s.outPos := rfl
@[simp] theorem State.ackStatus_inBytes (w : Word) (s : State) : (s.ackStatus w).inBytes = s.inBytes := rfl
@[simp] theorem State.ackStatus_outBytes (w : Word) (s : State) : (s.ackStatus w).outBytes = s.outBytes := rfl
@[simp] theorem State.ackStatus_outCloses (w : Word) (s : State) : (s.ackStatus w).outCloses = s.outCloses := rfl
@[simp] theorem State.ackStatus_magic (w : Word) (s : State) : (s.ackStatus w).magic = s.magic := rfl
@[simp] theorem State.ackStatus_hufBase (w : Word) (s : State) : (s.ackStatus w).hufBase = s.hufBase := rfl
@[simp] theorem State.ackStatus_turns (w : Word) (s : State) : (s.ackStatus w).turns = s.turns := rfl
@[simp] theorem State.ackStatus_busLog (w : Word) (s : State) : (s.ackStatus w).busLog = s.busLog := rfl
@[simp] theorem State.ackStatus_draws (w : Word) (s : State) : (s.ackStatus w).draws = s.draws := rfl

/-! respond -/

@[simp] theorem State.respond_irqEn (d : Word) (x : Bool) (s : State) : (s.respond d x).irqEn = s.irqEn := rfl
@[simp] theorem State.respond_busy (d : Word) (x : Bool) (s : State) : (s.respond d x).busy = s.busy := rfl
@[simp] theorem State.respond_pending (d : Word) (x : Bool) (s : State) : (s.respond d x).pending = s.pending := rfl
@[simp] theorem State.respond_done (d : Word) (x : Bool) (s : State) : (s.respond d x).done = s.done := rfl
@[simp] theorem State.respond_err (d : Word) (x : Bool) (s : State) : (s.respond d x).err = s.err := rfl
@[simp] theorem State.respond_freqValid (d : Word) (x : Bool) (s : State) : (s.respond d x).freqValid = s.freqValid := rfl
@[simp] theorem State.respond_treeValid (d : Word) (x : Bool) (s : State) : (s.respond d x).treeValid = s.treeValid := rfl
@[simp] theorem State.respond_codesValid (d : Word) (x : Bool) (s : State) : (s.respond d x).codesValid = s.codesValid := rfl
@[simp] theorem State.respond_treeSrc (d : Word) (x : Bool) (s : State) : (s.respond d x).treeSrc = s.treeSrc := rfl
@[simp] theorem State.respond_outClosed (d : Word) (x : Bool) (s : State) : (s.respond d x).outClosed = s.outClosed := rfl
@[simp] theorem State.respond_cmdRej (d : Word) (x : Bool) (s : State) : (s.respond d x).cmdRej = s.cmdRej := rfl
@[simp] theorem State.respond_error (d : Word) (x : Bool) (s : State) : (s.respond d x).error = s.error := rfl
@[simp] theorem State.respond_freq (d : Word) (x : Bool) (s : State) : (s.respond d x).freq = s.freq := rfl
@[simp] theorem State.respond_freqTotal (d : Word) (x : Bool) (s : State) : (s.respond d x).freqTotal = s.freqTotal := rfl
@[simp] theorem State.respond_node (d : Word) (x : Bool) (s : State) : (s.respond d x).node = s.node := rfl
@[simp] theorem State.respond_nodeCount (d : Word) (x : Bool) (s : State) : (s.respond d x).nodeCount = s.nodeCount := rfl
@[simp] theorem State.respond_root (d : Word) (x : Bool) (s : State) : (s.respond d x).root = s.root := rfl
@[simp] theorem State.respond_code (d : Word) (x : Bool) (s : State) : (s.respond d x).code = s.code := rfl
@[simp] theorem State.respond_cur (d : Word) (x : Bool) (s : State) : (s.respond d x).cur = s.cur := rfl
@[simp] theorem State.respond_inPos (d : Word) (x : Bool) (s : State) : (s.respond d x).inPos = s.inPos := rfl
@[simp] theorem State.respond_pend (d : Word) (x : Bool) (s : State) : (s.respond d x).pend = s.pend := rfl
@[simp] theorem State.respond_outPos (d : Word) (x : Bool) (s : State) : (s.respond d x).outPos = s.outPos := rfl
@[simp] theorem State.respond_inBytes (d : Word) (x : Bool) (s : State) : (s.respond d x).inBytes = s.inBytes := rfl
@[simp] theorem State.respond_outBytes (d : Word) (x : Bool) (s : State) : (s.respond d x).outBytes = s.outBytes := rfl
@[simp] theorem State.respond_outCloses (d : Word) (x : Bool) (s : State) : (s.respond d x).outCloses = s.outCloses := rfl
@[simp] theorem State.respond_magic (d : Word) (x : Bool) (s : State) : (s.respond d x).magic = s.magic := rfl
@[simp] theorem State.respond_hufBase (d : Word) (x : Bool) (s : State) : (s.respond d x).hufBase = s.hufBase := rfl
@[simp] theorem State.respond_turns (d : Word) (x : Bool) (s : State) : (s.respond d x).turns = s.turns := rfl
@[simp] theorem State.respond_busLog (d : Word) (x : Bool) (s : State) : (s.respond d x).busLog = { data := d, error := x } :: s.busLog := rfl
@[simp] theorem State.respond_draws (d : Word) (x : Bool) (s : State) : (s.respond d x).draws = s.draws := rfl

/-! toReset: the environment, the parameters and the model's own fields stay (R220). -/

@[simp] theorem State.toReset_irqEn (s : State) : s.toReset.irqEn = State.reset.irqEn := rfl
@[simp] theorem State.toReset_busy (s : State) : s.toReset.busy = State.reset.busy := rfl
@[simp] theorem State.toReset_pending (s : State) : s.toReset.pending = State.reset.pending := rfl
@[simp] theorem State.toReset_done (s : State) : s.toReset.done = State.reset.done := rfl
@[simp] theorem State.toReset_err (s : State) : s.toReset.err = State.reset.err := rfl
@[simp] theorem State.toReset_freqValid (s : State) : s.toReset.freqValid = State.reset.freqValid := rfl
@[simp] theorem State.toReset_treeValid (s : State) : s.toReset.treeValid = State.reset.treeValid := rfl
@[simp] theorem State.toReset_codesValid (s : State) : s.toReset.codesValid = State.reset.codesValid := rfl
@[simp] theorem State.toReset_treeSrc (s : State) : s.toReset.treeSrc = State.reset.treeSrc := rfl
@[simp] theorem State.toReset_outClosed (s : State) : s.toReset.outClosed = State.reset.outClosed := rfl
@[simp] theorem State.toReset_cmdRej (s : State) : s.toReset.cmdRej = State.reset.cmdRej := rfl
@[simp] theorem State.toReset_error (s : State) : s.toReset.error = State.reset.error := rfl
@[simp] theorem State.toReset_freq (s : State) : s.toReset.freq = State.reset.freq := rfl
@[simp] theorem State.toReset_freqTotal (s : State) : s.toReset.freqTotal = State.reset.freqTotal := rfl
@[simp] theorem State.toReset_node (s : State) : s.toReset.node = State.reset.node := rfl
@[simp] theorem State.toReset_nodeCount (s : State) : s.toReset.nodeCount = State.reset.nodeCount := rfl
@[simp] theorem State.toReset_root (s : State) : s.toReset.root = State.reset.root := rfl
@[simp] theorem State.toReset_code (s : State) : s.toReset.code = State.reset.code := rfl
@[simp] theorem State.toReset_cur (s : State) : s.toReset.cur = State.reset.cur := rfl
@[simp] theorem State.toReset_inPos (s : State) : s.toReset.inPos = State.reset.inPos := rfl
@[simp] theorem State.toReset_pend (s : State) : s.toReset.pend = State.reset.pend := rfl
@[simp] theorem State.toReset_outPos (s : State) : s.toReset.outPos = State.reset.outPos := rfl
@[simp] theorem State.toReset_inBytes (s : State) : s.toReset.inBytes = s.inBytes := rfl
@[simp] theorem State.toReset_outBytes (s : State) : s.toReset.outBytes = s.outBytes := rfl
@[simp] theorem State.toReset_outCloses (s : State) : s.toReset.outCloses = s.outCloses := rfl
@[simp] theorem State.toReset_magic (s : State) : s.toReset.magic = s.magic := rfl
@[simp] theorem State.toReset_hufBase (s : State) : s.toReset.hufBase = s.hufBase := rfl
@[simp] theorem State.toReset_turns (s : State) : s.toReset.turns = s.turns := rfl
@[simp] theorem State.toReset_busLog (s : State) : s.toReset.busLog = s.busLog := rfl
@[simp] theorem State.toReset_draws (s : State) : s.toReset.draws = s.draws := rfl

/-! cancelOutput writes only the output, its closes and the draw counter (R222). -/

@[simp] theorem State.cancelOutput_irqEn (t s : State) : (State.cancelOutput t s).irqEn = s.irqEn := rfl
@[simp] theorem State.cancelOutput_busy (t s : State) : (State.cancelOutput t s).busy = s.busy := rfl
@[simp] theorem State.cancelOutput_pending (t s : State) : (State.cancelOutput t s).pending = s.pending := rfl
@[simp] theorem State.cancelOutput_done (t s : State) : (State.cancelOutput t s).done = s.done := rfl
@[simp] theorem State.cancelOutput_err (t s : State) : (State.cancelOutput t s).err = s.err := rfl
@[simp] theorem State.cancelOutput_freqValid (t s : State) : (State.cancelOutput t s).freqValid = s.freqValid := rfl
@[simp] theorem State.cancelOutput_treeValid (t s : State) : (State.cancelOutput t s).treeValid = s.treeValid := rfl
@[simp] theorem State.cancelOutput_codesValid (t s : State) : (State.cancelOutput t s).codesValid = s.codesValid := rfl
@[simp] theorem State.cancelOutput_treeSrc (t s : State) : (State.cancelOutput t s).treeSrc = s.treeSrc := rfl
@[simp] theorem State.cancelOutput_outClosed (t s : State) : (State.cancelOutput t s).outClosed = s.outClosed := rfl
@[simp] theorem State.cancelOutput_cmdRej (t s : State) : (State.cancelOutput t s).cmdRej = s.cmdRej := rfl
@[simp] theorem State.cancelOutput_error (t s : State) : (State.cancelOutput t s).error = s.error := rfl
@[simp] theorem State.cancelOutput_freq (t s : State) : (State.cancelOutput t s).freq = s.freq := rfl
@[simp] theorem State.cancelOutput_freqTotal (t s : State) : (State.cancelOutput t s).freqTotal = s.freqTotal := rfl
@[simp] theorem State.cancelOutput_node (t s : State) : (State.cancelOutput t s).node = s.node := rfl
@[simp] theorem State.cancelOutput_nodeCount (t s : State) : (State.cancelOutput t s).nodeCount = s.nodeCount := rfl
@[simp] theorem State.cancelOutput_root (t s : State) : (State.cancelOutput t s).root = s.root := rfl
@[simp] theorem State.cancelOutput_code (t s : State) : (State.cancelOutput t s).code = s.code := rfl
@[simp] theorem State.cancelOutput_cur (t s : State) : (State.cancelOutput t s).cur = s.cur := rfl
@[simp] theorem State.cancelOutput_inPos (t s : State) : (State.cancelOutput t s).inPos = s.inPos := rfl
@[simp] theorem State.cancelOutput_pend (t s : State) : (State.cancelOutput t s).pend = s.pend := rfl
@[simp] theorem State.cancelOutput_outPos (t s : State) : (State.cancelOutput t s).outPos = s.outPos := rfl
@[simp] theorem State.cancelOutput_inBytes (t s : State) : (State.cancelOutput t s).inBytes = s.inBytes := rfl
@[simp] theorem State.cancelOutput_magic (t s : State) : (State.cancelOutput t s).magic = s.magic := rfl
@[simp] theorem State.cancelOutput_hufBase (t s : State) : (State.cancelOutput t s).hufBase = s.hufBase := rfl
@[simp] theorem State.cancelOutput_turns (t s : State) : (State.cancelOutput t s).turns = s.turns := rfl
@[simp] theorem State.cancelOutput_busLog (t s : State) : (State.cancelOutput t s).busLog = s.busLog := rfl
@[simp] theorem State.cancelOutput_draws (t s : State) : (State.cancelOutput t s).draws = s.draws + 1 := rfl

end Sys2Proof.Machine
end

