-- ==== Sys2Proof/Laws/Bits.lean ====
section
/-! SUPPORT. Bit strings and numbers are inverse to each other (R12), and the input's bits are its bytes' bits (R61). -/

namespace Sys2Proof.Machine

theorem uint_foldl (c : BitStr) (a : Nat) :
    c.foldl (fun a b => 2 * a + b.toNat) a = a * 2 ^ c.length + uint c := by
  induction c generalizing a with
  | nil => simp [uint]
  | cons b c ih =>
    simp only [List.foldl_cons, List.length_cons, uint, ih (2 * a + b.toNat), ih (2 * 0 + b.toNat)]
    ring

@[simp] theorem uint_nil : uint [] = 0 := rfl

theorem uint_cons (b : Bool) (c : BitStr) : uint (b :: c) = b.toNat * 2 ^ c.length + uint c := by
  have h := uint_foldl c (2 * 0 + b.toNat)
  simpa [uint] using h

theorem uint_append (c d : BitStr) : uint (c ++ d) = uint c * 2 ^ d.length + uint d := by
  simp only [uint, List.foldl_append]
  rw [uint_foldl d]
  rfl

theorem uint_lt (c : BitStr) : uint c < 2 ^ c.length := by
  induction c with
  | nil => simp
  | cons b c ih =>
    rw [uint_cons, List.length_cons, pow_succ]
    cases b <;> simp <;> omega

@[simp] theorem bitsOf_length (n v : Nat) : (bitsOf n v).length = n := by
  induction n with
  | zero => rfl
  | succ n ih => simp [bitsOf, ih]

theorem uint_bitsOf (n v : Nat) : uint (bitsOf n v) = v % 2 ^ n := by
  induction n with
  | zero => simp [bitsOf, Nat.mod_one]
  | succ n ih =>
    rw [bitsOf, uint_cons, ih, bitsOf_length, Nat.toNat_testBit, Nat.mod_pow_succ]
    ring

theorem bitsOf_mod (n v : Nat) : bitsOf n (v % 2 ^ n) = bitsOf n v := by
  suffices h : ∀ m, n ≤ m → bitsOf n (v % 2 ^ m) = bitsOf n v from h n le_rfl
  induction n with
  | zero => intro m _; rfl
  | succ n ih =>
    intro m hm
    rw [bitsOf, bitsOf, ih m (by omega), Nat.testBit_mod_two_pow]
    simp [show n < m by omega]

theorem bitsOf_uint (c : BitStr) : bitsOf c.length (uint c) = c := by
  induction c with
  | nil => rfl
  | cons b c ih =>
    have hlt := uint_lt c
    have hb : (uint (b :: c)).testBit c.length = b := by
      rw [uint_cons, Nat.testBit_eq_decide_div_mod_eq, Nat.mul_comm,
        Nat.mul_add_div (by positivity), Nat.div_eq_of_lt hlt]
      cases b <;> simp
    have hm : uint (b :: c) % 2 ^ c.length = uint c := by
      rw [uint_cons, Nat.mul_comm, Nat.mul_add_mod, Nat.mod_eq_of_lt hlt]
    rw [List.length_cons, bitsOf, hb, ← bitsOf_mod, hm, ih]

/-- A bit string of length n is the bits of its value. -/
theorem bitsOf_uint_of_length {n : Nat} {c : BitStr} (h : c.length = n) : bitsOf n (uint c) = c := by
  subst h; exact bitsOf_uint c

@[simp] theorem bytesBits_nil : bytesBits [] = [] := rfl

@[simp] theorem bytesBits_append (a b : List Byte) : bytesBits (a ++ b) = bytesBits a ++ bytesBits b := by
  simp [bytesBits]

theorem bytesBits_cons (a : Byte) (b : List Byte) : bytesBits (a :: b) = bitsOf 8 a.toNat ++ bytesBits b := by
  simp [bytesBits]

@[simp] theorem bytesBits_length (a : List Byte) : (bytesBits a).length = 8 * a.length := by
  induction a with
  | nil => rfl
  | cons b a ih => simp [bytesBits_cons, ih]; omega

theorem bitsOf_getElem? (n v k : Nat) (h : k < n) : (bitsOf n v)[k]? = some (v.testBit (n - 1 - k)) := by
  induction n generalizing k with
  | zero => omega
  | succ n ih =>
    cases k with
    | zero => simp [bitsOf]
    | succ k => rw [bitsOf, List.getElem?_cons_succ, ih k (by omega)]; congr 2; omega

/-- R61: bit k of the stream is the k-th of its bytes' bits. -/
theorem bytesBits_getElem? (bytes : List Byte) (k : Nat) (h : k < 8 * bytes.length) :
    (bytesBits bytes)[k]? = some (streamBit bytes k) := by
  induction bytes generalizing k with
  | nil => simp at h
  | cons b bs ih =>
    rw [bytesBits_cons]
    by_cases hk : k < 8
    · rw [List.getElem?_append_left (by simpa using hk), bitsOf_getElem? _ _ _ hk]
      simp only [streamBit, show k / 8 = 0 by omega, show k % 8 = k by omega, List.getElem?_cons_zero]
      rfl
    · rw [List.getElem?_append_right (by simpa using hk)]
      simp only [bitsOf_length]
      rw [ih (k - 8) (by simp only [List.length_cons] at h; omega)]
      obtain ⟨m, hm⟩ : ∃ m, k / 8 = m + 1 := ⟨k / 8 - 1, by omega⟩
      simp only [streamBit, hm, List.getElem?_cons_succ, show (k - 8) / 8 = m by omega,
        show (k - 8) % 8 = k % 8 by omega]

/-- The field ReadBits reads is the part of the stream's bits at the cursor (R61, R62). -/
theorem streamField_eq (bytes : List Byte) (pos n : Nat) (h : pos + n ≤ 8 * bytes.length) :
    streamField bytes pos n = ((bytesBits bytes).drop pos).take n := by
  apply List.ext_getElem?
  intro i
  by_cases hi : i < n
  · rw [List.getElem?_take_of_lt hi, List.getElem?_drop, bytesBits_getElem? _ _ (by omega)]
    simp [streamField, hi]
  · rw [List.getElem?_eq_none (by simp [streamField]; omega), List.getElem?_eq_none]
    simp only [List.length_take]
    omega

end Sys2Proof.Machine
end

