-- ==== Sys2Proof/Laws/Tree.lean ====
section
/-! SUPPORT. The tree in the node store: when treeAt answers it, its sizes, its paths, and the code table a walk leaves. -/

namespace Sys2Proof.Machine

/-! Trees and the node store. -/

/-- The index of a tree's root. -/
def Tree.index : Tree → Nat
  | .leaf n _ => n
  | .node n _ _ => n

/-- The number of nodes on a tree's longest path. -/
def Tree.height : Tree → Nat
  | .leaf _ _ => 1
  | .node _ l r => max l.height r.height + 1

/-- The node store holds the tree. -/
def Tree.stored (nodes : NodeStore) : Tree → Prop
  | .leaf n v => ∃ nd, nodes[n]? = some nd ∧ nd.kind = .leaf ∧ symOfField nd.sym = some v
  | .node n l r =>
    (∃ nd, nodes[n]? = some nd ∧ nd.kind = .internal ∧ nd.left.toNat = l.index ∧ nd.right.toNat = r.index) ∧
      l.stored nodes ∧ r.stored nodes

theorem Tree.height_pos (t : Tree) : 0 < t.height := by cases t <;> simp [Tree.height]

/-- When treeAt answers a tree: it is the one the store holds at the index, and the fuel covers its height. -/
theorem treeAt_ok_iff {nodes : NodeStore} {fuel n : Nat} {t : Tree} :
    treeAt nodes fuel n = .ok t ↔ t.index = n ∧ t.stored nodes ∧ t.height ≤ fuel := by
  induction t generalizing fuel n with
  | leaf i v =>
    cases fuel with
    | zero => simp [treeAt, Tree.height]
    | succ fuel =>
      simp only [treeAt, Tree.index, Tree.stored, Tree.height]
      constructor
      · intro h
        split at h
        · cases h
        · rename_i nd hnd
          split at h
          · split at h <;> cases h
            exact ⟨rfl, ⟨nd, hnd, by assumption, by assumption⟩, by omega⟩
          · split at h
            · cases h
            · split at h <;> cases h
      · rintro ⟨rfl, ⟨nd, h1, h2, h3⟩, -⟩
        simp [h1, h2, h3]
  | node i l r ihl ihr =>
    cases fuel with
    | zero => simp [treeAt, Tree.height]
    | succ fuel =>
      simp only [treeAt, Tree.index, Tree.stored, Tree.height]
      constructor
      · intro h
        split at h
        · cases h
        · rename_i nd hnd
          split at h
          · split at h <;> cases h
          · split at h
            · cases h
            · rename_i l' hl
              split at h
              · cases h
              · rename_i r' hr
                cases h
                have h1 := ihl.mp hl
                have h2 := ihr.mp hr
                exact ⟨rfl, ⟨⟨nd, hnd, by assumption, h1.1.symm, h2.1.symm⟩, h1.2.1, h2.2.1⟩, by omega⟩
      · rintro ⟨rfl, ⟨⟨nd, h1, h2, h3, h4⟩, hl, hr⟩, hh⟩
        have e1 := (ihl (fuel := fuel) (n := nd.left.toNat)).mpr ⟨h3.symm, hl, by omega⟩
        have e2 := (ihr (fuel := fuel) (n := nd.right.toNat)).mpr ⟨h4.symm, hr, by omega⟩
        simp [h1, h2, e1, e2]

theorem Tree.stored_congr {nodes nodes' : NodeStore} {t : Tree} (h : ∀ i ∈ t.indices, nodes'[i]? = nodes[i]?) :
    t.stored nodes → t.stored nodes' := by
  induction t with
  | leaf i v =>
    simp only [Tree.stored, h i (by simp [Tree.indices])]
    exact id
  | node i l r ihl ihr =>
    simp only [Tree.stored, h i (by simp [Tree.indices])]
    rintro ⟨h1, h2, h3⟩
    exact ⟨h1, ihl (fun j hj => h j (by simp [Tree.indices, hj])) h2, ihr (fun j hj => h j (by simp [Tree.indices, hj])) h3⟩

theorem Tree.index_mem (t : Tree) : t.index ∈ t.indices := by cases t <;> simp [Tree.index, Tree.indices]

theorem Tree.leafCount_pos (t : Tree) : 0 < t.leafCount := by
  induction t with
  | leaf i v => simp [Tree.leafCount]
  | node i l r ihl ihr => simp only [Tree.leafCount]; omega

/-- A tree of L leaves has 2 L - 1 nodes (R119). -/
theorem Tree.indices_length (t : Tree) : t.indices.length + 1 = 2 * t.leafCount := by
  induction t with
  | leaf i v => simp [Tree.indices, Tree.leafCount]
  | node i l r ihl ihr => simp only [Tree.indices, Tree.leafCount, List.length_cons, List.length_append]; omega

theorem Tree.height_le (t : Tree) : t.height ≤ t.leafCount := by
  induction t with
  | leaf i v => simp [Tree.height, Tree.leafCount]
  | node i l r ihl ihr =>
    simp only [Tree.height, Tree.leafCount]
    have := l.leafCount_pos
    have := r.leafCount_pos
    omega

/-- Any tree of at most NODE_CAP nodes that the store holds is what treeAt answers (R10). -/
theorem treeAt_of_stored {nodes : NodeStore} {t : Tree} (h : t.stored nodes) (hc : t.indices.length ≤ Config.nodeCap) :
    treeAt nodes Config.nodeCap t.index = .ok t := by
  refine treeAt_ok_iff.mpr ⟨rfl, h, ?_⟩
  have := t.indices_length
  have := t.height_le
  have := t.leafCount_pos
  omega

/-- R87: the header of a tree of L leaves has 11 L - 1 bits. -/
theorem Tree.headerBits_length (t : Tree) : t.headerBits.length + 1 = 11 * t.leafCount := by
  induction t with
  | leaf i v =>
    have : ∀ n v, (bitsOf n v).length = n := by
      intro n v
      induction n with
      | zero => rfl
      | succ n ih => simp [bitsOf, ih]
    simp [Tree.headerBits, Tree.leafCount, this]
  | node i l r ihl ihr => simp only [Tree.headerBits, Tree.leafCount, List.length_cons, List.length_append]; omega

/-! Paths. -/

theorem Tree.paths_eq (t : Tree) (p : BitStr) : t.paths p = (t.paths []).map fun q => (q.1, p ++ q.2) := by
  induction t generalizing p with
  | leaf i v => simp [Tree.paths]
  | node i l r ihl ihr =>
    simp only [Tree.paths, List.nil_append, List.map_append]
    rw [ihl (p ++ [false]), ihr (p ++ [true]), ihl [false], ihr [true]]
    simp [List.map_map, Function.comp_def]

theorem Tree.mem_paths_node {i : Nat} {l r : Tree} {v : Sym} {q : BitStr} :
    (v, q) ∈ (Tree.node i l r).paths [] ↔
      (∃ q', q = false :: q' ∧ (v, q') ∈ l.paths []) ∨ ∃ q', q = true :: q' ∧ (v, q') ∈ r.paths [] := by
  simp only [Tree.paths, List.nil_append, List.mem_append]
  rw [l.paths_eq [false], r.paths_eq [true]]
  simp only [List.mem_map, Prod.mk.injEq, Prod.exists, List.cons_append, List.nil_append]
  constructor
  · rintro (⟨a, b, h, rfl, rfl⟩ | ⟨a, b, h, rfl, rfl⟩)
    · exact .inl ⟨b, rfl, h⟩
    · exact .inr ⟨b, rfl, h⟩
  · rintro (⟨b, rfl, h⟩ | ⟨b, rfl, h⟩)
    · exact .inl ⟨v, b, h, rfl, rfl⟩
    · exact .inr ⟨v, b, h, rfl, rfl⟩

theorem Tree.mem_paths_leaf {i : Nat} {v w : Sym} {q : BitStr} : (w, q) ∈ (Tree.leaf i v).paths [] ↔ w = v ∧ q = [] := by
  simp [Tree.paths]

theorem Tree.paths_length (t : Tree) : (t.paths []).length = t.leafCount := by
  induction t with
  | leaf i v => rfl
  | node i l r ihl ihr =>
    simp only [Tree.paths, List.nil_append, List.length_append, Tree.leafCount]
    rw [l.paths_eq, r.paths_eq]
    simp [ihl, ihr]

/-- A path has fewer bits than the tree has leaves (R132). -/
theorem Tree.path_lt {t : Tree} {v : Sym} {q : BitStr} (h : (v, q) ∈ t.paths []) : q.length < t.leafCount := by
  induction t generalizing q with
  | leaf i w =>
    obtain ⟨rfl, rfl⟩ := Tree.mem_paths_leaf.mp h
    simp [Tree.leafCount]
  | node i l r ihl ihr =>
    have := l.leafCount_pos
    have := r.leafCount_pos
    obtain ⟨q', rfl, h1⟩ | ⟨q', rfl, h1⟩ := Tree.mem_paths_node.mp h
    · have := ihl h1
      simp only [List.length_cons, Tree.leafCount]; omega
    · have := ihr h1
      simp only [List.length_cons, Tree.leafCount]; omega

/-- R92, R132: no leaf's path begins another leaf's. -/
theorem Tree.paths_prefix {t : Tree} {v w : Sym} {p q : BitStr} (hp : (v, p) ∈ t.paths []) (hq : (w, q) ∈ t.paths [])
    (h : p <+: q) : v = w ∧ p = q := by
  induction t generalizing p q with
  | leaf i u =>
    obtain ⟨rfl, rfl⟩ := Tree.mem_paths_leaf.mp hp
    obtain ⟨rfl, rfl⟩ := Tree.mem_paths_leaf.mp hq
    exact ⟨rfl, rfl⟩
  | node i l r ihl ihr =>
    obtain ⟨p', rfl, hp1⟩ | ⟨p', rfl, hp1⟩ := Tree.mem_paths_node.mp hp <;>
    obtain ⟨q', rfl, hq1⟩ | ⟨q', rfl, hq1⟩ := Tree.mem_paths_node.mp hq <;>
    simp only [List.cons_prefix_cons] at h
    · obtain ⟨h1, h2⟩ := ihl hp1 hq1 h.2
      exact ⟨h1, by rw [h2]⟩
    · simp at h
    · simp at h
    · obtain ⟨h1, h2⟩ := ihr hp1 hq1 h.2
      exact ⟨h1, by rw [h2]⟩

/-- R155: a path leads through the node store from the tree's root to a leaf of its symbol. -/
theorem Tree.follow_path {nodes : NodeStore} {t : Tree} (ht : t.stored nodes) {v : Sym} {q : BitStr} (h : (v, q) ∈ t.paths []) :
    ∃ n nd, n ∈ t.indices ∧ followBits nodes t.index q = some n ∧ nodes[n]? = some nd ∧ nd.kind = .leaf ∧
      symOfField nd.sym = some v := by
  induction t generalizing q with
  | leaf i w =>
    obtain ⟨rfl, rfl⟩ := Tree.mem_paths_leaf.mp h
    obtain ⟨nd, h1, h2, h3⟩ := ht
    exact ⟨i, nd, by simp [Tree.indices], rfl, h1, h2, h3⟩
  | node i l r ihl ihr =>
    obtain ⟨⟨nd, h1, h2, h3, h4⟩, hl, hr⟩ := ht
    obtain ⟨k, s, w, a, b⟩ := nd
    dsimp only at h2 h3 h4
    subst h2
    obtain ⟨q', rfl, h5⟩ | ⟨q', rfl, h5⟩ := Tree.mem_paths_node.mp h
    · obtain ⟨n, nd', hm, hf, hrest⟩ := ihl hl h5
      refine ⟨n, nd', by simp [Tree.indices, hm], ?_, hrest⟩
      simp only [followBits, Tree.index, h1, Bool.false_eq_true, if_false, h3]
      exact hf
    · obtain ⟨n, nd', hm, hf, hrest⟩ := ihr hr h5
      refine ⟨n, nd', by simp [Tree.indices, hm], ?_, hrest⟩
      simp only [followBits, Tree.index, h1, if_true, h4]
      exact hf

/-- Every leaf of a stored tree has a path to it. -/
theorem Tree.path_of_leaf {nodes : NodeStore} {t : Tree} (ht : t.stored nodes) {n : Nat} {nd : Node} (hn : n ∈ t.indices)
    (hnd : nodes[n]? = some nd) (hk : nd.kind = .leaf) :
    ∃ v q, (v, q) ∈ t.paths [] ∧ followBits nodes t.index q = some n ∧ symOfField nd.sym = some v := by
  induction t with
  | leaf i w =>
    obtain ⟨nd', h1, h2, h3⟩ := ht
    simp only [Tree.indices, List.mem_singleton] at hn
    subst hn
    rw [hnd] at h1
    cases h1
    exact ⟨w, [], by simp [Tree.paths], rfl, h3⟩
  | node i l r ihl ihr =>
    obtain ⟨⟨nd', h1, h2, h3, h4⟩, hl, hr⟩ := ht
    simp only [Tree.indices, List.mem_cons, List.mem_append] at hn
    obtain ⟨k, s, w, a, b⟩ := nd'
    dsimp only at h2 h3 h4
    subst h2
    obtain rfl | hn | hn := hn
    · rw [hnd] at h1
      cases h1
      cases hk
    · obtain ⟨v, q, hq, hf, hv⟩ := ihl hl hn
      refine ⟨v, false :: q, Tree.mem_paths_node.mpr (.inl ⟨q, rfl, hq⟩), ?_, hv⟩
      simp only [followBits, Tree.index, h1, Bool.false_eq_true, if_false, h3]
      exact hf
    · obtain ⟨v, q, hq, hf, hv⟩ := ihr hr hn
      refine ⟨v, true :: q, Tree.mem_paths_node.mpr (.inr ⟨q, rfl, hq⟩), ?_, hv⟩
      simp only [followBits, Tree.index, h1, if_true, h4]
      exact hf

theorem symOfField_val {f : BitVec 9} {v : Sym} (h : symOfField f = some v) : f.toNat = v.val := by
  unfold symOfField at h
  split at h <;> cases h
  rfl

/-- R147: structurally equal trees have the same paths and the same header. -/
theorem Tree.sameShape_paths {t u : Tree} (h : t.sameShape u = true) : t.paths [] = u.paths [] := by
  induction t generalizing u with
  | leaf i v =>
    cases u with
    | leaf j w => simp only [Tree.sameShape, beq_iff_eq] at h; simp [Tree.paths, h]
    | node j l r => simp [Tree.sameShape] at h
  | node i l r ihl ihr =>
    cases u with
    | leaf j w => simp [Tree.sameShape] at h
    | node j l' r' =>
      simp only [Tree.sameShape, Bool.and_eq_true] at h
      simp only [Tree.paths, List.nil_append]
      rw [l.paths_eq, r.paths_eq, l'.paths_eq, r'.paths_eq, ihl h.1, ihr h.2]

theorem Tree.sameShape_headerBits {t u : Tree} (h : t.sameShape u = true) : t.headerBits = u.headerBits := by
  induction t generalizing u with
  | leaf i v =>
    cases u with
    | leaf j w => simp only [Tree.sameShape, beq_iff_eq] at h; simp [Tree.headerBits, h]
    | node j l r => simp [Tree.sameShape] at h
  | node i l r ihl ihr =>
    cases u with
    | leaf j w => simp [Tree.sameShape] at h
    | node j l' r' =>
      simp only [Tree.sameShape, Bool.and_eq_true] at h
      simp only [Tree.headerBits, ihl h.1, ihr h.2]

/-! The code table. -/

theorem lastPath_append (ps qs : List (Sym × BitStr)) (c : Sym) :
    lastPath (ps ++ qs) c = if (qs.any fun q => q.1 == c) then lastPath qs c else lastPath ps c := by
  simp only [lastPath, List.filter_append, List.getLast?_append]
  cases h : (qs.filter fun q => q.1 == c).getLast? with
  | none =>
    rw [List.getLast?_eq_none_iff, List.filter_eq_nil_iff] at h
    have : (qs.any fun q => q.1 == c) = false := by
      rw [List.any_eq_false]
      exact fun x hx => by simpa using h x hx
    simp [this]
  | some q =>
    have hm := List.mem_filter.mp (List.mem_of_getLast? h)
    have : (qs.any fun q => q.1 == c) = true := List.any_eq_true.mpr ⟨q, hm.1, hm.2⟩
    simp [this]

/-- R130, R131: what a walk records is the last path of each symbol that labels a leaf; the other entries stay. -/
theorem Tree.walk_get (t : Tree) (p : BitStr) (tbl : CodeTable) (v : Sym) :
    (t.walk p tbl)[v] = if ((t.paths p).any fun q => q.1 == v) then lastPath (t.paths p) v else tbl[v] := by
  induction t generalizing p tbl with
  | leaf i w =>
    simp only [Tree.walk, Tree.paths, List.any_cons, List.any_nil, Bool.or_false, lastPath, List.filter_cons, List.filter_nil]
    by_cases h : w = v
    · subst h; simp
    · have hv : (w : Nat) ≠ v := fun h2 => h (Fin.ext h2)
      simp [h, hv]
  | node i l r ihl ihr =>
    simp only [Tree.walk, Tree.paths, ihr, ihl, List.any_append, lastPath_append, Bool.or_eq_true]
    split <;> rename_i h1
    · simp [h1]
    · simp only [h1, Bool.false_eq_true, or_false]

/-- R130: the table DERIVE makes. -/
theorem Tree.derive_get (t : Tree) (v : Sym) : (t.walk [] noCodes)[v] = lastPath (t.paths []) v := by
  rw [Tree.walk_get]
  split
  · rfl
  · rename_i h
    have : (t.paths []).filter (fun q => q.1 == v) = [] := by
      rw [List.filter_eq_nil_iff]
      intro x hx hb
      exact h (List.any_eq_true.mpr ⟨x, hx, hb⟩)
    simp [lastPath, this, noCodes]

theorem lastPath_mem {ps : List (Sym × BitStr)} {c : Sym} (h : lastPath ps c ≠ []) : (c, lastPath ps c) ∈ ps := by
  unfold lastPath at h ⊢
  cases hl : (ps.filter fun q => q.1 == c).getLast? with
  | none => simp [hl] at h
  | some q =>
    have hm := List.mem_filter.mp (List.mem_of_getLast? hl)
    have : q.1 = c := by simpa using hm.2
    subst this
    exact hm.1

theorem lastPath_of_nodup {ps : List (Sym × BitStr)} (hd : (ps.map Prod.fst).Nodup) {v : Sym} {q : BitStr} (h : (v, q) ∈ ps) :
    lastPath ps v = q := by
  have hf : ps.filter (fun x => x.1 == v) = [(v, q)] := by
    induction ps with
    | nil => simp at h
    | cons x ps ih =>
      simp only [List.map_cons, List.nodup_cons] at hd
      rw [List.mem_cons] at h
      obtain h | h := h
      · subst h
        have : ps.filter (fun x => x.1 == v) = [] := by
          rw [List.filter_eq_nil_iff]
          intro y hy hb
          have : y.1 = v := by simpa using hb
          exact hd.1 (List.mem_map.mpr ⟨y, hy, this⟩)
        simp [this]
      · have hx : x.1 ≠ v := fun e => hd.1 (e ▸ List.mem_map.mpr ⟨(v, q), h, rfl⟩)
        rw [List.filter_cons_of_neg (by simpa using hx)]
        exact ih hd.2 h
  simp [lastPath, hf]

/-! The valid-tree invariant. -/

/-- A decision procedure for the valid-tree invariant (R37) of one state. -/
def validTreeCheck (s : State) : Bool :=
  decide (3 ≤ s.nodeCount.toNat) && decide (s.nodeCount.toNat ≤ Config.nodeCap) &&
    decide (s.root.toNat < s.nodeCount.toNat) &&
    (match s.tree with
      | .error _ => false
      | .ok t => t.isNode && decide (t.indices.Perm (List.range s.nodeCount.toNat))) &&
    (List.range s.nodeCount.toNat).all fun n =>
      match s.node[n]? with
      | none => false
      | some nd =>
        match nd.kind with
        | .leaf => decide (nd.sym.toNat ≤ 256)
        | .internal =>
          decide (nd.left.toNat < s.nodeCount.toNat) && decide (nd.right.toNat < s.nodeCount.toNat) && (nd.left != nd.right)

theorem treeAt_isNode {nodes : NodeStore} {fuel n : Nat} {t : Tree} (h : treeAt nodes fuel n = .ok t) (hn : t.isNode = true) :
    ∃ nd, nodes[n]? = some nd ∧ nd.kind = .internal := by
  cases fuel with
  | zero => simp [treeAt] at h
  | succ fuel =>
    simp only [treeAt] at h
    split at h
    · cases h
    · rename_i nd hnd
      refine ⟨nd, hnd, ?_⟩
      split at h
      · split at h <;> cases h
        simp [Tree.isNode] at hn
      · assumption

theorem ValidTree.of_check {s : State} (h : validTreeCheck s = true) : ValidTree s := by
  simp only [validTreeCheck, Bool.and_eq_true, decide_eq_true_eq, List.all_eq_true, List.mem_range] at h
  obtain ⟨⟨⟨⟨h1, h2⟩, h3⟩, h4⟩, h5⟩ := h
  cases ht : s.tree with
  | error f => simp [ht] at h4
  | ok t =>
    simp only [ht, Bool.and_eq_true, decide_eq_true_eq] at h4
    refine ⟨h1, h2, h3, treeAt_isNode ht h4.1, ?_, ⟨t, ht, h4.2⟩, ?_⟩
    · intro n nd hn hnd hk
      have := h5 n hn
      simp only [hnd, hk, Bool.and_eq_true, decide_eq_true_eq, bne_iff_ne] at this
      exact ⟨this.1.1, this.1.2, this.2⟩
    · intro n nd hn hnd hk
      have := h5 n hn
      simpa only [hnd, hk, decide_eq_true_eq] using this

/-- The children of an internal node of a stored tree are nodes of the tree. -/
theorem Tree.children_mem {nodes : NodeStore} {t : Tree} (ht : t.stored nodes) {n : Nat} {nd : Node} (hn : n ∈ t.indices)
    (hnd : nodes[n]? = some nd) (hk : nd.kind = .internal) : [nd.left.toNat, nd.right.toNat].Sublist (t.indices) := by
  induction t with
  | leaf i w =>
    obtain ⟨nd', h1, h2, h3⟩ := ht
    simp only [Tree.indices, List.mem_singleton] at hn
    subst hn
    rw [hnd] at h1
    cases h1
    rw [hk] at h2
    cases h2
  | node i l r ihl ihr =>
    obtain ⟨⟨nd', h1, h2, h3, h4⟩, hl, hr⟩ := ht
    simp only [Tree.indices, List.mem_cons, List.mem_append] at hn ⊢
    obtain rfl | hn | hn := hn
    · rw [hnd] at h1
      cases h1
      rw [h3, h4]
      refine .cons _ (List.Sublist.append (l₁ := [l.index]) (r₁ := [r.index]) ?_ ?_)
      · exact List.singleton_sublist.mpr l.index_mem
      · exact List.singleton_sublist.mpr r.index_mem
    · exact .cons _ ((ihl hl hn).trans (List.sublist_append_left _ _))
    · exact .cons _ ((ihr hr hn).trans (List.sublist_append_right _ _))

theorem Tree.leaf_sym_le {nodes : NodeStore} {t : Tree} (ht : t.stored nodes) {n : Nat} {nd : Node} (hn : n ∈ t.indices)
    (hnd : nodes[n]? = some nd) (hk : nd.kind = .leaf) : nd.sym.toNat ≤ 256 := by
  obtain ⟨v, _, _, _, hv⟩ := Tree.path_of_leaf ht hn hnd hk
  have := symOfField_val hv
  have := v.isLt
  omega

/-- R37: a stored tree with an internal root, whose indices are exactly those below NODE_COUNT, is a valid tree. -/
theorem ValidTree.of_stored {s : State} {t : Tree} (ht : t.stored s.node) (hr : t.index = s.root.toNat) (hn : t.isNode = true)
    (hp : t.indices.Perm (List.range s.nodeCount.toNat)) (hc : s.nodeCount.toNat ≤ Config.nodeCap) : ValidTree s := by
  have hlen : t.indices.length = s.nodeCount.toNat := by rw [hp.length_eq, List.length_range]
  have hmem : ∀ n, n ∈ t.indices ↔ n < s.nodeCount.toNat := fun n => by rw [hp.mem_iff, List.mem_range]
  have hnodup : t.indices.Nodup := hp.nodup_iff.mpr List.nodup_range
  have htree : s.tree = .ok t := by rw [State.tree, ← hr]; exact treeAt_of_stored ht (by omega)
  refine ⟨?_, hc, ?_, treeAt_isNode htree hn, ?_, ⟨t, htree, hp⟩, ?_⟩
  · have h1 := t.indices_length
    cases t with
    | leaf i v => simp [Tree.isNode] at hn
    | node i l r =>
      have := l.leafCount_pos
      have := r.leafCount_pos
      simp only [Tree.leafCount] at h1
      omega
  · rw [← hr]; exact (hmem _).mp t.index_mem
  · intro n nd hlt hnd hk
    have hs := Tree.children_mem ht ((hmem n).mpr hlt) hnd hk
    have hd := hs.nodup hnodup
    refine ⟨(hmem _).mp (hs.subset (by simp)), (hmem _).mp (hs.subset (by simp)), ?_⟩
    intro h
    simp [h] at hd
  · exact fun n nd hlt hnd hk => Tree.leaf_sym_le ht ((hmem n).mpr hlt) hnd hk

/-- What a valid tree gives: the stored tree, its root and its indices. -/
theorem ValidTree.stored {s : State} (h : ValidTree s) :
    ∃ t, s.tree = .ok t ∧ t.stored s.node ∧ t.index = s.root.toNat ∧ t.isNode = true ∧
      t.indices.Perm (List.range s.nodeCount.toNat) := by
  obtain ⟨t, ht, hp⟩ := h.reaches
  obtain ⟨h1, h2, h3⟩ := treeAt_ok_iff.mp ht
  refine ⟨t, ht, h2, h1, ?_, hp⟩
  cases t with
  | node i l r => rfl
  | leaf i v =>
    obtain ⟨nd, a, b⟩ := h.root_internal
    obtain ⟨nd', c, d, -⟩ := h2
    simp only [Tree.index] at h1
    rw [← h1] at a
    rw [a] at c
    cases c
    rw [b] at d
    cases d

end Sys2Proof.Machine
end

