-- ==== Sys2Proof/Laws/Builder.lean ====
section
/-! SUPPORT. What BUILD's queue and merge loop do: each merge takes the two waiting nodes with the least keys (R118, R119), and the
waiting nodes are always the roots of a forest that holds every leaf once (R122). -/

namespace Sys2Proof.Machine

/-! The queue (R45, R118). -/

theorem before_iff (a b : QEntry) : a.before b = true ↔ a.weight < b.weight ∨ (a.weight = b.weight ∧ a.idx < b.idx) := by
  simp [QEntry.before]

theorem before_irrefl (a : QEntry) : a.before a = false := by
  rw [← Bool.not_eq_true, before_iff]
  bv_omega

theorem before_of_not {a b : QEntry} (h : a.idx ≠ b.idx) (hn : a.before b = false) : b.before a = true := by
  rw [← Bool.not_eq_true, before_iff] at hn
  rw [before_iff]
  bv_omega

/-- The key order is transitive, said of its negation. -/
theorem not_before_trans {a b c : QEntry} (h : b.before a = false) (h2 : c.before b = false) : c.before a = false := by
  rw [← Bool.not_eq_true, before_iff] at *
  bv_omega

/-- The least element of a queue is in it, and nothing in it comes before. -/
theorem leastOf_spec (q : List QEntry) (e : QEntry) : leastOf e q ∈ e :: q ∧ ∀ x ∈ e :: q, x.before (leastOf e q) = false := by
  induction q generalizing e with
  | nil => simp [leastOf, before_irrefl]
  | cons y q ih =>
    have hstep : leastOf e (y :: q) = leastOf (if y.before e then y else e) q := rfl
    obtain ⟨hm, hl⟩ := ih (if y.before e then y else e)
    rw [hstep]
    have hself := hl _ (List.mem_cons_self ..)
    refine ⟨?_, ?_⟩
    · rcases List.mem_cons.mp hm with h | h
      · rw [h]; split <;> simp
      · simp [h]
    · intro x hx
      rcases List.mem_cons.mp hx with rfl | hx
      · refine not_before_trans hself ?_
        split
        · rename_i h
          rw [← Bool.not_eq_true]
          intro h2
          rw [before_iff] at h h2
          bv_omega
        · exact before_irrefl _
      · rcases List.mem_cons.mp hx with rfl | hx
        · refine not_before_trans hself ?_
          split
          · exact before_irrefl _
          · rename_i h
            simpa using h
        · exact hl x (List.mem_cons_of_mem _ hx)

/-- ExtractMin on a queue of distinct indices (R118): the least element, and the rest of the queue, all of it later. -/
theorem extractMin_some {q : List QEntry} (hd : (q.map QEntry.idx).Nodup) (hq : q ≠ []) :
    ∃ m q', extractMin q = some (m, q') ∧ q.Perm (m :: q') ∧ ∀ x ∈ q', m.before x = true := by
  cases q with
  | nil => exact absurd rfl hq
  | cons e q =>
    obtain ⟨hm, hl⟩ := leastOf_spec q e
    have hp := List.perm_cons_erase hm
    refine ⟨leastOf e q, (e :: q).erase (leastOf e q), rfl, hp, fun x hx => ?_⟩
    have hx2 : x ∈ e :: q := List.mem_of_mem_erase hx
    refine before_of_not ?_ (hl x hx2)
    have := (hp.map QEntry.idx).nodup_iff.mp hd
    simp only [List.map_cons, List.nodup_cons] at this
    exact fun h => this.1 (List.mem_map.mpr ⟨x, hx, h⟩)

/-! The leaves (R117). -/

/-- What the leaf loop leaves: leaf k + i for the i-th positive symbol, and the queue of their keys. -/
theorem seedLeaves_eq (freq : FreqTable) (cs : List Sym) (k : Nat) (nodes : NodeStore) (q : List QEntry)
    (hk : k + (cs.filter fun c : Sym => decide (0 < freq[c])).length ≤ 513) :
    ∃ nodes', seedLeaves freq cs k nodes q =
        (k + (cs.filter fun c : Sym => decide (0 < freq[c])).length, nodes',
          q ++ ((cs.filter fun c : Sym => decide (0 < freq[c])).zipIdx k).map fun p : Sym × Nat => { weight := freq[p.1], idx := p.2 }) ∧
      (∀ i, i < k → nodes'[i]? = nodes[i]?) ∧
      ∀ (i : Nat) (c : Sym), (cs.filter fun c : Sym => decide (0 < freq[c]))[i]? = some c →
        nodes'[k + i]? = some (Node.ofLeaf (fieldOfSym c) freq[c]) := by
  induction cs generalizing k nodes q with
  | nil => exact ⟨nodes, by simp [seedLeaves], fun _ _ => rfl, by simp⟩
  | cons s cs ih =>
    rw [seedLeaves]
    by_cases hp : 0 < freq[s]
    · have hf : ((s :: cs).filter fun c : Sym => decide (0 < freq[c])) = s :: cs.filter fun c : Sym => decide (0 < freq[c]) := by
        rw [List.filter_cons_of_pos (by simpa using hp)]
      rw [hf] at hk ⊢
      simp only [List.length_cons] at hk ⊢
      obtain ⟨nodes', he, hkeep, hget⟩ := ih (k + 1) (nodes.setIfInBounds k (Node.ofLeaf (fieldOfSym s) freq[s]))
        (q ++ [{ weight := freq[s], idx := k }]) (by omega)
      refine ⟨nodes', ?_, ?_, ?_⟩
      · rw [if_pos hp, he]
        simp only [List.zipIdx_cons, List.map_cons, List.append_assoc, List.singleton_append, Prod.mk.injEq, and_true]
        omega
      · intro i hi
        rw [hkeep i (by omega)]
        simp [Nat.ne_of_gt hi]
      · intro i c hc
        cases i with
        | zero =>
          simp only [List.getElem?_cons_zero, Option.some.injEq] at hc
          subst hc
          rw [Nat.add_zero, hkeep k (by omega)]
          simp [show k < 513 by omega]
        | succ i =>
          have := hget i c hc
          rwa [Nat.add_assoc, Nat.add_comm 1] at this
    · have hf : ((s :: cs).filter fun c : Sym => decide (0 < freq[c])) = cs.filter fun c : Sym => decide (0 < freq[c]) := by
        rw [List.filter_cons_of_neg (by simpa using hp)]
      rw [hf] at hk ⊢
      rw [if_neg hp]
      exact ih k nodes q hk

/-! The merge loop (R116, R118, R119). -/

/-- Node j is the merge of the two waiting nodes with the least keys, the least on the left (R118, R119). -/
def MergedAt (nodes : NodeStore) (k j : Nat) : Prop :=
  ∃ a b x y, nodes[a]? = some x ∧ nodes[b]? = some y ∧ nodes[j]? = some (Node.ofPair (x.weight + y.weight) a b) ∧
    waiting nodes k j a ∧ waiting nodes k j b ∧ keyBefore nodes a b ∧
    ∀ n, waiting nodes k j n → n ≠ a → n ≠ b → keyBefore nodes b n

/-- What holds before each turn of the merge loop: the queue holds the waiting nodes, and the merges made so far are right. -/
structure MergeInv (k : Nat) (nodes0 : NodeStore) (next : Nat) (nodes : NodeStore) (q : List QEntry) : Prop where
  size : q.length + next = 2 * k
  le : k ≤ next
  small : k ≤ 257
  nodup : (q.map QEntry.idx).Nodup
  mem : ∀ n, n ∈ q.map QEntry.idx ↔ waiting nodes k next n
  weight : ∀ e ∈ q, ∃ nd, nodes[e.idx]? = some nd ∧ nd.weight = e.weight
  keep : ∀ i, i < k → nodes[i]? = nodes0[i]?
  merged : ∀ j, k ≤ j → j < next → MergedAt nodes k j
  last : k < next → next - 1 ∈ q.map QEntry.idx

theorem waiting_congr {nodes nodes' : NodeStore} {k j n : Nat} (h : ∀ i, i < j → nodes'[i]? = nodes[i]?) :
    waiting nodes' k j n ↔ waiting nodes k j n := by
  refine and_congr_right fun _ => forall_congr' fun m => forall_congr' fun nd => ?_
  refine imp_congr_right fun _ => ?_
  constructor
  · intro hh h1 h2; exact hh h1 (h m h1 ▸ h2)
  · intro hh h1 h2; exact hh h1 (h m h1 ▸ h2)

theorem keyBefore_congr {nodes nodes' : NodeStore} {a b : Nat} (ha : nodes'[a]? = nodes[a]?) (hb : nodes'[b]? = nodes[b]?) :
    keyBefore nodes' a b ↔ keyBefore nodes a b := by simp only [keyBefore, ha, hb]

theorem MergedAt.congr {nodes nodes' : NodeStore} {k j : Nat} (h : ∀ i, i ≤ j → nodes'[i]? = nodes[i]?) (hm : MergedAt nodes k j) :
    MergedAt nodes' k j := by
  have hw : ∀ n, waiting nodes' k j n ↔ waiting nodes k j n := fun n => waiting_congr fun i hi => h i (by omega)
  obtain ⟨a, b, x, y, h1, h2, h3, h4, h5, h6, h7⟩ := hm
  have ha := h a (by have := h4.1; omega)
  have hb := h b (by have := h5.1; omega)
  refine ⟨a, b, x, y, ha ▸ h1, hb ▸ h2, h j le_rfl ▸ h3, (hw a).mpr h4, (hw b).mpr h5, (keyBefore_congr ha hb).mpr h6, ?_⟩
  intro n hn h8 h9
  exact (keyBefore_congr hb (h n (by have := hn.1; omega))).mpr (h7 n ((hw n).mp hn) h8 h9)

/-- One turn of the merge loop keeps the invariant. -/
theorem MergeInv.turn {k next : Nat} {nodes0 nodes : NodeStore} {q q1 q2 : List QEntry} {a b : QEntry}
    (h : MergeInv k nodes0 next nodes q) (hp1 : q.Perm (a :: q1)) (hl1 : ∀ x ∈ q1, a.before x = true)
    (hp2 : q1.Perm (b :: q2)) (hl2 : ∀ x ∈ q2, b.before x = true) :
    MergeInv k nodes0 (next + 1) (nodes.setIfInBounds next (Node.ofPair (a.weight + b.weight) a.idx b.idx))
      (q2 ++ [{ weight := a.weight + b.weight, idx := next }]) := by
  have hp : q.Perm (a :: b :: q2) := hp1.trans (hp2.cons a)
  have hlen := hp.length_eq
  simp only [List.length_cons] at hlen
  have hsize := h.size
  have hle := h.le
  have hsmall := h.small
  have hpi := hp.map QEntry.idx
  have hnd := hpi.nodup_iff.mp h.nodup
  simp only [List.map_cons, List.nodup_cons, List.mem_cons, not_or] at hnd
  have hmem : ∀ n, waiting nodes k next n ↔ n = a.idx ∨ n = b.idx ∨ n ∈ q2.map QEntry.idx := by
    intro n
    rw [← h.mem n, hpi.mem_iff]
    simp
  have wa := (hmem a.idx).mpr (.inl rfl)
  have wb := (hmem b.idx).mpr (.inr (.inl rfl))
  have hlt : next < 513 := by omega
  have hself : (nodes.setIfInBounds next (Node.ofPair (a.weight + b.weight) a.idx b.idx))[next]? =
      some (Node.ofPair (a.weight + b.weight) a.idx b.idx) := by simp [hlt]
  have hne : ∀ i, i ≠ next → (nodes.setIfInBounds next (Node.ofPair (a.weight + b.weight) a.idx b.idx))[i]? = nodes[i]? := by
    intro i hi
    simp [Ne.symm hi]
  generalize nodes.setIfInBounds next (Node.ofPair (a.weight + b.weight) a.idx b.idx) = nodes' at hself hne
  have hal : (BitVec.ofNat 10 a.idx).toNat = a.idx := by
    have := wa.1
    rw [BitVec.toNat_ofNat]; omega
  have hbl : (BitVec.ofNat 10 b.idx).toNat = b.idx := by
    have := wb.1
    rw [BitVec.toNat_ofNat]; omega
  have hwt : ∀ e ∈ q, ∃ nd, nodes'[e.idx]? = some nd ∧ nd.weight = e.weight := by
    intro e he
    have := ((h.mem e.idx).mp (List.mem_map_of_mem he)).1
    rw [hne _ (by omega)]
    exact h.weight e he
  have hkey : ∀ e ∈ q, ∀ f ∈ q, e.before f = true → keyBefore nodes' e.idx f.idx := by
    intro e he f hf hb
    obtain ⟨x, hx, hxw⟩ := hwt e he
    obtain ⟨y, hy, hyw⟩ := hwt f hf
    refine ⟨x, y, hx, hy, ?_⟩
    rw [hxw, hyw]
    exact (before_iff e f).mp hb
  have hww : ∀ n, waiting nodes' k next n ↔ waiting nodes k next n := fun n => waiting_congr fun i hi => hne i (by omega)
  have hq2 : ∀ e ∈ q2, e ∈ q := fun e he => hp.mem_iff.mpr (by simp [he])
  have haq : a ∈ q := hp.mem_iff.mpr (by simp)
  have hbq : b ∈ q := hp.mem_iff.mpr (by simp)
  have hb1 : b ∈ q1 := hp2.mem_iff.mpr (by simp)
  have hmerge : MergedAt nodes' k next := by
    obtain ⟨x, hx, hxw⟩ := hwt a haq
    obtain ⟨y, hy, hyw⟩ := hwt b hbq
    refine ⟨a.idx, b.idx, x, y, hx, hy, by rw [hxw, hyw]; exact hself, (hww _).mpr wa, (hww _).mpr wb, hkey a haq b hbq (hl1 b hb1), ?_⟩
    intro n hn h1 h2
    rcases (hmem n).mp ((hww n).mp hn) with h3 | h3 | h3
    · exact absurd h3 h1
    · exact absurd h3 h2
    · obtain ⟨e, he, rfl⟩ := List.mem_map.mp h3
      exact hkey b hbq e (hq2 e he) (hl2 e he)
  refine ⟨?_, by omega, h.small, ?_, ?_, ?_, ?_, ?_, ?_⟩
  · simp only [List.length_append, List.length_singleton]; omega
  · rw [List.map_append, List.nodup_append]
    refine ⟨hnd.2.2, by simp, ?_⟩
    intro x hx y hy
    simp only [List.map_cons, List.map_nil, List.mem_singleton] at hy
    have := ((hmem x).mpr (.inr (.inr hx))).1
    omega
  · intro n
    simp only [List.map_append, List.map_cons, List.map_nil, List.mem_append, List.mem_singleton]
    constructor
    · rintro (hn | rfl)
      · have hw := (hmem n).mpr (.inr (.inr hn))
        refine ⟨by have := hw.1; omega, fun m nd hm1 hm2 hm3 => ?_⟩
        by_cases hm : m = next
        · subst hm
          rw [hself] at hm3
          cases hm3
          simp only [Node.ofPair, hal, hbl]
          exact ⟨fun e => hnd.1.2 (e ▸ hn), fun e => hnd.2.1 (e ▸ hn)⟩
        · rw [hne m hm] at hm3
          exact hw.2 m nd hm1 (by omega) hm3
      · refine ⟨by omega, fun m nd hm1 hm2 hm3 => ?_⟩
        by_cases hm : m = n
        · subst hm
          rw [hself] at hm3
          cases hm3
          simp only [Node.ofPair, hal, hbl]
          have := wa.1
          have := wb.1
          omega
        · obtain ⟨a', b', x, y, -, -, h3, h4, h5, -⟩ := h.merged m hm1 (by omega)
          rw [hne m hm, h3] at hm3
          cases hm3
          have := h4.1
          have := h5.1
          simp only [Node.ofPair, BitVec.toNat_ofNat]
          omega
    · intro hw
      by_cases hn : n = next
      · exact .inr hn
      · left
        have hw' : waiting nodes k next n :=
          ⟨by have := hw.1; omega, fun m nd hm1 hm2 hm3 => hw.2 m nd hm1 (by omega) (hne m (by omega) ▸ hm3)⟩
        rcases (hmem n).mp hw' with h3 | h3 | h3
        · have := (hw.2 next _ hle (by omega) hself).1
          simp only [Node.ofPair, hal] at this
          exact absurd h3.symm this
        · have := (hw.2 next _ hle (by omega) hself).2
          simp only [Node.ofPair, hbl] at this
          exact absurd h3.symm this
        · exact h3
  · intro e he
    rcases List.mem_append.mp he with he | he
    · exact hwt e (hq2 e he)
    · obtain rfl := List.mem_singleton.mp he
      exact ⟨_, hself, rfl⟩
  · intro i hi
    rw [hne i (by omega), h.keep i hi]
  · intro j hj1 hj2
    by_cases hj : j = next
    · exact hj ▸ hmerge
    · exact (h.merged j hj1 (by omega)).congr fun i hi => hne i (by omega)
  · intro _
    simp

/-- The merge loop ends with k - 1 merges made, and keeps whatever every turn keeps. -/
theorem mergeLoop_result {k : Nat} {nodes0 : NodeStore} (P : Nat → NodeStore → List QEntry → Prop)
    (hP : ∀ next nodes q q2 a b, MergeInv k nodes0 next nodes q → P next nodes q → q.Perm (a :: b :: q2) →
      P (next + 1) (nodes.setIfInBounds next (Node.ofPair (a.weight + b.weight) a.idx b.idx))
        (q2 ++ [{ weight := a.weight + b.weight, idx := next }]))
    (fuel : Nat) {next : Nat} {nodes : NodeStore} {q : List QEntry}
    (h : MergeInv k nodes0 next nodes q) (hp : P next nodes q) (hq : q ≠ []) (hf : q.length ≤ fuel) :
    ∃ e nodes', mergeLoop fuel q next nodes = some (e.idx, 2 * k - 1, nodes') ∧
      MergeInv k nodes0 (2 * k - 1) nodes' [e] ∧ P (2 * k - 1) nodes' [e] := by
  induction fuel generalizing next nodes q with
  | zero => exact absurd (List.length_eq_zero_iff.mp (by omega)) hq
  | succ fuel ih =>
    obtain ⟨a, q1, e1, hp1, hl1⟩ := extractMin_some h.nodup hq
    rw [mergeLoop, e1]
    by_cases hq1 : q1 = []
    · subst hq1
      obtain rfl : q = [a] := List.perm_singleton.mp hp1
      have := h.size
      simp only [List.length_singleton] at this
      obtain rfl : next = 2 * k - 1 := by omega
      exact ⟨a, nodes, rfl, h, hp⟩
    · have hd1 : (q1.map QEntry.idx).Nodup := by
        have := (hp1.map QEntry.idx).nodup_iff.mp h.nodup
        rw [List.map_cons, List.nodup_cons] at this
        exact this.2
      obtain ⟨b, q2, e2, hp2, hl2⟩ := extractMin_some hd1 hq1
      simp only [e2]
      have hlen := hp1.length_eq
      have hlen2 := hp2.length_eq
      simp only [List.length_cons] at hlen hlen2
      exact ih (h.turn hp1 hl1 hp2 hl2) (hP _ _ _ _ _ _ h hp (hp1.trans (hp2.cons a))) (by simp)
        (by simp only [List.length_append, List.length_singleton]; omega)

/-! The forest (R122). -/

/-- The queue's nodes are the roots of disjoint trees that use every allocated node once and every positive symbol once, and
whose weights sum to the total of the counts. -/
def Forest (ps : List Sym) (next : Nat) (nodes : NodeStore) (q : List QEntry) : Prop :=
  ∃ F : Nat → Tree, (∀ e ∈ q, (F e.idx).index = e.idx ∧ (F e.idx).stored nodes) ∧
    (q.flatMap fun e => (F e.idx).indices).Perm (List.range next) ∧ (q.flatMap fun e => (F e.idx).syms).Perm ps

theorem Tree.syms_node (i : Nat) (l r : Tree) : (Tree.node i l r).syms = l.syms ++ r.syms := by
  simp only [Tree.syms, Tree.paths, List.map_append]
  rw [Tree.paths_eq l, Tree.paths_eq r]
  simp [Function.comp_def]

theorem Forest.turn {ps : List Sym} {k next : Nat} {nodes0 nodes : NodeStore} {q q2 : List QEntry} {a b : QEntry}
    (h : MergeInv k nodes0 next nodes q) (hF : Forest ps next nodes q) (hp : q.Perm (a :: b :: q2)) :
    Forest ps (next + 1) (nodes.setIfInBounds next (Node.ofPair (a.weight + b.weight) a.idx b.idx))
      (q2 ++ [{ weight := a.weight + b.weight, idx := next }]) := by
  obtain ⟨F, hs, hi, hv⟩ := hF
  have hlen := hp.length_eq
  have hsize := h.size
  have hsmall := h.small
  simp only [List.length_cons] at hlen
  have hin : ∀ e ∈ q, e.idx < next := fun e he => ((h.mem e.idx).mp (List.mem_map_of_mem he)).1
  have haq : a ∈ q := hp.mem_iff.mpr (by simp)
  have hbq : b ∈ q := hp.mem_iff.mpr (by simp)
  have hq2 : ∀ e ∈ q2, e ∈ q := fun e he => hp.mem_iff.mpr (by simp [he])
  have hbelow : ∀ e ∈ q, ∀ i ∈ (F e.idx).indices, i < next := by
    intro e he i hm
    exact List.mem_range.mp (hi.mem_iff.mp (List.mem_flatMap.mpr ⟨e, he, hm⟩))
  have hst : ∀ e ∈ q, (F e.idx).stored (nodes.setIfInBounds next (Node.ofPair (a.weight + b.weight) a.idx b.idx)) := by
    intro e he
    refine Tree.stored_congr (fun i hm => ?_) (hs e he).2
    have := hbelow e he i hm
    simp [Nat.ne_of_gt this]
  have ha := hin a haq
  have hb := hin b hbq
  have hn : ∀ e ∈ q, (fun i => if i = next then Tree.node next (F a.idx) (F b.idx) else F i) e.idx = F e.idx :=
    fun e he => if_neg (by have := hin e he; omega)
  have hmapq2 : ∀ g : Tree → List Nat,
      (q2.flatMap fun e => g (if e.idx = next then Tree.node next (F a.idx) (F b.idx) else F e.idx)) = q2.flatMap fun e => g (F e.idx) := by
    intro g
    exact List.flatMap_congr fun e he => congrArg g (hn e (hq2 e he))
  have hmapq2' : ∀ g : Tree → List Sym,
      (q2.flatMap fun e => g (if e.idx = next then Tree.node next (F a.idx) (F b.idx) else F e.idx)) = q2.flatMap fun e => g (F e.idx) := by
    intro g
    exact List.flatMap_congr fun e he => congrArg g (hn e (hq2 e he))
  refine ⟨fun i => if i = next then .node next (F a.idx) (F b.idx) else F i, ?_, ?_, ?_⟩
  · intro e he
    rcases List.mem_append.mp he with he | he
    · rw [hn e (hq2 e he)]
      exact ⟨(hs e (hq2 e he)).1, hst e (hq2 e he)⟩
    · obtain rfl := List.mem_singleton.mp he
      simp only [if_true]
      refine ⟨rfl, ⟨Node.ofPair (a.weight + b.weight) a.idx b.idx, ?_, rfl, ?_, ?_⟩, hst a haq, hst b hbq⟩
      · simp [show next < 513 by omega]
      · rw [(hs a haq).1]; simp only [Node.ofPair, BitVec.toNat_ofNat]; omega
      · rw [(hs b hbq).1]; simp only [Node.ofPair, BitVec.toNat_ofNat]; omega
  · rw [List.flatMap_append]
    rw [hmapq2 Tree.indices]
    simp only [List.flatMap_singleton, if_true, Tree.indices]
    have h1 := (hp.flatMap_right fun e => (F e.idx).indices).symm.trans hi
    simp only [List.flatMap_cons] at h1
    rw [List.range_succ]
    refine List.perm_append_comm.trans ?_
    rw [List.cons_append]
    refine (List.Perm.cons next ?_).trans (List.perm_append_singleton next _).symm
    rw [List.append_assoc]
    exact h1
  · rw [List.flatMap_append, hmapq2' Tree.syms]
    simp only [List.flatMap_singleton, if_true, Tree.syms_node]
    have h1 := (hp.flatMap_right fun e => (F e.idx).syms).symm.trans hv
    simp only [List.flatMap_cons] at h1
    refine List.perm_append_comm.trans ?_
    rw [List.append_assoc]
    exact h1

/-! The whole of BUILD's tree (R116-R122). -/

/-- The weights in the queue sum to the total of the counts, when that total fits a word. -/
def Weighted (total : Nat) (q : List QEntry) : Prop := total < 2 ^ 32 → (q.map fun e => e.weight.toNat).sum = total

theorem Weighted.turn {total : Nat} {q q2 : List QEntry} {a b : QEntry} (idx : Nat) (h : Weighted total q)
    (hp : q.Perm (a :: b :: q2)) : Weighted total (q2 ++ [{ weight := a.weight + b.weight, idx := idx }]) := by
  intro ht
  have h1 := h ht
  rw [(hp.map fun e => e.weight.toNat).sum_eq] at h1
  simp only [List.map_cons, List.sum_cons] at h1
  simp only [List.map_append, List.sum_append, List.map_cons, List.map_nil, List.sum_cons, List.sum_nil, BitVec.toNat_add]
  rw [Nat.mod_eq_of_lt (by omega)]
  omega

/-- The queue that the leaf loop leaves. -/
def seedQueue (freq : FreqTable) : List QEntry :=
  ((positives freq).zipIdx 0).map fun p : Sym × Nat => { weight := freq[p.1], idx := p.2 }

theorem seedQueue_idx (freq : FreqTable) : (seedQueue freq).map QEntry.idx = List.range (positives freq).length := by
  simp [seedQueue, List.map_map, Function.comp_def, List.range_eq_range']

theorem seedQueue_weight (freq : FreqTable) :
    (seedQueue freq).map (fun e => e.weight.toNat) = (positives freq).map fun c => freq[c].toNat := by
  have := congrArg (List.map fun c => freq[c].toNat) (List.zipIdx_map_fst 0 (positives freq))
  rw [← this, seedQueue, List.map_map, List.map_map]
  rfl

/-- The sum of the positive counts. -/
def countSum (freq : FreqTable) : Nat := ((positives freq).map fun c => freq[c].toNat).sum

theorem positives_length_le (freq : FreqTable) : (positives freq).length ≤ 257 := by
  have h : (positives freq).length ≤ symbols.length := List.length_filter_le _ _
  simpa [symbols] using h

theorem symOfField_fieldOfSym (c : Sym) : symOfField (fieldOfSym c) = some c := by
  have : (fieldOfSym c).toNat = c.val := by
    have := c.isLt
    rw [fieldOfSym, BitVec.toNat_ofNat]
    omega
  simp only [symOfField, this]
  rw [dif_pos c.isLt]

/-- What BUILD makes of a FREQ table with a positive count: the merges of R119 from the leaves of R117, one forest that is one
tree, and then R121's wrap. -/
theorem buildTree_result (freq : FreqTable) (nodes : NodeStore) (h : positives freq ≠ []) :
    ∃ e nodes0 nodes', buildTree freq nodes = some (wrapLone e.idx (2 * (positives freq).length - 1) nodes') ∧
      (∀ (i : Nat) (c : Sym), (positives freq)[i]? = some c → nodes0[i]? = some (Node.ofLeaf (fieldOfSym c) freq[c])) ∧
      MergeInv (positives freq).length nodes0 (2 * (positives freq).length - 1) nodes' [e] ∧
      Forest (positives freq) (2 * (positives freq).length - 1) nodes' [e] ∧
      Weighted (countSum freq) [e] := by
  have hle := positives_length_le freq
  have hpos : 0 < (positives freq).length := List.length_pos_iff.mpr h
  obtain ⟨nodes0, hs, -, hget⟩ := seedLeaves_eq freq symbols 0 nodes [] (by
    have : (symbols.filter fun c : Sym => decide (0 < freq[c])) = positives freq := rfl
    rw [this]; omega)
  change seedLeaves freq symbols 0 nodes [] = (0 + (positives freq).length, nodes0, [] ++ seedQueue freq) at hs
  change ∀ (i : Nat) (c : Sym), (positives freq)[i]? = some c → _ at hget
  simp only [Nat.zero_add, List.nil_append] at hs hget
  have hidx := seedQueue_idx freq
  have hql : (seedQueue freq).length = (positives freq).length := by
    have := congrArg List.length hidx
    simpa using this
  have hqm : ∀ e ∈ seedQueue freq, ∃ c, (positives freq)[e.idx]? = some c ∧ e.weight = freq[c] := by
    intro e he
    obtain ⟨⟨c, i⟩, hp, rfl⟩ := List.mem_map.mp he
    exact ⟨c, List.mem_zipIdx_iff_getElem?.mp hp, rfl⟩
  have hM : MergeInv (positives freq).length nodes0 (positives freq).length nodes0 (seedQueue freq) := by
    refine ⟨by omega, le_rfl, hle, ?_, ?_, ?_, fun _ _ => rfl, fun j h1 h2 => by omega, fun h => by omega⟩
    · rw [hidx]; exact List.nodup_range
    · intro n
      rw [hidx, List.mem_range]
      exact ⟨fun h => ⟨h, fun m nd h1 h2 => by omega⟩, fun h => h.1⟩
    · intro e he
      obtain ⟨c, hc, hw⟩ := hqm e he
      exact ⟨_, hget _ _ hc, hw.symm⟩
  have hF : Forest (positives freq) (positives freq).length nodes0 (seedQueue freq) := by
    refine ⟨fun i => .leaf i ((positives freq).getD i 0), ?_, ?_, ?_⟩
    · intro e he
      obtain ⟨c, hc, hw⟩ := hqm e he
      refine ⟨rfl, _, hget _ _ hc, rfl, ?_⟩
      rw [List.getD_eq_getElem?_getD, hc]
      exact symOfField_fieldOfSym c
    · have : ((seedQueue freq).flatMap fun e => (Tree.leaf e.idx ((positives freq).getD e.idx 0)).indices) =
          (seedQueue freq).map QEntry.idx := by
        simp only [Tree.indices]
        exact List.map_eq_flatMap.symm
      rw [this, hidx]
    · have : ((seedQueue freq).flatMap fun e => (Tree.leaf e.idx ((positives freq).getD e.idx 0)).syms) =
          ((seedQueue freq).map QEntry.idx).map fun i => (positives freq).getD i 0 := by
        rw [List.map_map]
        simp only [Tree.syms, Tree.paths, List.map_cons, List.map_nil]
        exact List.map_eq_flatMap.symm
      rw [this, hidx]
      refine List.Perm.of_eq (List.ext_getElem (by simp) fun i h1 h2 => ?_)
      simp [h2]
  have hW : Weighted (countSum freq) (seedQueue freq) := fun _ => by rw [seedQueue_weight]; rfl
  obtain ⟨e, nodes', hm, hM', hF', hW'⟩ := mergeLoop_result
    (fun next nodes q => Forest (positives freq) next nodes q ∧ Weighted (countSum freq) q)
    (fun next nodes q q2 a b h1 h2 hp => ⟨h2.1.turn h1 hp, h2.2.turn next hp⟩) (seedQueue freq).length hM ⟨hF, hW⟩
    (fun he => by rw [he] at hql; simp at hql; omega) le_rfl
  refine ⟨e, nodes0, nodes', ?_, hget, hM', hF', hW'⟩
  rw [buildTree, hs]
  simp only [hm]

end Sys2Proof.Machine
end

