-- ==== Sys2Proof/Laws/Ports.lean ====
section
/-! SUPPORT. One specification lemma for each port operation: what ReadBits returns and leaves (R62), and that the packer
appends exactly the bits it is given and writes nothing else (R64, R65, R134). -/

namespace Sys2Proof.Machine

/-! The unpacker. -/

theorem restBits_length (s : State) : s.restBits.length = s.inLimit - s.inPos.toNat := by
  simp [State.restBits, State.inLimit]

/-- R62: with fewer than n bits left ReadBits returns EOD and the cursor is at the end. -/
theorem readBits_eod {n : Nat} {s : State} (h : s.restBits.length < n) :
    s.readBits n = (none, { s with inPos := BitVec.ofNat 64 s.inLimit }) := by
  rw [restBits_length] at h
  simp only [State.inLimit] at h ⊢
  rw [State.readBits, if_pos (by omega)]

/-- R62: with n bits left ReadBits returns their value and the cursor moves past them. -/
theorem readBits_ok {n : Nat} {s : State} (hn : 0 < n) (h : n ≤ s.restBits.length) :
    s.readBits n = (some (uint (s.restBits.take n)), { s with inPos := s.inPos + BitVec.ofNat 64 n }) := by
  rw [restBits_length] at h
  simp only [State.inLimit] at h
  rw [State.readBits, if_neg (by omega), streamField_eq _ _ _ (by omega)]
  rfl

/-- ReadBits writes the cursor and nothing else. -/
theorem readBits_frame (n : Nat) (s : State) : ∃ p, (s.readBits n).2 = { s with inPos := p } := by
  unfold State.readBits
  dsimp only
  split <;> exact ⟨_, rfl⟩

/-- On a stream shorter than 2^61 bytes the cursor does not wrap (R68). -/
theorem inPos_add_toNat {s : State} {n : Nat} (hs : s.inBytes.length < Config.streamLimit) (hn : 0 < n)
    (h : n ≤ s.restBits.length) : (s.inPos + BitVec.ofNat 64 n).toNat = s.inPos.toNat + n := by
  rw [restBits_length] at h
  simp only [State.inLimit, Config.streamLimit] at *
  rw [BitVec.toNat_add, BitVec.toNat_ofNat]
  omega

/-- After a read the rest of the stream is what follows the field (R62). -/
theorem restBits_advance {s : State} {n : Nat} (hs : s.inBytes.length < Config.streamLimit) (hn : 0 < n)
    (h : n ≤ s.restBits.length) :
    ({ s with inPos := s.inPos + BitVec.ofNat 64 n } : State).restBits = s.restBits.drop n := by
  simp only [State.restBits] at *
  rw [inPos_add_toNat hs hn h, List.drop_drop]

theorem inLimit_toNat {s : State} (hs : s.inBytes.length < Config.streamLimit) :
    (BitVec.ofNat 64 s.inLimit).toNat = s.inLimit := by
  simp only [State.inLimit, Config.streamLimit] at *
  rw [BitVec.toNat_ofNat]
  omega

/-! The packer. -/

theorem putBit_eq (b : Bool) (s : State) :
    s.putBit b = { s with outBytes := (s.putBit b).outBytes, pend := (s.putBit b).pend } := by
  unfold State.putBit
  dsimp only
  split <;> rfl

theorem putBit_pend_lt {b : Bool} {s : State} (h : s.pend.length < 8) : (s.putBit b).pend.length < 8 := by
  unfold State.putBit
  dsimp only
  split
  · simp
  · simp only [List.length_append, List.length_singleton] at *
    omega

theorem putBit_outBits (b : Bool) (s : State) : (s.putBit b).outBits = s.outBits ++ [b] := by
  unfold State.putBit
  dsimp only
  split
  · rename_i h
    have hu : uint (s.pend ++ [b]) % 2 ^ 8 = uint (s.pend ++ [b]) := Nat.mod_eq_of_lt (h ▸ uint_lt _)
    simp only [State.outBits, bytesBits_append, bytesBits_cons, bytesBits_nil, List.append_nil, BitVec.toNat_ofNat, hu,
      bitsOf_uint_of_length h, List.append_assoc]
  · simp [State.outBits]

theorem putBit_outBytes_grow (b : Bool) (s : State) : s.outBytes <+: (s.putBit b).outBytes := by
  unfold State.putBit
  dsimp only
  split
  · exact List.prefix_append _ _
  · exact List.prefix_rfl

@[simp] theorem putBits_nil (s : State) : s.putBits [] = s := rfl

theorem putBits_cons (b : Bool) (c : BitStr) (s : State) : s.putBits (b :: c) = (s.putBit b).putBits c := rfl

theorem putBits_append (c d : BitStr) (s : State) : s.putBits (c ++ d) = (s.putBits c).putBits d := by
  simp [State.putBits, List.foldl_append]

/-- The packer writes the output bytes and pend, and nothing else (R64). -/
theorem putBits_eq (c : BitStr) (s : State) :
    s.putBits c = { s with outBytes := (s.putBits c).outBytes, pend := (s.putBits c).pend } := by
  induction c generalizing s with
  | nil => rfl
  | cons b c ih => rw [putBits_cons, ih, putBit_eq]

theorem putBits_pend_lt {c : BitStr} {s : State} (h : s.pend.length < 8) : (s.putBits c).pend.length < 8 := by
  induction c generalizing s with
  | nil => exact h
  | cons b c ih => rw [putBits_cons]; exact ih (putBit_pend_lt h)

/-- R64: the bits reach the output in the order they were given. -/
theorem putBits_outBits (c : BitStr) (s : State) : (s.putBits c).outBits = s.outBits ++ c := by
  induction c generalizing s with
  | nil => simp
  | cons b c ih => rw [putBits_cons, ih, putBit_outBits, List.append_assoc, List.singleton_append]

theorem putBits_outBytes_grow (c : BitStr) (s : State) : s.outBytes <+: (s.putBits c).outBytes := by
  induction c generalizing s with
  | nil => exact List.prefix_rfl
  | cons b c ih => rw [putBits_cons]; exact (putBit_outBytes_grow b s).trans (ih _)

theorem putBit_update_outPos (b : Bool) (s : State) (p : BitVec 64) :
    ({ s with outPos := p } : State).putBit b = { s.putBit b with outPos := p } := by
  unfold State.putBit
  dsimp only
  split <;> rfl

theorem putBits_update_outPos (c : BitStr) (s : State) (p : BitVec 64) :
    ({ s with outPos := p } : State).putBits c = { s.putBits c with outPos := p } := by
  induction c generalizing s with
  | nil => rfl
  | cons b c ih => rw [putBits_cons, putBits_cons, putBit_update_outPos, ih]

/-- What every writer leaves: `c` appended to the output, OUT_POS moved by its length. -/
def State.appendBits (c : BitStr) (s : State) : State :=
  { s.putBits c with outPos := s.outPos + BitVec.ofNat 64 c.length }

theorem appendBits_nil (s : State) : s.appendBits [] = s := by simp [State.appendBits]

theorem appendBits_append (c d : BitStr) (s : State) :
    s.appendBits (c ++ d) = (s.appendBits c).appendBits d := by
  simp only [State.appendBits, putBits_append, putBits_update_outPos, List.length_append]
  congr 1
  rw [BitVec.ofNat_add, BitVec.add_assoc]

theorem appendBits_eq (c : BitStr) (s : State) :
    s.appendBits c = { s with
      outBytes := (s.appendBits c).outBytes, pend := (s.appendBits c).pend
      outPos := s.outPos + BitVec.ofNat 64 c.length } := by
  unfold State.appendBits
  rw [putBits_eq]

theorem appendBits_outBits (c : BitStr) (s : State) : (s.appendBits c).outBits = s.outBits ++ c :=
  putBits_outBits c s

theorem appendBits_pend_lt {c : BitStr} {s : State} (h : s.pend.length < 8) : (s.appendBits c).pend.length < 8 :=
  putBits_pend_lt h

theorem appendBits_outBytes_grow (c : BitStr) (s : State) : s.outBytes <+: (s.appendBits c).outBytes :=
  putBits_outBytes_grow c s

/-- WriteBits appends its field (R64). -/
theorem writeBits_eq (n v : Nat) (s : State) : s.writeBits n v = s.appendBits (bitsOf n v) := by
  simp only [State.writeBits, State.appendBits, bitsOf_length]
  congr 1
  rw [putBits_eq]

/-- R134: the split into fields of at most 32 bits has no effect of its own. -/
theorem emitFields_eq (fuel : Nat) (c : BitStr) (s : State) (h : c.length ≤ fuel) :
    emitFields fuel c s = s.appendBits c := by
  induction fuel generalizing c s with
  | zero =>
    obtain rfl : c = [] := List.length_eq_zero_iff.mp (by omega)
    exact (appendBits_nil s).symm
  | succ fuel ih =>
    rw [emitFields]
    split
    · rename_i h0
      obtain rfl : c = [] := List.length_eq_zero_iff.mp h0
      exact (appendBits_nil s).symm
    · rw [ih _ _ (by simp only [List.length_drop]; omega), writeBits_eq]
      rw [bitsOf_uint_of_length (by simp), ← appendBits_append, List.take_append_drop]

theorem emitCode_eq (c : BitStr) (s : State) : s.emitCode c = s.appendBits c := emitFields_eq _ _ _ le_rfl

/-- WRITE_HEADER's walk writes the header of the grammar of R87. -/
theorem emit_eq (t : Tree) (s : State) : t.emit s = s.appendBits t.headerBits := by
  induction t generalizing s with
  | leaf n v =>
    rw [Tree.emit, Tree.headerBits, writeBits_eq, writeBits_eq, ← appendBits_append]
    rfl
  | node n l r ihl ihr =>
    rw [Tree.emit, Tree.headerBits, ihr, ihl, writeBits_eq, ← appendBits_append, ← appendBits_append]
    rfl

/-- The output determines its bytes and its partial byte. -/
theorem outBits_length (s : State) : s.outBits.length = 8 * s.outBytes.length + s.pend.length := by
  simp [State.outBits]

end Sys2Proof.Machine
end

