-- ==== Sys2Proof/Laws/Loops.lean ====
section
/-! SUPPORT. One specification lemma for each loop of a command: COUNT's (R115) and WRITE_BODY's (R133), in terms of the whole
8-bit fields that the unread bits hold. -/

namespace Sys2Proof.Machine

/-! The fields of a bit string. -/

theorem byteFields_short {bits : BitStr} (h : bits.length < 8) : byteFields bits = [] := by
  simp [byteFields, Nat.div_eq_of_lt h]

theorem byteFields_long {bits : BitStr} (h : 8 ≤ bits.length) :
    byteFields bits = symOfByte (uint (bits.take 8)) :: byteFields (bits.drop 8) := by
  obtain ⟨m, hm⟩ : ∃ m, bits.length / 8 = m + 1 := ⟨bits.length / 8 - 1, by omega⟩
  have hd : (bits.drop 8).length / 8 = m := by simp only [List.length_drop]; omega
  simp only [byteFields, hm, hd, List.range_succ_eq_map, List.map_cons, List.map_map, Nat.mul_zero, List.drop_zero]
  congr 1
  apply List.map_congr_left
  intro i _
  simp only [Function.comp, List.drop_drop, Nat.succ_eq_add_one]
  congr 4
  omega

theorem byteFields_length (bits : BitStr) : (byteFields bits).length = bits.length / 8 := by simp [byteFields]

theorem symOfByte_ne_eos (v : Nat) : symOfByte v ≠ Config.eos := by
  intro h
  have := congrArg Fin.val h
  simp only [symOfByte, Config.eos] at this
  have h2 : v % 256 < 256 := Nat.mod_lt _ (by omega)
  have h3 : ((256 : Sym) : Nat) = 256 := rfl
  omega

theorem eos_not_mem_byteFields (bits : BitStr) : Config.eos ∉ byteFields bits := by
  intro h
  obtain ⟨i, _, hi⟩ := List.mem_map.mp h
  exact symOfByte_ne_eos _ hi

/-- The bytes of a stream read from its start are its fields. -/
theorem byteFields_bytesBits (bytes : List Byte) : byteFields (bytesBits bytes) = dataSyms bytes := by
  induction bytes with
  | nil => rfl
  | cons b bs ih =>
    rw [byteFields_long (by simp), bytesBits_cons, List.take_left' (by simp), List.drop_left' (by simp), ih, uint_bitsOf,
      Nat.mod_eq_of_lt b.isLt]
    rfl

/-! COUNT. -/

/-- One more occurrence of a symbol. -/
def tallyOne (f : FreqTable) (c : Sym) : FreqTable := f.set c (f[c] + 1)

/-- The FREQ table after the given symbols were counted into it. -/
def tally (f : FreqTable) (cs : List Sym) : FreqTable := cs.foldl tallyOne f

theorem tally_get (f : FreqTable) (cs : List Sym) (c : Sym) : (tally f cs)[c] = f[c] + BitVec.ofNat 32 (cs.count c) := by
  induction cs generalizing f with
  | nil => simp [tally]
  | cons d cs ih =>
    rw [tally, List.foldl_cons, ← tally, ih, tallyOne, List.count_cons]
    by_cases h : d = c
    · subst h
      simp only [Fin.getElem_fin, Vector.getElem_set_self, beq_self_eq_true, if_true, BitVec.ofNat_add, BitVec.add_assoc]
      rw [BitVec.add_comm (BitVec.ofNat 32 _)]
      rfl
    · have hv : (d : Nat) ≠ c := fun h2 => h (Fin.ext h2)
      simp [h, hv]

/-- R115: COUNT's loop over a stream that does not reach the limit. -/
theorem countLoop_ok (fuel : Nat) (n : Word) (s : State) (hs : s.inBytes.length < Config.streamLimit)
    (hf : s.restBits.length / 8 < fuel) (hn : n.toNat + (byteFields s.restBits).length ≤ Config.maxInput) :
    countLoop fuel n s = .ok (n + BitVec.ofNat 32 (byteFields s.restBits).length)
      { s with inPos := BitVec.ofNat 64 s.inLimit, freq := tally s.freq (byteFields s.restBits) } := by
  induction fuel generalizing n s with
  | zero => omega
  | succ fuel ih =>
    rw [countLoop]
    by_cases h8 : s.restBits.length < 8
    · simp [readBits_eod h8, byteFields_short h8, tally]
    · have h8 : 8 ≤ s.restBits.length := by omega
      rw [readBits_ok (by omega) h8]
      have hadv := restBits_advance hs (by omega) h8
      rw [byteFields_long h8, List.length_cons] at hn
      simp only
      rw [if_pos (by omega)]
      have hlen : (byteFields (s.restBits.drop 8)).length ≤ Config.maxInput := by omega
      have hstate : (State.bumpFreq (symOfByte (uint (s.restBits.take 8)))
          { s with inPos := s.inPos + BitVec.ofNat 64 8 }).restBits = s.restBits.drop 8 := hadv
      have hn1 : (n + 1).toNat = n.toNat + 1 := by
        rw [BitVec.toNat_add]
        have : n.toNat < Config.maxInput := by omega
        simp only [Config.maxInput] at this
        exact Nat.mod_eq_of_lt (by simp; omega)
      rw [ih]
      · rw [hstate, byteFields_long h8]
        simp only [State.bumpFreq_freq, List.length_cons, Run.ok.injEq]
        constructor
        · rw [BitVec.ofNat_add, BitVec.add_assoc, BitVec.add_comm 1]
          rfl
        · rfl
      · exact hs
      · rw [hstate]; simp only [List.length_drop]; omega
      · rw [hstate, hn1]; omega

/-- R115, R204: COUNT's loop over a stream with more than the limit's fields. -/
theorem countLoop_long (fuel : Nat) (n : Word) (s : State) (hs : s.inBytes.length < Config.streamLimit)
    (hf : s.restBits.length / 8 < fuel) (hn : Config.maxInput < n.toNat + (byteFields s.restBits).length)
    (hle : n.toNat ≤ Config.maxInput) :
    countLoop fuel n s = .raise (errorOf .inputTooLong .count 0) { s with
      inPos := s.inPos + BitVec.ofNat 64 (8 * (Config.maxInput + 1 - n.toNat))
      freq := tally s.freq ((byteFields s.restBits).take (Config.maxInput - n.toNat)) } := by
  induction fuel generalizing n s with
  | zero => omega
  | succ fuel ih =>
    have h8 : 8 ≤ s.restBits.length := by rw [byteFields_length] at hn; omega
    rw [countLoop, readBits_ok (by omega) h8]
    have hadv := restBits_advance hs (by omega) h8
    rw [byteFields_long h8, List.length_cons] at hn
    simp only
    by_cases hlt : n.toNat < Config.maxInput
    · rw [if_pos hlt]
      have hstate : (State.bumpFreq (symOfByte (uint (s.restBits.take 8)))
          { s with inPos := s.inPos + BitVec.ofNat 64 8 }).restBits = s.restBits.drop 8 := hadv
      have hn1 : (n + 1).toNat = n.toNat + 1 := by
        rw [BitVec.toNat_add]
        simp only [Config.maxInput] at hlt
        exact Nat.mod_eq_of_lt (by simp; omega)
      rw [ih]
      · rw [hstate, hn1, byteFields_long h8]
        simp only [Run.raise.injEq, true_and, State.bumpFreq]
        obtain ⟨m, hm⟩ : ∃ m, Config.maxInput - n.toNat = m + 1 := ⟨Config.maxInput - n.toNat - 1, by omega⟩
        have e1 : Config.maxInput - (n.toNat + 1) = m := by omega
        have e2 : Config.maxInput + 1 - (n.toNat + 1) = m + 1 := by omega
        have e3 : Config.maxInput + 1 - n.toNat = m + 2 := by omega
        rw [hm, e1, e2, e3, List.take_succ_cons]
        have e4 : s.inPos + BitVec.ofNat 64 8 + BitVec.ofNat 64 (8 * (m + 1)) = s.inPos + BitVec.ofNat 64 (8 * (m + 2)) := by
          rw [BitVec.add_assoc, ← BitVec.ofNat_add]
          congr 2
          omega
        rw [e4]
        rfl
      · exact hs
      · rw [hstate]; simp only [List.length_drop]; omega
      · rw [hstate, hn1]; omega
      · omega
    · rw [if_neg hlt]
      have e : Config.maxInput - n.toNat = 0 := by omega
      have e2 : Config.maxInput + 1 - n.toNat = 1 := by omega
      simp [e, e2, tally]

/-! WRITE_BODY. -/

theorem codesBits_nil (code : CodeTable) : codesBits code [] = [] := rfl

theorem codesBits_cons (code : CodeTable) (c : Sym) (cs : List Sym) :
    codesBits code (c :: cs) = code[c] ++ codesBits code cs := by simp [codesBits]

/-- A symbol with a code is emitted (R133, R134). -/
theorem emitSym_ok {v : Sym} {s : State} (h : s.code[v] ≠ []) : emitSym v s = .ok () (s.appendBits s.code[v]) := by
  rw [emitSym, if_neg (by simpa [codeLen] using h), emitCode_eq]

/-- A symbol without a code raises NO_CODE and nothing is written (R135). -/
theorem emitSym_none {v : Sym} {s : State} (h : s.code[v] = []) :
    emitSym v s = .raise (errorOf .noCode .writeBody v.val) s := by
  rw [emitSym, if_pos (by simpa [codeLen] using h)]

theorem appendBits_update_inPos (c : BitStr) (s : State) (p : BitVec 64) :
    ({ s with inPos := p } : State).appendBits c = { s.appendBits c with inPos := p } := by
  have h : ∀ (b : Bool) (s : State), ({ s with inPos := p } : State).putBit b = { s.putBit b with inPos := p } := by
    intro b s
    unfold State.putBit
    dsimp only
    split <;> rfl
  have h2 : ({ s with inPos := p } : State).putBits c = { s.putBits c with inPos := p } := by
    induction c generalizing s with
    | nil => rfl
    | cons b c ih => rw [putBits_cons, putBits_cons, h, ih]
  simp only [State.appendBits, h2]

theorem appendBits_restBits (c : BitStr) (s : State) : (s.appendBits c).restBits = s.restBits := by
  rw [appendBits_eq]; rfl

theorem appendBits_code (c : BitStr) (s : State) : (s.appendBits c).code = s.code := by
  rw [appendBits_eq]

theorem appendBits_inBytes (c : BitStr) (s : State) : (s.appendBits c).inBytes = s.inBytes := by
  rw [appendBits_eq]

theorem appendBits_inPos (c : BitStr) (s : State) : (s.appendBits c).inPos = s.inPos := by
  rw [appendBits_eq]

/-- R133: WRITE_BODY's loop when every field has a code. -/
theorem bodyLoop_ok (fuel : Nat) (s : State) (hs : s.inBytes.length < Config.streamLimit)
    (hf : s.restBits.length / 8 < fuel) (hc : ∀ c ∈ byteFields s.restBits, s.code[c] ≠ []) :
    bodyLoop fuel s = .ok ()
      { s.appendBits (codesBits s.code (byteFields s.restBits)) with inPos := BitVec.ofNat 64 s.inLimit } := by
  induction fuel generalizing s with
  | zero => omega
  | succ fuel ih =>
    rw [bodyLoop]
    by_cases h8 : s.restBits.length < 8
    · simp [readBits_eod h8, byteFields_short h8, codesBits_nil, appendBits_nil]
    · have h8 : 8 ≤ s.restBits.length := by omega
      have hadv := restBits_advance hs (by omega) h8
      rw [byteFields_long h8] at hc ⊢
      rw [readBits_ok (by omega) h8]
      simp only
      rw [emitSym_ok (s := { s with inPos := s.inPos + BitVec.ofNat 64 8 }) (hc _ (by simp)), Run.andThen]
      have hrest : (({ s with inPos := s.inPos + BitVec.ofNat 64 8 } : State).appendBits
          (s.code[symOfByte (uint (s.restBits.take 8))])).restBits = s.restBits.drop 8 := by
        rw [appendBits_restBits, hadv]
      rw [ih]
      · rw [hrest, appendBits_code, ← appendBits_append, ← codesBits_cons, appendBits_update_inPos]
        simp only [State.inLimit, appendBits_inBytes]
      · rw [appendBits_inBytes]; exact hs
      · rw [hrest]; simp only [List.length_drop]; omega
      · rw [hrest, appendBits_code]; exact fun c h => hc c (by simp [h])

/-- R135: WRITE_BODY's loop up to the first field without a code. -/
theorem bodyLoop_noCode (fuel : Nat) (s : State) (pre : List Sym) (v : Sym) (post : List Sym)
    (hs : s.inBytes.length < Config.streamLimit) (hf : s.restBits.length / 8 < fuel)
    (hb : byteFields s.restBits = pre ++ v :: post) (hc : ∀ c ∈ pre, s.code[c] ≠ []) (hv : s.code[v] = []) :
    bodyLoop fuel s = .raise (errorOf .noCode .writeBody v.val)
      { s.appendBits (codesBits s.code pre) with inPos := s.inPos + BitVec.ofNat 64 (8 * (pre.length + 1)) } := by
  induction fuel generalizing s pre with
  | zero => omega
  | succ fuel ih =>
    have h8 : 8 ≤ s.restBits.length := by
      by_contra h
      rw [byteFields_short (by omega)] at hb
      simp at hb
    have hadv := restBits_advance hs (by omega) h8
    rw [bodyLoop, readBits_ok (by omega) h8]
    rw [byteFields_long h8] at hb
    simp only
    cases pre with
    | nil =>
      simp only [List.nil_append, List.cons.injEq] at hb
      rw [hb.1, emitSym_none (s := { s with inPos := s.inPos + BitVec.ofNat 64 8 }) hv]
      simp [Run.andThen, codesBits_nil, appendBits_nil]
    | cons c pre =>
      simp only [List.cons_append, List.cons.injEq] at hb
      rw [hb.1, emitSym_ok (s := { s with inPos := s.inPos + BitVec.ofNat 64 8 }) (hc c (by simp)), Run.andThen]
      have hrest : (({ s with inPos := s.inPos + BitVec.ofNat 64 8 } : State).appendBits (s.code[c])).restBits =
          s.restBits.drop 8 := by
        rw [appendBits_restBits, hadv]
      rw [ih _ pre]
      · rw [appendBits_code, ← appendBits_append, ← codesBits_cons, appendBits_inPos, appendBits_update_inPos]
        simp only [List.length_cons]
        have e : s.inPos + BitVec.ofNat 64 8 + BitVec.ofNat 64 (8 * (pre.length + 1)) =
            s.inPos + BitVec.ofNat 64 (8 * (pre.length + 1 + 1)) := by
          rw [BitVec.add_assoc, ← BitVec.ofNat_add]
          congr 2
          omega
        rw [e]
      · rw [appendBits_inBytes]; exact hs
      · rw [hrest]; simp only [List.length_drop]; omega
      · rw [hrest]; exact hb.2
      · rw [appendBits_code]; exact fun d h => hc d (by simp [h])
      · rw [appendBits_code]; exact hv

end Sys2Proof.Machine
end

