-- ==== Sys2Proof/Laws/Parse.lean ====
section
/-! SUPPORT. What READ_HEADER's recursive parse does: it ends in a stored tree numbered in pre-order or in one of its errors
(R144-R146), and it reads back exactly a header that fits (R147). -/

namespace Sys2Proof.Machine

/-- What a parse can write: the node store, the node count and the cursor. -/
def State.parsed (s : State) (nodes : NodeStore) (count : BitVec 10) (pos : BitVec 64) : State :=
  { s with node := nodes, nodeCount := count, inPos := pos }

@[simp] theorem parsed_node (s : State) (a : NodeStore) (b : BitVec 10) (c : BitVec 64) : (s.parsed a b c).node = a := rfl

@[simp] theorem parsed_nodeCount (s : State) (a : NodeStore) (b : BitVec 10) (c : BitVec 64) : (s.parsed a b c).nodeCount = b := rfl

@[simp] theorem parsed_inPos (s : State) (a : NodeStore) (b : BitVec 10) (c : BitVec 64) : (s.parsed a b c).inPos = c := rfl

@[simp] theorem parsed_inBytes (s : State) (a : NodeStore) (b : BitVec 10) (c : BitVec 64) :
    (s.parsed a b c).inBytes = s.inBytes := rfl

@[simp] theorem parsed_parsed (s : State) (a d : NodeStore) (b e : BitVec 10) (c f : BitVec 64) :
    (s.parsed a b c).parsed d e f = s.parsed d e f := rfl

@[simp] theorem parsed_allocNode (s : State) (a : NodeStore) (b : BitVec 10) (c : BitVec 64) :
    (s.parsed a b c).allocNode = s.parsed a (b + 1) c := rfl

@[simp] theorem parsed_setNode (s : State) (a : NodeStore) (b : BitVec 10) (c : BitVec 64) (n : Nat) (nd : Node) :
    (s.parsed a b c).setNode n nd = s.parsed (a.setIfInBounds n nd) b c := rfl

theorem parsed_self (s : State) : s.parsed s.node s.nodeCount s.inPos = s := rfl

theorem parsed_restBits (s : State) (a : NodeStore) (b : BitVec 10) (c : BitVec 64) :
    (s.parsed a b c).restBits = (bytesBits s.inBytes).drop c.toNat := rfl

/-- A read moves the cursor and nothing else. -/
theorem readBits_parsed (n : Nat) (s : State) : ∃ v p, s.readBits n = (v, s.parsed s.node s.nodeCount p) := by
  obtain ⟨p, hp⟩ := readBits_frame n s
  exact ⟨(s.readBits n).1, p, by rw [Prod.ext_iff]; exact ⟨rfl, hp⟩⟩

/-! One turn of the parse, case by case (R144). -/

theorem parseNode_cap (fuel : Nat) (isRoot : Bool) (s : State) (h : s.nodeCount.toNat = Config.nodeCap) :
    parseNode (fuel + 1) isRoot s = .raise (errorOf .capacity .readHeader 0) s := by
  rw [parseNode, if_pos h]

theorem parseNode_eod {fuel : Nat} {isRoot : Bool} {s t : State} (h : s.nodeCount.toNat ≠ Config.nodeCap)
    (hr : s.readBits 1 = (none, t)) : parseNode (fuel + 1) isRoot s = .raise (errorOf .truncated .readHeader 0) t := by
  rw [parseNode, if_neg h, hr]

theorem parseNode_rootLeaf {fuel : Nat} {s t : State} (h : s.nodeCount.toNat ≠ Config.nodeCap)
    (hr : s.readBits 1 = (some 1, t)) : parseNode (fuel + 1) true s = .raise (errorOf .format .readHeader 3) t := by
  rw [parseNode, if_neg h, hr]
  rfl

theorem parseNode_internal {fuel : Nat} {isRoot : Bool} {s t : State} (h : s.nodeCount.toNat ≠ Config.nodeCap)
    (hr : s.readBits 1 = (some 0, t)) :
    parseNode (fuel + 1) isRoot s =
      (parseNode fuel false (t.allocNode.setNode t.nodeCount.toNat (Node.ofPair 0 0 0))).andThen fun l u =>
        (parseNode fuel false u).andThen fun r v => .ok t.nodeCount.toNat (v.setNode t.nodeCount.toNat (Node.ofPair 0 l r)) := by
  rw [parseNode, if_neg h, hr]
  rfl

theorem parseNode_leaf {fuel : Nat} {s t : State} (h : s.nodeCount.toNat ≠ Config.nodeCap) (hr : s.readBits 1 = (some 1, t)) :
    parseNode (fuel + 1) false s =
      match t.allocNode.readBits 9 with
      | (none, u) => .raise (errorOf .truncated .readHeader 1) u
      | (some v, u) =>
        if v > 256 then .raise (errorOf .format .readHeader 2) u
        else .ok t.nodeCount.toNat (u.setNode t.nodeCount.toNat (Node.ofLeaf (BitVec.ofNat 9 v) 0)) := by
  rw [parseNode, if_neg h, hr]
  rfl

/-- The ERROR values a parse raises (R146). -/
def parseErrors : List ErrorReg :=
  [errorOf .capacity .readHeader 0, errorOf .truncated .readHeader 0, errorOf .format .readHeader 3,
    errorOf .truncated .readHeader 1, errorOf .format .readHeader 2]

theorem parseErrors_isRow {e : ErrorReg} (h : e ∈ parseErrors) : e.isRow ∧ e.op = Instr.readHeader.opcode := by
  simp only [parseErrors, List.mem_cons, List.not_mem_nil, or_false] at h
  rcases h with rfl | rfl | rfl | rfl | rfl <;> exact ⟨by unfold ErrorReg.isRow; decide, rfl⟩

/-- A tree that a parse has made from index n on: its nodes are numbered in pre-order, and every weight is 0 (R145). -/
structure ParsedTree (nodes : NodeStore) (n : Nat) (t : Tree) : Prop where
  index : t.index = n
  stored : t.stored nodes
  indices : t.indices = List.range' n t.indices.length
  weight : ∀ i nd, n ≤ i → i < n + t.indices.length → nodes[i]? = some nd → nd.weight = 0

theorem setNode_get_self {nodes : NodeStore} {n : Nat} {nd : Node} (h : n < 513) : (nodes.setIfInBounds n nd)[n]? = some nd := by
  simp [h]

theorem setNode_get_ne {nodes : NodeStore} {n m : Nat} {nd : Node} (h : m ≠ n) : (nodes.setIfInBounds n nd)[m]? = nodes[m]? := by
  simp [Ne.symm h]

theorem uint_singleton (b : Bool) : uint [b] = b.toNat := by cases b <;> rfl

theorem ParsedTree.mem {nodes : NodeStore} {n i : Nat} {t : Tree} (h : ParsedTree nodes n t) (hi : i ∈ t.indices) :
    n ≤ i ∧ i < n + t.indices.length := by
  rw [h.indices, List.mem_range'_1] at hi
  exact hi

/-- Writes outside a parsed tree's indices leave it. -/
theorem ParsedTree.congr {nodes nodes' : NodeStore} {n : Nat} {t : Tree} (h : ParsedTree nodes n t)
    (hs : ∀ i, n ≤ i → i < n + t.indices.length → nodes'[i]? = nodes[i]?) : ParsedTree nodes' n t where
  index := h.index
  stored := Tree.stored_congr (fun i hi => hs i (h.mem hi).1 (h.mem hi).2) h.stored
  indices := h.indices
  weight i nd h1 h2 h3 := h.weight i nd h1 h2 (hs i h1 h2 ▸ h3)

theorem ParsedTree.leaf {nodes : NodeStore} {n : Nat} {f : BitVec 9} {v : Sym} (hn : n < 513) (hf : symOfField f = some v) :
    ParsedTree (nodes.setIfInBounds n (Node.ofLeaf f 0)) n (.leaf n v) where
  index := rfl
  stored := ⟨_, setNode_get_self hn, rfl, hf⟩
  indices := by simp [Tree.indices]
  weight i nd h1 h2 h3 := by
    simp only [Tree.indices, List.length_singleton] at h2
    obtain rfl : i = n := by omega
    rw [setNode_get_self hn] at h3
    cases h3
    rfl

/-- An internal node over two parsed trees that follow it. -/
theorem ParsedTree.node {nodes : NodeStore} {n : Nat} {l r : Tree} (hl : ParsedTree nodes (n + 1) l)
    (hr : ParsedTree nodes (n + 1 + l.indices.length) r) (hc : n + 1 + l.indices.length + r.indices.length ≤ 513) :
    ParsedTree (nodes.setIfInBounds n (Node.ofPair 0 l.index r.index)) n (.node n l r) where
  index := rfl
  stored := by
    have hrl := r.leafCount_pos
    have hri := r.indices_length
    have e1 := hl.index
    have e2 := hr.index
    refine ⟨⟨_, setNode_get_self (by omega), rfl, ?_, ?_⟩, ?_, ?_⟩
    · simp only [Node.ofPair, BitVec.toNat_ofNat]; omega
    · simp only [Node.ofPair, BitVec.toNat_ofNat]; omega
    · exact (hl.congr fun i h1 _ => setNode_get_ne (by omega)).stored
    · exact (hr.congr fun i h1 _ => setNode_get_ne (by omega)).stored
  indices := by
    have h1 := hl.indices
    have h2 := hr.indices
    simp only [Tree.indices, List.length_cons, List.length_append, List.range'_succ]
    rw [← List.range'_append_1, ← h1, ← h2]
  weight i nd h1 h2 h3 := by
    simp only [Tree.indices, List.length_cons, List.length_append] at h2
    by_cases e : i = n
    · subst e
      rw [setNode_get_self (by omega)] at h3
      cases h3
      rfl
    · rw [setNode_get_ne e] at h3
      by_cases e2 : i < n + 1 + l.indices.length
      · exact hl.weight i nd (by omega) e2 h3
      · exact hr.weight i nd (by omega) (by omega) h3

theorem symOfField_ofNat {v : Nat} (h : v ≤ 256) : symOfField (BitVec.ofNat 9 v) = some ⟨v, by omega⟩ := by
  have : (BitVec.ofNat 9 v).toNat = v := by rw [BitVec.toNat_ofNat]; omega
  simp only [symOfField, this]
  rw [dif_pos (by omega)]

theorem nodeCount_succ {c : BitVec 10} (h : c.toNat < 513) : (c + 1).toNat = c.toNat + 1 := by
  rw [BitVec.toNat_add]
  exact Nat.mod_eq_of_lt (by simp; omega)

/-- The bit that ReadBits(1) returns is 0 or 1. -/
theorem readBits_one {s t : State} {b : Nat} (h : s.readBits 1 = (some b, t)) : b = 0 ∨ b = 1 := by
  by_cases hl : s.restBits.length < 1
  · rw [readBits_eod hl] at h
    cases h
  · rw [readBits_ok (by omega) (by omega)] at h
    simp only [Prod.mk.injEq, Option.some.injEq] at h
    have := uint_lt (s.restBits.take 1)
    have h2 : (s.restBits.take 1).length ≤ 1 := by simp
    have : 2 ^ (s.restBits.take 1).length ≤ 2 ^ 1 := Nat.pow_le_pow_right (by omega) h2
    omega

/-- R144-R146: a parse from any state ends in a tree or in one of its errors. -/
theorem parseNode_result (fuel : Nat) (isRoot : Bool) (s : State) (hc : s.nodeCount.toNat ≤ 513) :
    (∃ nodes count pos t, parseNode fuel isRoot s = .ok s.nodeCount.toNat (s.parsed nodes count pos) ∧
      ParsedTree nodes s.nodeCount.toNat t ∧ count.toNat = s.nodeCount.toNat + t.indices.length ∧ count.toNat ≤ 513 ∧
      (∀ i, i < s.nodeCount.toNat → nodes[i]? = s.node[i]?) ∧ (isRoot = true → t.isNode = true)) ∨
    ∃ e nodes count pos, parseNode fuel isRoot s = .raise e (s.parsed nodes count pos) ∧ e ∈ parseErrors := by
  induction fuel generalizing isRoot s with
  | zero => exact .inr ⟨_, s.node, s.nodeCount, s.inPos, rfl, by simp [parseErrors]⟩
  | succ fuel ih =>
    by_cases hcap : s.nodeCount.toNat = Config.nodeCap
    · exact .inr ⟨errorOf .capacity .readHeader 0, s.node, s.nodeCount, s.inPos, parseNode_cap fuel isRoot s hcap,
        by simp [parseErrors]⟩
    have hlt : s.nodeCount.toNat < 513 := by simp only [Config.nodeCap] at hcap; omega
    obtain ⟨v, p, hr⟩ := readBits_parsed 1 s
    cases v with
    | none =>
      exact .inr ⟨errorOf .truncated .readHeader 0, s.node, s.nodeCount, p, parseNode_eod hcap hr, by simp [parseErrors]⟩
    | some b =>
      obtain rfl | rfl := readBits_one hr
      · rw [parseNode_internal hcap hr]
        simp only [parsed_allocNode, parsed_setNode, parsed_nodeCount]
        generalize hn0 : s.node.setIfInBounds s.nodeCount.toNat (Node.ofPair 0 0 0) = nodes0
        have hs1 := nodeCount_succ hlt
        rcases ih false (s.parsed nodes0 (s.nodeCount + 1) p) (by simp only [parsed_nodeCount]; omega) with
          ⟨nodes1, c1, p1, l, e1, hl, hcl, hcl2, hk1, -⟩ | ⟨e, nodes1, c1, p1, e1, he⟩
        · rw [e1]
          simp only [parsed_nodeCount, parsed_node, parsed_parsed, hs1] at hl hcl hk1 ⊢
          simp only [Run.andThen]
          rcases ih false (s.parsed nodes1 c1 p1) hcl2 with
            ⟨nodes2, c2, p2, r, e2, hr2, hcr, hcr2, hk2, -⟩ | ⟨e, nodes2, c2, p2, e2, he⟩
          · rw [e2]
            simp only [parsed_nodeCount, parsed_node, parsed_parsed, parsed_setNode, hcl] at hr2 hcr hk2 ⊢
            refine .inl ⟨nodes2.setIfInBounds s.nodeCount.toNat (Node.ofPair 0 l.index r.index), c2, p2,
              .node s.nodeCount.toNat l r, ?_, ?_, ?_, hcr2, ?_, fun _ => rfl⟩
            · rw [hl.index, hr2.index]
            · refine ParsedTree.node (hl.congr fun i h1 h2 => ?_) hr2 (by omega)
              exact hk2 i (by omega)
            · simp only [Tree.indices, List.length_cons, List.length_append]
              omega
            · intro i hi
              rw [setNode_get_ne (by omega), hk2 i (by omega), hk1 i (by omega), ← hn0]
              exact setNode_get_ne (by omega)
          · rw [e2]
            exact .inr ⟨e, nodes2, c2, p2, rfl, he⟩
        · rw [e1]
          exact .inr ⟨e, nodes1, c1, p1, rfl, he⟩
      · cases isRoot with
        | true =>
          exact .inr ⟨errorOf .format .readHeader 3, s.node, s.nodeCount, p, parseNode_rootLeaf hcap hr, by simp [parseErrors]⟩
        | false =>
          rw [parseNode_leaf hcap hr]
          simp only [parsed_allocNode, parsed_nodeCount]
          obtain ⟨v, p9, hr9⟩ := readBits_parsed 9 (s.parsed s.node (s.nodeCount + 1) p)
          rw [hr9]
          simp only [parsed_parsed, parsed_node, parsed_nodeCount]
          cases v with
          | none => exact .inr ⟨errorOf .truncated .readHeader 1, s.node, s.nodeCount + 1, p9, rfl, by simp [parseErrors]⟩
          | some v =>
            simp only [parsed_setNode]
            by_cases hv : v > 256
            · rw [if_pos hv]
              exact .inr ⟨errorOf .format .readHeader 2, s.node, s.nodeCount + 1, p9, rfl, by simp [parseErrors]⟩
            · rw [if_neg hv]
              refine .inl ⟨s.node.setIfInBounds s.nodeCount.toNat (Node.ofLeaf (BitVec.ofNat 9 v) 0), s.nodeCount + 1, p9,
                .leaf s.nodeCount.toNat ⟨v, by omega⟩, rfl, ParsedTree.leaf hlt (symOfField_ofNat (by omega)), ?_, ?_,
                fun i hi => setNode_get_ne (by omega), by simp⟩
              · rw [nodeCount_succ hlt]; rfl
              · rw [nodeCount_succ hlt]; omega

theorem readBits_at {s : State} {n : Nat} {bits rest : BitStr} (hn : 0 < n) (hl : bits.length = n)
    (h : s.restBits = bits ++ rest) :
    s.readBits n = (some (uint bits), s.parsed s.node s.nodeCount (s.inPos + BitVec.ofNat 64 n)) := by
  rw [readBits_ok hn (by rw [h]; simp; omega), h, List.take_left' hl]
  rfl

theorem restBits_after {s : State} {bits rest : BitStr} (hs : s.inBytes.length < Config.streamLimit)
    (h : s.restBits = bits ++ rest) (nodes : NodeStore) (count : BitVec 10) :
    (s.parsed nodes count (s.inPos + BitVec.ofNat 64 bits.length)).restBits = rest := by
  by_cases hb : bits = []
  · subst hb
    rw [List.length_nil, BitVec.add_zero]
    exact h
  · have h0 : 0 < bits.length := List.length_pos_iff.mpr hb
    have := restBits_advance (s := s) hs h0 (by rw [h]; simp)
    rw [h, List.drop_left' rfl] at this
    exact this

/-- R147: a parse of a header that fits reads exactly that header and makes a structurally equal tree. -/
theorem parseNode_header (tr : Tree) (fuel : Nat) (isRoot : Bool) (s : State) (rest : BitStr)
    (hs : s.inBytes.length < Config.streamLimit) (hroot : isRoot = true → tr.isNode = true) (hf : tr.height ≤ fuel)
    (hc : s.nodeCount.toNat + tr.indices.length ≤ 513) (hrest : s.restBits = tr.headerBits ++ rest) :
    ∃ nodes t, parseNode fuel isRoot s = .ok s.nodeCount.toNat
        (s.parsed nodes (s.nodeCount + BitVec.ofNat 10 tr.indices.length) (s.inPos + BitVec.ofNat 64 tr.headerBits.length)) ∧
      ParsedTree nodes s.nodeCount.toNat t ∧ t.sameShape tr = true ∧ t.indices.length = tr.indices.length ∧
      (∀ i, i < s.nodeCount.toNat → nodes[i]? = s.node[i]?) := by
  induction tr generalizing fuel isRoot s rest with
  | leaf i v =>
    cases fuel with
    | zero => simp [Tree.height] at hf
    | succ fuel =>
      simp only [Tree.indices, List.length_singleton] at hc
      have hcap : s.nodeCount.toNat ≠ Config.nodeCap := by simp only [Config.nodeCap]; omega
      obtain rfl : isRoot = false := by
        cases isRoot with
        | false => rfl
        | true => exact absurd (hroot rfl) (by simp [Tree.isNode])
      have hv := v.isLt
      have h1 : s.restBits = [true] ++ (bitsOf 9 v.val ++ rest) := hrest
      have hr := readBits_at (n := 1) (by omega) rfl h1
      have h2 := restBits_after hs h1 s.node (s.nodeCount + 1)
      have hr9 := readBits_at (n := 9) (by omega) (bitsOf_length 9 v.val) h2
      rw [uint_bitsOf, Nat.mod_eq_of_lt (by omega)] at hr9
      rw [parseNode_leaf hcap hr]
      simp only [parsed_allocNode, parsed_nodeCount, List.length_singleton, parsed_parsed, parsed_node, parsed_inPos] at hr9 ⊢
      rw [hr9]
      simp only [parsed_setNode]
      rw [if_neg (by omega)]
      refine ⟨s.node.setIfInBounds s.nodeCount.toNat (Node.ofLeaf (BitVec.ofNat 9 v.val) 0), .leaf s.nodeCount.toNat v, ?_,
        ParsedTree.leaf (by omega) (symOfField_ofNat (by omega)), by simp [Tree.sameShape], rfl,
        fun j hj => setNode_get_ne (by omega)⟩
      have e : s.inPos + BitVec.ofNat 64 1 + BitVec.ofNat 64 9 = s.inPos + BitVec.ofNat 64 (Tree.leaf i v).headerBits.length := by
        rw [BitVec.add_assoc]
        simp [Tree.headerBits]
      rw [e]
      rfl
  | node i l r ihl ihr =>
    cases fuel with
    | zero => simp [Tree.height] at hf
    | succ fuel =>
      simp only [Tree.indices, List.length_cons, List.length_append] at hc
      simp only [Tree.height] at hf
      have hcap : s.nodeCount.toNat ≠ Config.nodeCap := by simp only [Config.nodeCap]; omega
      have h1 : s.restBits = [false] ++ (l.headerBits ++ (r.headerBits ++ rest)) := by
        rw [hrest]; simp [Tree.headerBits]
      have hr := readBits_at (n := 1) (by omega) rfl h1
      rw [parseNode_internal hcap hr]
      simp only [parsed_allocNode, parsed_setNode, parsed_nodeCount]
      generalize hn0 : s.node.setIfInBounds s.nodeCount.toNat (Node.ofPair 0 0 0) = nodes0
      have h2 := restBits_after hs h1 nodes0 (s.nodeCount + 1)
      have hs1 := nodeCount_succ (c := s.nodeCount) (by omega)
      simp only [List.length_singleton] at h2
      obtain ⟨nodes1, t1, e1, ht1, sh1, len1, k1⟩ := ihl fuel false (s.parsed nodes0 (s.nodeCount + 1) (s.inPos + BitVec.ofNat 64 1)) _ hs
        (by simp) (by omega)
        (by simp only [parsed_nodeCount]; omega) h2
      rw [e1]
      have h3 := restBits_after (s := s.parsed nodes0 (s.nodeCount + 1) (s.inPos + BitVec.ofNat 64 1)) hs h2 nodes1 (s.nodeCount + 1 + BitVec.ofNat 10 l.indices.length)
      simp only [parsed_nodeCount, parsed_node, parsed_parsed, parsed_inPos, hs1] at ht1 k1 h3 ⊢
      simp only [Run.andThen]
      have hs2 : (s.nodeCount + 1 + BitVec.ofNat 10 l.indices.length).toNat = s.nodeCount.toNat + 1 + l.indices.length := by
        rw [BitVec.toNat_add, BitVec.toNat_ofNat, hs1]
        omega
      obtain ⟨nodes2, t2, e2, ht2, sh2, len2, k2⟩ := ihr fuel false (s.parsed nodes1 (s.nodeCount + 1 + BitVec.ofNat 10 l.indices.length)
        (s.inPos + BitVec.ofNat 64 1 + BitVec.ofNat 64 l.headerBits.length)) _ hs (by simp) (by omega)
        (by simp only [parsed_nodeCount]; omega) h3
      rw [e2]
      simp only [parsed_nodeCount, parsed_node, parsed_parsed, parsed_inPos, parsed_setNode, hs2] at ht2 k2 ⊢
      refine ⟨nodes2.setIfInBounds s.nodeCount.toNat (Node.ofPair 0 t1.index t2.index), .node s.nodeCount.toNat t1 t2, ?_, ?_, ?_,
        ?_, ?_⟩
      · rw [ht1.index, ht2.index]
        have e3 : s.nodeCount + 1 + BitVec.ofNat 10 l.indices.length + BitVec.ofNat 10 r.indices.length =
            s.nodeCount + BitVec.ofNat 10 (Tree.node i l r).indices.length := by
          have : (Tree.node i l r).indices.length = 1 + l.indices.length + r.indices.length := by
            simp only [Tree.indices, List.length_cons, List.length_append]; omega
          rw [this, BitVec.ofNat_add, BitVec.ofNat_add, BitVec.add_assoc, BitVec.add_assoc, ← BitVec.add_assoc 1]
          rfl
        have e4 : s.inPos + BitVec.ofNat 64 1 + BitVec.ofNat 64 l.headerBits.length + BitVec.ofNat 64 r.headerBits.length =
            s.inPos + BitVec.ofNat 64 (Tree.node i l r).headerBits.length := by
          have : (Tree.node i l r).headerBits.length = 1 + l.headerBits.length + r.headerBits.length := by
            simp only [Tree.headerBits, List.length_cons, List.length_append]; omega
          rw [this, BitVec.ofNat_add, BitVec.ofNat_add, BitVec.add_assoc, BitVec.add_assoc, BitVec.add_assoc]
        rw [e3, e4]
      · rw [← len1] at ht2
        exact ParsedTree.node (ht1.congr fun j h1 h2 => k2 j (by omega)) ht2 (by omega)
      · simp [Tree.sameShape, sh1, sh2]
      · simp only [Tree.indices, List.length_cons, List.length_append]; omega
      · intro j hj
        rw [setNode_get_ne (by omega), k2 j (by omega), k1 j (by omega), ← hn0]
        exact setNode_get_ne (by omega)

/-! A header that stops after whole nodes (R146). -/

/-- R87: the header is the nodes' bits in pre-order. -/
theorem Tree.headerBits_eq (t : Tree) : t.headerBits = t.preorder.flatMap nodeBits := by
  induction t with
  | leaf i v => simp [Tree.headerBits, Tree.preorder, nodeBits]
  | node i l r ihl ihr => simp [Tree.headerBits, Tree.preorder, nodeBits, ihl, ihr]

theorem Tree.preorder_length (t : Tree) : t.preorder.length = t.indices.length := by
  induction t with
  | leaf i v => rfl
  | node i l r ihl ihr => simp [Tree.preorder, Tree.indices, ihl, ihr]

theorem Tree.height_le_indices (t : Tree) : t.height ≤ t.indices.length := by
  have := t.height_le
  have := t.leafCount_pos
  have := t.indices_length
  omega

/-- A parse reads the whole nodes that a header begins with; whatever the next node then raises is raised. The fuel left covers
the nodes the store still has room for. -/
theorem parseNode_stem (tr : Tree) {pre post : List (Option Sym)} {fuel : Nat} {isRoot : Bool} {s : State} {rest : BitStr}
    (hs : s.inBytes.length < Config.streamLimit) (htr : tr.preorder = pre ++ post) (hpost : post ≠ [])
    (hrest : s.restBits = pre.flatMap nodeBits ++ rest) (hc : s.nodeCount.toNat + pre.length ≤ 513)
    (hf : 513 ≤ fuel + s.nodeCount.toNat) :
    ∃ nodes fuel', 513 ≤ fuel' + s.nodeCount.toNat + pre.length ∧
      ∀ e t, parseNode fuel' (isRoot && pre.isEmpty)
          (s.parsed nodes (s.nodeCount + BitVec.ofNat 10 pre.length) (s.inPos + BitVec.ofNat 64 (pre.flatMap nodeBits).length)) =
            .raise e t →
        parseNode fuel isRoot s = .raise e t := by
  induction tr generalizing pre post fuel isRoot s rest with
  | leaf i v =>
    cases pre with
    | nil =>
      refine ⟨s.node, fuel, by simpa using hf, fun e t h => ?_⟩
      simpa [parsed_self] using h
    | cons x pre =>
      simp only [Tree.preorder, List.cons_append, List.cons.injEq] at htr
      exact absurd (List.append_eq_nil_iff.mp htr.2.symm).2 hpost
  | node i l r ihl ihr =>
    cases pre with
    | nil =>
      refine ⟨s.node, fuel, by simpa using hf, fun e t h => ?_⟩
      simpa [parsed_self] using h
    | cons x pre =>
      simp only [Tree.preorder, List.cons_append, List.cons.injEq] at htr
      obtain ⟨rfl, htr⟩ := htr
      simp only [List.length_cons] at hc
      obtain ⟨fuel, rfl⟩ : ∃ f, fuel = f + 1 := ⟨fuel - 1, by omega⟩
      have hcap : s.nodeCount.toNat ≠ Config.nodeCap := by simp only [Config.nodeCap]; omega
      have h1 : s.restBits = [false] ++ (pre.flatMap nodeBits ++ rest) := hrest
      have hr := readBits_at (n := 1) (by omega) rfl h1
      have hcs := nodeCount_succ (c := s.nodeCount) (by omega)
      have hone : ∀ k, s.nodeCount + 1 + BitVec.ofNat 10 k = s.nodeCount + BitVec.ofNat 10 (k + 1) := fun k => by
        rw [BitVec.add_assoc, show (1 : BitVec 10) = BitVec.ofNat 10 1 from rfl, ← BitVec.ofNat_add, Nat.add_comm 1]
      have hbit : ∀ k, s.inPos + BitVec.ofNat 64 1 + BitVec.ofNat 64 k = s.inPos + BitVec.ofNat 64 (k + 1) := fun k => by
        rw [BitVec.add_assoc, ← BitVec.ofNat_add, Nat.add_comm 1]
      have hlen : ((none :: pre).flatMap nodeBits).length = (pre.flatMap nodeBits).length + 1 := by
        simp [nodeBits]
      generalize hu : s.parsed (s.node.setIfInBounds s.nodeCount.toNat (Node.ofPair 0 0 0)) (s.nodeCount + 1)
        (s.inPos + BitVec.ofNat 64 1) = u
      have huc : u.nodeCount = s.nodeCount + 1 := by rw [← hu]; rfl
      have hup : u.inPos = s.inPos + BitVec.ofNat 64 1 := by rw [← hu]; rfl
      have hus : u.inBytes.length < Config.streamLimit := by rw [← hu]; exact hs
      have hurest : u.restBits = pre.flatMap nodeBits ++ rest := by rw [← hu]; exact restBits_after hs h1 _ _
      have hup' : ∀ a b c, u.parsed a b c = s.parsed a b c := fun _ _ _ => by rw [← hu]; rfl
      have hstep : ∀ e t, (parseNode fuel false u).andThen (fun l u => (parseNode fuel false u).andThen fun r v =>
          .ok s.nodeCount.toNat (v.setNode s.nodeCount.toNat (Node.ofPair 0 l r))) = .raise e t →
          parseNode (fuel + 1) isRoot s = .raise e t := fun e t h => by
        rw [parseNode_internal hcap hr]
        simp only [parsed_allocNode, parsed_setNode, parsed_nodeCount]
        rw [hu]
        exact h
      have hcases : (∃ p, pre = l.preorder ++ p ∧ r.preorder = p ++ post) ∨ ∃ p, l.preorder = pre ++ p ∧ p ≠ [] := by
        rcases List.append_eq_append_iff.mp htr with ⟨p, hp, hr2⟩ | ⟨p, hp, hr2⟩
        · exact .inl ⟨p, hp, hr2⟩
        · cases p with
          | nil => exact .inl ⟨[], by simpa using hp.symm, by simpa using hr2.symm⟩
          | cons x p => exact .inr ⟨x :: p, hp, by simp⟩
      rcases hcases with ⟨p, hp, hr2⟩ | ⟨p, hp, hpne⟩
      · -- the left subtree is complete
        have hl := congrArg List.length hp
        rw [List.length_append, l.preorder_length] at hl
        have hlr : u.restBits = l.headerBits ++ (p.flatMap nodeBits ++ rest) := by
          rw [hurest, hp, List.flatMap_append, l.headerBits_eq, List.append_assoc]
        have hlh := l.height_le_indices
        obtain ⟨nodes1, t1, e1, ht1, -, -, -⟩ := parseNode_header l fuel false u _ hus (by simp) (by omega)
          (by rw [huc, hcs]; omega) hlr
        rw [hup'] at e1
        generalize hv : s.parsed nodes1 (u.nodeCount + BitVec.ofNat 10 l.indices.length)
          (u.inPos + BitVec.ofNat 64 l.headerBits.length) = v at e1
        have hvc : v.nodeCount = s.nodeCount + BitVec.ofNat 10 (l.indices.length + 1) := by
          rw [← hv, parsed_nodeCount, huc, hone]
        have hvn : v.nodeCount.toNat = s.nodeCount.toNat + (l.indices.length + 1) := by
          rw [hvc, BitVec.toNat_add, BitVec.toNat_ofNat]; omega
        have hvr : v.restBits = p.flatMap nodeBits ++ rest := by
          rw [← hv, ← hup']
          exact restBits_after hus hlr _ _
        obtain ⟨nodes, fuel', hf', h'⟩ := ihr (isRoot := false) (by rw [← hv]; exact hs) hr2 hpost hvr (by rw [hvn]; omega)
          (fuel := fuel) (by rw [hvn]; omega)
        refine ⟨nodes, fuel', by rw [hvn] at hf'; simp only [List.length_cons]; omega, fun e t he => hstep e t ?_⟩
        rw [e1]
        simp only [Run.andThen]
        rw [h' e t]
        have hvp : ∀ a b c, v.parsed a b c = s.parsed a b c := fun _ _ _ => by rw [← hv]; rfl
        have hpos : v.inPos + BitVec.ofNat 64 (p.flatMap nodeBits).length =
            s.inPos + BitVec.ofNat 64 ((none :: pre).flatMap nodeBits).length := by
          rw [hlen, ← hbit, hp, List.flatMap_append, ← l.headerBits_eq, List.length_append, BitVec.ofNat_add, ← BitVec.add_assoc,
            ← hv, parsed_inPos, hup]
        have hcnt : v.nodeCount + BitVec.ofNat 10 p.length = s.nodeCount + BitVec.ofNat 10 (none :: pre).length := by
          rw [hvc, BitVec.add_assoc, ← BitVec.ofNat_add, List.length_cons]
          congr 2
          omega
        rw [hvp, hpos, hcnt]
        simpa using he
      · -- the beginning ends inside the left subtree
        obtain ⟨nodes, fuel', hf', h'⟩ := ihl (isRoot := false) hus hp hpne hurest (by rw [huc, hcs]; omega) (fuel := fuel)
          (by rw [huc, hcs]; omega)
        refine ⟨nodes, fuel', by rw [huc, hcs] at hf'; simp only [List.length_cons]; omega, fun e t he => hstep e t ?_⟩
        rw [h' e t]
        · rfl
        · rw [hup', huc, hone, hup, hbit, ← hlen]
          simpa using he

end Sys2Proof.Machine
end

