-- ==== Sys2Proof/Laws/Descent.lean ====
section
/-! SUPPORT. What READ_BODY's loop does with a path: it descends to an internal node, and at a leaf it emits the leaf's byte and
returns to the root, or stops at EOS (R155-R159). And what it does on any bits: it never leaves the tree. -/

namespace Sys2Proof.Machine

/-- The state after a descent: CUR and the cursor have moved. -/
def State.walked (s : State) (cur : BitVec 10) (pos : BitVec 64) : State := { s with cur := cur, inPos := pos }

@[simp] theorem walked_cur (s : State) (c : BitVec 10) (p : BitVec 64) : (s.walked c p).cur = c := rfl

@[simp] theorem walked_inPos (s : State) (c : BitVec 10) (p : BitVec 64) : (s.walked c p).inPos = p := rfl

@[simp] theorem walked_node (s : State) (c : BitVec 10) (p : BitVec 64) : (s.walked c p).node = s.node := rfl

@[simp] theorem walked_root (s : State) (c : BitVec 10) (p : BitVec 64) : (s.walked c p).root = s.root := rfl

@[simp] theorem walked_inBytes (s : State) (c : BitVec 10) (p : BitVec 64) : (s.walked c p).inBytes = s.inBytes := rfl

@[simp] theorem walked_walked (s : State) (c d : BitVec 10) (p q : BitVec 64) : (s.walked c p).walked d q = s.walked d q := rfl

theorem walked_self (s : State) : s.walked s.cur s.inPos = s := rfl

theorem appendBits_walked (s : State) (bits : BitStr) (c : BitVec 10) (p : BitVec 64) :
    (s.walked c p).appendBits bits = (s.appendBits bits).walked c p := by
  have h : ∀ (b : Bool) (s : State), (s.walked c p).putBit b = (s.putBit b).walked c p := by
    intro b s
    unfold State.putBit
    dsimp only [State.walked]
    split <;> rfl
  have h2 : (s.walked c p).putBits bits = (s.putBits bits).walked c p := by
    induction bits generalizing s with
    | nil => rfl
    | cons b bits ih => rw [putBits_cons, putBits_cons, h, ih]
  simp only [State.appendBits, h2]
  rfl

@[simp] theorem appendBits_node (c : BitStr) (s : State) : (s.appendBits c).node = s.node := by rw [appendBits_eq]

@[simp] theorem appendBits_root (c : BitStr) (s : State) : (s.appendBits c).root = s.root := by rw [appendBits_eq]

@[simp] theorem appendBits_cur (c : BitStr) (s : State) : (s.appendBits c).cur = s.cur := by rw [appendBits_eq]

theorem walked_restBits (s : State) (c : BitVec 10) (p : BitVec 64) :
    (s.walked c p).restBits = (bytesBits s.inBytes).drop p.toNat := rfl

/-- The rest of the stream after a descent along `bits`. -/
theorem walked_restBits_after {s : State} {bits rest : BitStr} (hs : s.inBytes.length < Config.streamLimit)
    (h : s.restBits = bits ++ rest) (c : BitVec 10) :
    (s.walked c (s.inPos + BitVec.ofNat 64 bits.length)).restBits = rest := restBits_after hs h s.node s.nodeCount

/-- The child of an internal node on a bit (R155). -/
def Node.child (nd : Node) (b : Bool) : BitVec 10 := if b then nd.right else nd.left

/-! One turn of the loop. -/

theorem decodeLoop_eod (fuel : Nat) (s : State) (h : s.restBits = []) :
    decodeLoop (fuel + 1) s =
      .raise (errorOf .truncated .readBody 2) (s.walked s.cur (BitVec.ofNat 64 s.inLimit)) := by
  rw [decodeLoop, readBits_eod (by rw [h]; decide)]
  rfl

theorem readBits_bit {s : State} {b : Bool} {rest : BitStr} (h : s.restBits = b :: rest) :
    s.readBits 1 = (some b.toNat, s.walked s.cur (s.inPos + BitVec.ofNat 64 1)) := by
  rw [readBits_at (n := 1) (bits := [b]) (by omega) rfl h, uint_singleton]
  rfl

theorem childOf_eq (nd : Node) (b : Bool) : childOf nd b.toNat = nd.child b := by cases b <;> rfl

/-- The loop once, its record updates named. -/
theorem decodeLoop_succ (fuel : Nat) (s : State) :
    decodeLoop (fuel + 1) s =
      match s.readBits 1 with
      | (none, t) => .raise (errorOf .truncated .readBody 2) t
      | (some b, t) =>
        match t.node[t.cur.toNat]? with
        | none => .fault .nodeIndex
        | some here =>
          match t.node[(childOf here b).toNat]? with
          | none => .fault .nodeIndex
          | some nd =>
            match nd.kind with
            | .internal => decodeLoop fuel (t.walked (childOf here b) t.inPos)
            | .leaf =>
              if nd.sym.toNat = 256 then .ok () (t.walked (childOf here b) t.inPos)
              else
                decodeLoop fuel ((State.writeBits 8 nd.sym.toNat (t.walked (childOf here b) t.inPos)).walked t.root
                  (State.writeBits 8 nd.sym.toNat (t.walked (childOf here b) t.inPos)).inPos) := rfl

/-- One turn of the loop on a bit. -/
theorem decodeLoop_turn {fuel : Nat} {s t : State} {b : Nat} {here nd : Node} (h : s.readBits 1 = (some b, t))
    (hh : t.node[t.cur.toNat]? = some here) (hn : t.node[(childOf here b).toNat]? = some nd) :
    decodeLoop (fuel + 1) s =
      match nd.kind with
      | .internal => decodeLoop fuel (t.walked (childOf here b) t.inPos)
      | .leaf =>
        if nd.sym.toNat = 256 then .ok () (t.walked (childOf here b) t.inPos)
        else decodeLoop fuel ((State.writeBits 8 nd.sym.toNat (t.walked (childOf here b) t.inPos)).walked t.root t.inPos) := by
  have hw : (State.writeBits 8 nd.sym.toNat (t.walked (childOf here b) t.inPos)).inPos = t.inPos := by
    rw [writeBits_eq, appendBits_walked, walked_inPos]
  rw [decodeLoop_succ, h]
  simp only [hh, hn, hw]

theorem decodeLoop_internal {fuel : Nat} {s : State} {b : Bool} {rest : BitStr} {here nd : Node} (h : s.restBits = b :: rest)
    (hh : s.node[s.cur.toNat]? = some here) (hn : s.node[(here.child b).toNat]? = some nd) (hk : nd.kind = .internal) :
    decodeLoop (fuel + 1) s = decodeLoop fuel (s.walked (here.child b) (s.inPos + BitVec.ofNat 64 1)) := by
  rw [decodeLoop_turn (readBits_bit h) (here := here) (nd := nd) hh (by rw [childOf_eq]; exact hn), hk, childOf_eq]
  rfl

theorem decodeLoop_eos {fuel : Nat} {s : State} {b : Bool} {rest : BitStr} {here nd : Node} (h : s.restBits = b :: rest)
    (hh : s.node[s.cur.toNat]? = some here) (hn : s.node[(here.child b).toNat]? = some nd) (hk : nd.kind = .leaf)
    (hv : nd.sym.toNat = 256) :
    decodeLoop (fuel + 1) s = .ok () (s.walked (here.child b) (s.inPos + BitVec.ofNat 64 1)) := by
  rw [decodeLoop_turn (readBits_bit h) (here := here) (nd := nd) hh (by rw [childOf_eq]; exact hn), hk, childOf_eq]
  exact if_pos hv

theorem decodeLoop_leaf {fuel : Nat} {s : State} {b : Bool} {rest : BitStr} {here nd : Node} (h : s.restBits = b :: rest)
    (hh : s.node[s.cur.toNat]? = some here) (hn : s.node[(here.child b).toNat]? = some nd) (hk : nd.kind = .leaf)
    (hv : nd.sym.toNat ≠ 256) :
    decodeLoop (fuel + 1) s =
      decodeLoop fuel ((s.appendBits (bitsOf 8 nd.sym.toNat)).walked s.root (s.inPos + BitVec.ofNat 64 1)) := by
  rw [decodeLoop_turn (readBits_bit h) (here := here) (nd := nd) hh (by rw [childOf_eq]; exact hn), hk, childOf_eq]
  simp only [if_neg hv, writeBits_eq, appendBits_walked, walked_walked, walked_root, walked_inPos]

/-! A whole path. -/

theorem followBits_internal {nodes : NodeStore} {n m : Nat} {b : Bool} {q : BitStr} (h : followBits nodes n (b :: q) = some m) :
    ∃ nd, nodes[n]? = some nd ∧ nd.kind = .internal ∧ followBits nodes (nd.child b).toNat q = some m := by
  simp only [followBits] at h
  split at h
  · rename_i l r s w he
    refine ⟨_, he, rfl, ?_⟩
    cases b <;> exact h
  · cases h

/-- R155, R156: a path to an internal node moves CUR there. -/
theorem decodeLoop_descend {nodes : NodeStore} (q : BitStr) {fuel n : Nat} {s : State} {rest : BitStr} {nd : Node}
    (hn : s.node = nodes) (hs : s.inBytes.length < Config.streamLimit) (h : s.restBits = q ++ rest)
    (hf : followBits nodes s.cur.toNat q = some n) (hnd : nodes[n]? = some nd) (hk : nd.kind = .internal) :
    decodeLoop (fuel + q.length) s = decodeLoop fuel (s.walked (BitVec.ofNat 10 n) (s.inPos + BitVec.ofNat 64 q.length)) := by
  induction q generalizing s with
  | nil =>
    simp only [followBits, Option.some.injEq] at hf
    subst hf
    have : s.walked (BitVec.ofNat 10 s.cur.toNat) (s.inPos + BitVec.ofNat 64 ([] : BitStr).length) = s := by
      rw [BitVec.ofNat_toNat, BitVec.setWidth_eq, List.length_nil, BitVec.add_zero]
      rfl
    rw [this]
    rfl
  | cons b q ih =>
    obtain ⟨here, hh, hki, hf'⟩ := followBits_internal hf
    obtain ⟨nd', hnd', hk'⟩ : ∃ nd', nodes[(here.child b).toNat]? = some nd' ∧ nd'.kind = .internal := by
      cases q with
      | nil =>
        simp only [followBits, Option.some.injEq] at hf'
        exact ⟨nd, hf' ▸ hnd, hk⟩
      | cons b' q' =>
        obtain ⟨x, hx, hxk, -⟩ := followBits_internal hf'
        exact ⟨x, hx, hxk⟩
    subst hn
    have hb : s.restBits = [b] ++ (q ++ rest) := h
    rw [List.length_cons, ← Nat.add_assoc, decodeLoop_internal h hh hnd' hk']
    rw [ih (s := s.walked (here.child b) (s.inPos + BitVec.ofNat 64 1)) rfl hs (walked_restBits_after hs hb _) hf']
    simp only [walked_walked, walked_inPos]
    rw [BitVec.add_assoc, ← BitVec.ofNat_add, Nat.add_comm 1]

/-- R155, R157, R159: a path to a leaf. -/
theorem decodeLoop_path {nodes : NodeStore} (q : BitStr) {fuel n : Nat} {s : State} {rest : BitStr} {nd : Node}
    (hn : s.node = nodes) (hs : s.inBytes.length < Config.streamLimit) (h : s.restBits = q ++ rest) (hq : q ≠ [])
    (hf : followBits nodes s.cur.toNat q = some n) (hnd : nodes[n]? = some nd) (hk : nd.kind = .leaf) :
    decodeLoop (fuel + q.length) s =
      if nd.sym.toNat = 256 then .ok () (s.walked (BitVec.ofNat 10 n) (s.inPos + BitVec.ofNat 64 q.length))
      else decodeLoop fuel
        ((s.appendBits (bitsOf 8 nd.sym.toNat)).walked s.root (s.inPos + BitVec.ofNat 64 q.length)) := by
  induction q generalizing s with
  | nil => exact absurd rfl hq
  | cons b q ih =>
    subst hn
    obtain ⟨here, hh, hki, hf'⟩ := followBits_internal hf
    have hb : s.restBits = [b] ++ (q ++ rest) := h
    cases q with
    | nil =>
      simp only [followBits, Option.some.injEq] at hf'
      have hc : BitVec.ofNat 10 n = here.child b := by rw [← hf', BitVec.ofNat_toNat, BitVec.setWidth_eq]
      have hnd' : s.node[(here.child b).toNat]? = some nd := hf' ▸ hnd
      rw [List.length_singleton, hc]
      split
      · exact decodeLoop_eos h hh hnd' hk ‹_›
      · exact decodeLoop_leaf h hh hnd' hk ‹_›
    | cons b' q' =>
      obtain ⟨x, hx, hxk, -⟩ := followBits_internal hf'
      rw [List.length_cons, ← Nat.add_assoc, decodeLoop_internal h hh hx hxk]
      rw [ih (s := s.walked (here.child b) (s.inPos + BitVec.ofNat 64 1)) rfl hs (walked_restBits_after hs hb _) (by simp) hf']
      simp only [walked_walked, walked_inPos, walked_root, appendBits_walked]
      rw [BitVec.add_assoc, ← BitVec.ofNat_add, Nat.add_comm 1]

/-- The paths of a valid tree's leaves, followed through the node store (R131, R155). -/
theorem followBits_path {s : State} {tr : Tree} (ht : s.tree = .ok tr) {v : Sym} {q : BitStr} (h : (v, q) ∈ tr.paths []) :
    ∃ n nd, followBits s.node s.root.toNat q = some n ∧ s.node[n]? = some nd ∧ nd.kind = .leaf ∧ nd.sym.toNat = v.val := by
  obtain ⟨h1, h2, -⟩ := treeAt_ok_iff.mp ht
  obtain ⟨n, nd, -, hf, hnd, hk, hv⟩ := Tree.follow_path h2 h
  exact ⟨n, nd, h1 ▸ hf, hnd, hk, symOfField_val hv⟩

/-- In a tree with an internal root no path is empty (R132). -/
theorem Tree.path_ne_nil {t : Tree} (hn : t.isNode = true) {v : Sym} {q : BitStr} (h : (v, q) ∈ t.paths []) : q ≠ [] := by
  cases t with
  | leaf i w => cases hn
  | node i l r =>
    obtain ⟨q', rfl, -⟩ | ⟨q', rfl, -⟩ := Tree.mem_paths_node.mp h <;> simp

/-- R155-R157: READ_BODY's loop over paths to leaves that are not EOS emits their bytes. -/
theorem decodeLoop_items {tr : Tree} (items : List (Sym × BitStr)) {fuel : Nat} {s : State} {rest : BitStr}
    (ht : s.tree = .ok tr) (hn : tr.isNode = true) (hs : s.inBytes.length < Config.streamLimit) (hc : s.cur = s.root)
    (hi : ∀ x ∈ items, x ∈ tr.paths [] ∧ x.1 ≠ Config.eos) (h : s.restBits = items.flatMap Prod.snd ++ rest) :
    decodeLoop (fuel + (items.flatMap Prod.snd).length) s =
      decodeLoop fuel ((s.appendBits (items.flatMap fun q => bitsOf 8 q.1.val)).walked s.root
        (s.inPos + BitVec.ofNat 64 (items.flatMap Prod.snd).length)) := by
  induction items generalizing s with
  | nil =>
    simp only [List.flatMap_nil, List.length_nil, appendBits_nil, BitVec.add_zero, Nat.add_zero]
    rw [← hc]
    rfl
  | cons x items ih =>
    obtain ⟨v, q⟩ := x
    obtain ⟨hp, hv⟩ := hi (v, q) (by simp)
    obtain ⟨n, nd, hf, hnd, hk, hsym⟩ := followBits_path ht hp
    have hne : nd.sym.toNat ≠ 256 := by
      rw [hsym]
      exact fun e => hv (Fin.ext e)
    simp only [List.flatMap_cons, List.append_assoc] at h
    rw [List.flatMap_cons, List.length_append, Nat.add_comm q.length, ← Nat.add_assoc,
      decodeLoop_path q rfl hs h (Tree.path_ne_nil hn hp) (hc ▸ hf) hnd hk, if_neg hne, hsym]
    have hrest := walked_restBits_after hs h s.root
    have hfr : ((s.appendBits (bitsOf 8 v.val)).walked s.root (s.inPos + BitVec.ofNat 64 q.length)).restBits =
        items.flatMap Prod.snd ++ rest := by
      rw [← appendBits_walked, appendBits_restBits]
      exact hrest
    rw [ih (s := (s.appendBits (bitsOf 8 v.val)).walked s.root (s.inPos + BitVec.ofNat 64 q.length)) ?_ ?_ ?_
      (fun x hx => hi x (by simp [hx])) hfr]
    · simp only [walked_root, appendBits_root, walked_inPos, appendBits_walked, walked_walked, List.flatMap_cons]
      rw [← appendBits_append, BitVec.add_assoc, ← BitVec.ofNat_add, Nat.add_comm q.length]
    · rw [← ht]
      simp only [State.tree, walked_node, walked_root, appendBits_node, appendBits_root]
    · simp only [walked_inBytes, appendBits_inBytes]; exact hs
    · simp only [walked_cur, walked_root, appendBits_root]

/-- Every index of a stored tree holds a node. -/
theorem Tree.node_of_mem {nodes : NodeStore} {t : Tree} (ht : t.stored nodes) {n : Nat} (hn : n ∈ t.indices) :
    ∃ nd, nodes[n]? = some nd := by
  induction t with
  | leaf i v =>
    obtain ⟨nd, h, -⟩ := ht
    exact ⟨nd, (List.mem_singleton.mp hn) ▸ h⟩
  | node i l r ihl ihr =>
    obtain ⟨⟨nd, h, -⟩, hl, hr⟩ := ht
    simp only [Tree.indices, List.mem_cons, List.mem_append] at hn
    obtain rfl | hn | hn := hn
    · exact ⟨nd, h⟩
    · exact ihl hl hn
    · exact ihr hr hn

/-- What every run of READ_BODY's loop gives from an internal node of a stored tree, whatever the bits are: it ends at an EOS leaf
or in TRUNCATED(2), it reads only what is left, and it emits at most one byte for each bit (R155, R158, R160). -/
theorem decodeLoop_result {tr : Tree} {fuel : Nat} {s : State} (ht : s.tree = .ok tr) (hn : tr.isNode = true)
    (hc : s.cur.toNat ∈ tr.indices) (hk : ∃ nd, s.node[s.cur.toNat]? = some nd ∧ nd.kind = .internal)
    (hs : s.inBytes.length < Config.streamLimit) (hp : s.inPos.toNat ≤ s.inLimit) (hf : s.restBits.length < fuel) :
    ∃ c pos bits, ((decodeLoop fuel s = .ok () ((s.appendBits bits).walked c pos) ∧
        ∃ nd, s.node[c.toNat]? = some nd ∧ nd.kind = .leaf ∧ nd.sym.toNat = 256) ∨
      decodeLoop fuel s = .raise (errorOf .truncated .readBody 2) ((s.appendBits bits).walked c pos)) ∧
      c.toNat ∈ tr.indices ∧ s.inPos.toNat ≤ pos.toNat ∧ pos.toNat ≤ s.inLimit ∧
      bits.length ≤ 8 * (pos.toNat - s.inPos.toNat) ∧ bits.length % 8 = 0 := by
  induction fuel generalizing s with
  | zero => omega
  | succ fuel ih =>
    cases hr : s.restBits with
    | nil =>
      refine ⟨s.cur, BitVec.ofNat 64 s.inLimit, [], .inr ?_, hc, ?_, ?_, by simp, rfl⟩
      · rw [appendBits_nil]; exact decodeLoop_eod fuel s hr
      · rw [inLimit_toNat hs]; exact hp
      · rw [inLimit_toNat hs]
    | cons b rest =>
      obtain ⟨h1, h2, -⟩ := treeAt_ok_iff.mp ht
      obtain ⟨here, hh, hki⟩ := hk
      have hlen := restBits_length s
      have hlen1 : s.restBits.length = rest.length + 1 := by rw [hr]; rfl
      have hpos := inPos_add_toNat (n := 1) hs (by omega) (by omega)
      have hcm : (here.child b).toNat ∈ tr.indices :=
        (Tree.children_mem h2 hc hh hki).subset (by cases b <;> simp [Node.child])
      obtain ⟨nd, hnd⟩ := Tree.node_of_mem h2 hcm
      have hrest : ∀ c, (s.walked c (s.inPos + BitVec.ofNat 64 1)).restBits = rest := walked_restBits_after hs (bits := [b]) hr
      have hlim : ∀ c p, (s.walked c p).inLimit = s.inLimit := fun _ _ => rfl
      cases hkd : nd.kind with
      | internal =>
        rw [decodeLoop_internal hr hh hnd hkd]
        obtain ⟨c, pos, bits, he, hci, hp1, hp2, hb, hm⟩ := ih (s := s.walked (here.child b) (s.inPos + BitVec.ofNat 64 1)) ht hcm
          ⟨nd, hnd, hkd⟩ hs (by rw [walked_inPos, hpos, hlim]; omega) (by rw [hrest]; omega)
        rw [walked_inPos, hpos] at hp1 hb
        refine ⟨c, pos, bits, ?_, hci, by omega, hp2, by omega, hm⟩
        simpa only [appendBits_walked, walked_walked, walked_node] using he
      | leaf =>
        by_cases hv : nd.sym.toNat = 256
        · refine ⟨here.child b, s.inPos + BitVec.ofNat 64 1, [], .inl ⟨?_, nd, hnd, hkd, hv⟩, hcm, by omega, by omega, by simp, rfl⟩
          rw [appendBits_nil]; exact decodeLoop_eos hr hh hnd hkd hv
        · rw [decodeLoop_leaf hr hh hnd hkd hv]
          obtain ⟨rn, hrn, hrk⟩ : ∃ nd, s.node[s.root.toNat]? = some nd ∧ nd.kind = .internal := by
            cases tr with
            | leaf i v => cases hn
            | node i l r =>
              obtain ⟨⟨x, hx, hxk, -⟩, -, -⟩ := h2
              exact ⟨x, h1 ▸ hx, hxk⟩
          have hin : ∀ bits c p, ((s.appendBits bits).walked c p).inLimit = s.inLimit := by
            intro bits c p
            simp only [State.inLimit, walked_inBytes, appendBits_inBytes]
          have hrb : ((s.appendBits (bitsOf 8 nd.sym.toNat)).walked s.root (s.inPos + BitVec.ofNat 64 1)).restBits = rest := by
            rw [← appendBits_walked, appendBits_restBits, hrest]
          have htr : ((s.appendBits (bitsOf 8 nd.sym.toNat)).walked s.root (s.inPos + BitVec.ofNat 64 1)).tree = .ok tr := by
            rw [← ht]
            simp only [State.tree, walked_node, walked_root, appendBits_node, appendBits_root]
          obtain ⟨c, pos, bits, he, hci, hp1, hp2, hb, hm⟩ := ih htr (by rw [walked_cur, ← h1]; exact tr.index_mem)
            ⟨rn, by simpa only [walked_node, walked_cur, appendBits_node] using hrn, hrk⟩
            (by rw [walked_inBytes, appendBits_inBytes]; exact hs) (by rw [walked_inPos, hpos, hin]; omega) (by rw [hrb]; omega)
          rw [walked_inPos, hpos] at hp1 hb
          rw [hin] at hp2
          have h8 : ∀ n v, (bitsOf n v).length = n := by
            intro n v
            induction n with
            | zero => rfl
            | succ n ih => simp [bitsOf, ih]
          have happ : (s.appendBits (bitsOf 8 nd.sym.toNat)).appendBits bits = s.appendBits (bitsOf 8 nd.sym.toNat ++ bits) :=
            (appendBits_append _ _ _).symm
          refine ⟨c, pos, bitsOf 8 nd.sym.toNat ++ bits, ?_, hci, by omega, hp2, ?_, ?_⟩
          · simpa only [appendBits_walked, walked_walked, walked_node, appendBits_node, happ] using he
          · rw [List.length_append, h8]; omega
          · rw [List.length_append, h8]; omega

/-- READ_BODY's loop starts at the root (R155). -/
theorem runReadBody_eq {s : State} (hv : s.treeValid = true) (ho : s.outClosed = false) :
    runReadBody s = decodeLoop (8 * s.inBytes.length + 1) (s.walked s.root s.inPos) := by
  have h : (!s.outClosed) = true := by rw [ho]; rfl
  rw [runReadBody, require, if_pos hv]
  change (require (!s.outClosed) (errorOf .outClosed .readBody 0) s).andThen _ = _
  rw [require, if_pos h]
  rfl

end Sys2Proof.Machine
end

