-- ==== Sys2Proof/Laws/Commands.lean ====
section
/-! SUPPORT. One specification lemma for each primitive command's Exec, under the conditions in which it does not raise: the state it
ends in, as one update of the state it starts in. The composites' proofs chain them (R167, R168). -/

namespace Sys2Proof.Machine

/-! The packer as a function of its two parts (R64). -/

/-- The output bytes and the partial byte after the bits `c`. -/
def packBits (ob : List Byte) (p : BitStr) (c : BitStr) : List Byte × BitStr :=
  c.foldl (fun x b =>
    if (x.2 ++ [b]).length = 8 then (x.1 ++ [BitVec.ofNat 8 (uint (x.2 ++ [b]))], []) else (x.1, x.2 ++ [b])) (ob, p)

theorem putBits_packed (c : BitStr) (s : State) :
    s.putBits c = { s with outBytes := (packBits s.outBytes s.pend c).1, pend := (packBits s.outBytes s.pend c).2 } := by
  induction c generalizing s with
  | nil => rfl
  | cons b c ih =>
    have hb : s.putBit b = { s with outBytes := (packBits s.outBytes s.pend [b]).1, pend := (packBits s.outBytes s.pend [b]).2 } := by
      unfold State.putBit packBits
      dsimp only [List.foldl_cons, List.foldl_nil]
      split <;> rfl
    rw [putBits_cons, ih, hb]
    rfl

theorem appendBits_packed (c : BitStr) (s : State) :
    s.appendBits c = { s with
      outBytes := (packBits s.outBytes s.pend c).1, pend := (packBits s.outBytes s.pend c).2
      outPos := s.outPos + BitVec.ofNat 64 c.length } := by
  rw [State.appendBits, putBits_packed]

theorem packBits_append (ob : List Byte) (p c d : BitStr) :
    packBits ob p (c ++ d) = packBits (packBits ob p c).1 (packBits ob p c).2 d := by
  simp only [packBits, List.foldl_append]

/-- R64: what a writing command emits. -/
theorem packBits_emits {s : State} (h : s.pend.length < 8) (c : BitStr) :
    s.Emits c (packBits s.outBytes s.pend c).1 (packBits s.outBytes s.pend c).2 := by
  have h1 := appendBits_outBytes_grow c s
  have h2 := appendBits_outBits c s
  have h3 := appendBits_pend_lt (c := c) h
  simp only [State.outBits] at h2
  rw [appendBits_packed] at h1 h2 h3
  exact ⟨h1, h2, h3⟩

/-! COUNT. -/

/-- The FREQ table of a list of data symbols (R115). -/
def countTable (cs : List Sym) : FreqTable := (tally (Vector.replicate 257 0) cs).set 256 1

theorem tally_zero (cs : List Sym) (c : Sym) (h : cs.length < 2 ^ 32) :
    (tally (Vector.replicate 257 0) cs)[c].toNat = cs.count c := by
  rw [tally_get]
  have := List.count_le_length (a := c) (l := cs)
  simp only [Fin.getElem_fin, Vector.getElem_replicate]
  rw [show (0 : Word) = 0#32 from rfl, BitVec.zero_add, BitVec.toNat_ofNat]
  omega

theorem countTable_eos (cs : List Sym) : (countTable cs)[Config.eos] = 1 := by simp [countTable, Config.eos]

theorem countTable_get {cs : List Sym} {c : Sym} (h : cs.length < 2 ^ 32) (hc : c ≠ Config.eos) :
    (countTable cs)[c].toNat = cs.count c := by
  have hc' : (256 : Nat) ≠ c.val := fun e => hc (Fin.ext e.symm)
  rw [← tally_zero cs c h]
  simp [countTable, Vector.getElem_set_ne, hc']

theorem runCount_ok {s : State} (hs : s.inBytes.length < Config.streamLimit)
    (hl : (byteFields s.restBits).length ≤ Config.maxInput) :
    runCount s = .ok () { s with
      freq := countTable (byteFields s.restBits), freqTotal := BitVec.ofNat 32 (byteFields s.restBits).length
      inPos := BitVec.ofNat 64 s.inLimit, freqValid := true, treeValid := false, codesValid := false } := by
  have hr : (State.restBits { s.startCount with freq := Vector.replicate 257 0 }) = s.restBits := rfl
  unfold runCount
  dsimp only
  rw [countLoop_ok]
  · simp only [Run.andThen]
    have : (0 : Word) + BitVec.ofNat 32 (byteFields s.restBits).length = BitVec.ofNat 32 (byteFields s.restBits).length :=
      BitVec.zero_add _
    rw [hr, this]
    rfl
  · exact hs
  · rw [hr, restBits_length, State.inLimit]; omega
  · rw [hr, show (0 : Word).toNat = 0 from rfl, Nat.zero_add]; exact hl

/-! The counts of a FREQ table (R120). -/

theorem sum_filter {l : List Sym} {f : Sym → Nat} {p : Sym → Bool} (h : ∀ c, p c = false → f c = 0) :
    ((l.filter p).map f).sum = (l.map f).sum := by
  induction l with
  | nil => rfl
  | cons a l ih =>
    by_cases hp : p a
    · rw [List.filter_cons_of_pos hp]; simp [ih]
    · rw [List.filter_cons_of_neg hp, ih]; simp [h a (by simpa using hp)]

theorem freq_toList (f : FreqTable) : f.toList = symbols.map (fun c => f[c]) := by
  apply List.ext_getElem
  · simp [symbols]
  · intro i h1 h2
    simp [symbols]

theorem countSum_eq (f : FreqTable) : countSum f = (f.toList.map BitVec.toNat).sum := by
  rw [freq_toList, List.map_map, countSum, positives, sum_filter]
  · rfl
  · intro c hc
    simp only [decide_eq_false_iff_not] at hc
    bv_omega

theorem positives_nodup (f : FreqTable) : (positives f).Nodup := (List.nodup_finRange 257).filter _

theorem mem_positives {f : FreqTable} {c : Sym} : c ∈ positives f ↔ 0 < f[c] := by simp [positives, symbols]

theorem eos_positive {s : State} (h : FreqOk s) : Config.eos ∈ positives s.freq := by
  rw [mem_positives, h.eos_one]
  decide

/-- Counting each symbol of a list and then the one EOS: the counts sum to the list's length plus one (R38, R120). -/
theorem countTable_total {cs : List Sym} (h : cs.length < 2 ^ 32) (he : Config.eos ∉ cs) :
    ((countTable cs).toList.map BitVec.toNat).sum = cs.length + 1 := by
  rw [freq_toList, List.map_map]
  have hg : ∀ c : Sym, (BitVec.toNat ∘ fun c => (countTable cs)[c]) c = (Config.eos :: cs).count c := by
    intro c
    simp only [Function.comp]
    by_cases hc : c = Config.eos
    · subst hc
      rw [countTable_eos, List.count_cons_self, List.count_eq_zero_of_not_mem he]
      rfl
    · rw [countTable_get h hc, List.count_cons_of_ne (Ne.symm hc)]
  rw [List.map_congr_left fun c _ => hg c]
  have hsum : ∀ l : List Sym, (symbols.map fun c => l.count c).sum = l.length := by
    intro l
    rw [symbols, ← Fin.sum_univ_def]
    induction l with
    | nil => simp
    | cons a l ih => simp [List.count_cons, Finset.sum_add_distrib, ih]
  rw [hsum]
  rfl

/-! BUILD. -/

theorem wrapLone_internal {r next : Nat} {nodes : NodeStore} (h : ∀ nd, nodes[r]? = some nd → nd.kind = .internal) :
    wrapLone r next nodes = (r, next, nodes) := by
  unfold wrapLone
  split
  · rename_i he
    have := h _ he
    cases this
  · rfl

theorem wrapLone_leaf {r next : Nat} {nodes : NodeStore} {f : BitVec 9} {w : Word} (h : nodes[r]? = some (Node.ofLeaf f w)) :
    wrapLone r next nodes =
      (next + 1, next + 2, (nodes.setIfInBounds next (Node.ofLeaf 0 0)).setIfInBounds (next + 1) (Node.ofPair w r next)) := by
  unfold wrapLone
  rw [h]
  rfl

/-- With two positive counts or more, nothing is wrapped: the tree is the merge loop's (R119). -/
theorem buildTree_many {freq : FreqTable} (nodes : NodeStore) (h2 : 2 ≤ (positives freq).length) :
    ∃ e nodes0 nodes', e.idx = 2 * (positives freq).length - 2 ∧
      buildTree freq nodes = some (2 * (positives freq).length - 2, 2 * (positives freq).length - 1, nodes') ∧
      (∀ (i : Nat) (c : Sym), (positives freq)[i]? = some c → nodes0[i]? = some (Node.ofLeaf (fieldOfSym c) freq[c])) ∧
      MergeInv (positives freq).length nodes0 (2 * (positives freq).length - 1) nodes' [e] ∧
      Forest (positives freq) (2 * (positives freq).length - 1) nodes' [e] ∧ Weighted (countSum freq) [e] := by
  obtain ⟨e, nodes0, nodes', hb, hget, hM, hF, hW⟩ := buildTree_result freq nodes (fun h => by rw [h] at h2; simp at h2)
  have hl := hM.last (by omega)
  simp only [List.map_cons, List.map_nil, List.mem_singleton] at hl
  have hi : e.idx = 2 * (positives freq).length - 2 := by omega
  refine ⟨e, nodes0, nodes', hi, ?_, hget, hM, hF, hW⟩
  rw [hb, hi, wrapLone_internal]
  intro nd hnd
  obtain ⟨a, b, x, y, -, -, h3, -⟩ := hM.merged (2 * (positives freq).length - 2) (by omega) (by omega)
  rw [h3] at hnd
  cases hnd
  rfl

/-- With EOS alone positive, its leaf is wrapped (R121). -/
theorem buildTree_lone {freq : FreqTable} (nodes : NodeStore) (h : positives freq = [Config.eos]) :
    ∃ nodes', buildTree freq nodes = some (2, 3, nodes') ∧ nodes'[0]? = some (Node.ofLeaf 256 freq[Config.eos]) ∧
      nodes'[1]? = some (Node.ofLeaf 0 0) ∧ nodes'[2]? = some (Node.ofPair freq[Config.eos] 0 1) := by
  obtain ⟨e, nodes0, nodes', hb, hget, hM, -, -⟩ := buildTree_result freq nodes (by simp [h])
  rw [h] at hb hM hget
  simp only [List.length_singleton, Nat.mul_one, Nat.reduceSub] at hb hM
  have h0 := (hM.mem e.idx).mp (by simp)
  have hi : e.idx = 0 := by have := h0.1; omega
  have hn := hM.keep 0 (by omega)
  rw [hget 0 Config.eos rfl] at hn
  rw [hi, wrapLone_leaf hn] at hb
  refine ⟨_, hb, ?_, ?_, ?_⟩
  · rw [Vector.getElem?_setIfInBounds_ne (by omega), Vector.getElem?_setIfInBounds_ne (by omega), hn]
    rfl
  · simp
  · simp

/-- What BUILD leaves when FREQ is as COUNT makes it (R38, R122). -/
theorem runBuild_ok {s : State} (hv : s.freqValid = true) (hF : FreqOk s) :
    ∃ (nodes : NodeStore) (root count : BitVec 10) (tr : Tree), runBuild s = .ok () { s with
        node := nodes, root := root, nodeCount := count, treeSrc := false, treeValid := true, codesValid := false } ∧
      tr.stored nodes ∧ tr.index = root.toNat ∧ tr.isNode = true ∧ tr.indices.Perm (List.range count.toNat) ∧
      count.toNat ≤ Config.nodeCap ∧ tr.syms.Nodup ∧ ∀ c ∈ positives s.freq, c ∈ tr.syms := by
  have hrun : ∀ {r c nodes}, buildTree s.freq s.node = some (r, c, nodes) → runBuild s = .ok () { s with
      node := nodes, root := BitVec.ofNat 10 r, nodeCount := BitVec.ofNat 10 c
      treeSrc := false, treeValid := true, codesValid := false } := by
    intro r c nodes hb
    rw [runBuild, require, if_pos hv]
    simp only [Run.andThen, State.startTree, hb]
  have hm := eos_positive hF
  by_cases h2 : 2 ≤ (positives s.freq).length
  · obtain ⟨e, nodes0, nodes', he, hb, hget, hM, ⟨F, hs, hi, hsy⟩, hW⟩ := buildTree_many s.node h2
    have h1 := hs _ (List.mem_singleton.mpr rfl)
    have hle := positives_length_le s.freq
    simp only [List.flatMap_singleton] at hi hsy
    have hlen := hi.length_eq
    rw [List.length_range] at hlen
    have hnode : (F e.idx).isNode = true := by
      cases ht : F e.idx with
      | leaf i v => rw [ht] at hlen; simp [Tree.indices] at hlen; omega
      | node i l r => rfl
    have e1 : (BitVec.ofNat 10 (2 * (positives s.freq).length - 2)).toNat = 2 * (positives s.freq).length - 2 := by
      rw [BitVec.toNat_ofNat]; omega
    have e2 : (BitVec.ofNat 10 (2 * (positives s.freq).length - 1)).toNat = 2 * (positives s.freq).length - 1 := by
      rw [BitVec.toNat_ofNat]; omega
    exact ⟨nodes', _, _, F e.idx, hrun hb, h1.2, by rw [h1.1, he, e1], hnode, by rw [e2]; exact hi,
      by rw [e2]; simp only [Config.nodeCap]; omega, hsy.nodup_iff.mpr (positives_nodup _), fun c hc => hsy.mem_iff.mpr hc⟩
  · have hp : positives s.freq = [Config.eos] := by
      cases hps : positives s.freq with
      | nil => rw [hps] at hm; simp at hm
      | cons a l =>
        cases l with
        | nil => rw [hps] at hm; simp at hm; rw [hm]
        | cons b l => rw [hps] at h2; simp at h2
    obtain ⟨nodes, hb, h0, h1, h2'⟩ := buildTree_lone s.node hp
    refine ⟨nodes, _, _, .node 2 (.leaf 0 256) (.leaf 1 0), hrun hb, ⟨⟨_, h2', rfl, rfl, rfl⟩, ⟨_, h0, rfl, rfl⟩, _, h1, rfl, rfl⟩,
      rfl, rfl, ?_, by decide, by decide, ?_⟩
    · change [2, 0, 1].Perm (List.range 3)
      decide
    · intro c hc
      rw [hp, List.mem_singleton] at hc
      subst hc
      exact List.mem_cons_self ..

/-! The other commands of the composites. -/

theorem runDerive_ok {s : State} {tr : Tree} (hv : s.treeValid = true) (ht : s.tree = .ok tr) :
    runDerive s = .ok () { s with code := tr.walk [] noCodes, codesValid := true } := by
  have h : s.startDerive.tree = .ok tr := ht
  rw [runDerive, require, if_pos hv]
  simp only [Run.andThen, State.withTree, h]
  rfl

theorem runWriteMagic_ok {s : State} (ho : s.outClosed = false) :
    runWriteMagic s = .ok () (s.appendBits (bitsOf 32 s.magic.toNat)) := by
  rw [runWriteMagic, require, if_pos (by rw [ho]; rfl)]
  simp only [Run.andThen, writeBits_eq]

theorem runWriteHeader_ok {s : State} {tr : Tree} (hv : s.treeValid = true) (ho : s.outClosed = false) (ht : s.tree = .ok tr) :
    runWriteHeader s = .ok () (s.appendBits tr.headerBits) := by
  rw [runWriteHeader, require, if_pos hv]
  simp only [Run.andThen]
  rw [require, if_pos (by rw [ho]; rfl)]
  simp only [State.withTree, ht, emit_eq]

theorem runWriteBody_ok {s : State} (hv : s.codesValid = true) (ho : s.outClosed = false)
    (hs : s.inBytes.length < Config.streamLimit) (hc : ∀ c ∈ byteFields s.restBits, s.code[c] ≠ [])
    (he : s.code[Config.eos] ≠ []) :
    runWriteBody s = .ok () ((s.walked s.cur (BitVec.ofNat 64 s.inLimit)).appendBits
      (codesBits s.code (byteFields s.restBits) ++ s.code[Config.eos])) := by
  have hcode : ∀ b c p, ((s.walked c p).appendBits b).code = s.code := fun b c p => appendBits_code _ _
  have hu : ∀ b, ({ s.appendBits b with inPos := BitVec.ofNat 64 s.inLimit } : State) =
      (s.walked s.cur (BitVec.ofNat 64 s.inLimit)).appendBits b := fun b => (appendBits_update_inPos b s _).symm
  rw [runWriteBody, require, if_pos hv]
  simp only [Run.andThen]
  rw [require, if_pos (by rw [ho]; rfl)]
  simp only
  rw [bodyLoop_ok _ _ hs (by rw [restBits_length, State.inLimit]; omega) hc, hu]
  simp only
  rw [emitSym_ok (by rw [hcode]; exact he), hcode, appendBits_append]

theorem closeOutput_eq {s : State} (hp : s.pend.length < 8) :
    s.closeOutput = { s.appendBits (padBits s.pend.length) with
      outCloses := s.outCloses ++ [(s.appendBits (padBits s.pend.length)).outBytes.length], outClosed := true } := by
  by_cases h0 : s.pend.length = 0
  · simp only [State.closeOutput, h0, padBits, Nat.lt_irrefl, if_false, gt_iff_lt]
    rw [show List.replicate ((8 - 0 % 8) % 8) false = [] from rfl, appendBits_nil]
  · have hpad : bitsOf (8 - s.pend.length) 0 = padBits s.pend.length := by
      have : ∀ n, bitsOf n 0 = List.replicate n false := by
        intro n
        induction n with
        | zero => rfl
        | succ n ih => simp [bitsOf, ih, List.replicate_succ]
      rw [this, padBits]
      congr 1
      omega
    have hc : (s.appendBits (padBits s.pend.length)).outCloses = s.outCloses := by rw [appendBits_eq]
    rw [State.closeOutput, if_pos (by omega), writeBits_eq, hpad]
    simp only [hc]

theorem runClose_ok {s : State} (ho : s.outClosed = false) (hp : s.pend.length < 8) :
    runClose s = .ok () { s.appendBits (padBits s.pend.length) with
      outCloses := s.outCloses ++ [(s.appendBits (padBits s.pend.length)).outBytes.length], outClosed := true } := by
  rw [runClose, require, if_pos (by rw [ho]; rfl)]
  simp only [Run.andThen, closeOutput_eq hp]

theorem runCheckMagic_ok {s : State} {rest : BitStr} (h : s.restBits = bitsOf 32 s.magic.toNat ++ rest) :
    runCheckMagic s = .ok () (s.walked s.cur (s.inPos + BitVec.ofNat 64 32)) := by
  rw [runCheckMagic, readBits_at (by omega) (bitsOf_length _ _) h]
  have : uint (bitsOf 32 s.magic.toNat) = s.magic.toNat := by rw [uint_bitsOf]; exact Nat.mod_eq_of_lt s.magic.isLt
  simp only [this]
  rw [require, if_pos (by simp)]
  rfl

theorem runReadHeader_ok {s : State} {tr : Tree} {rest : BitStr} (hs : s.inBytes.length < Config.streamLimit)
    (hn : tr.isNode = true) (hc : tr.indices.length ≤ Config.nodeCap) (h : s.restBits = tr.headerBits ++ rest) :
    ∃ (nodes : NodeStore) (t : Tree), runReadHeader s = .ok () { s with
        node := nodes, nodeCount := BitVec.ofNat 10 tr.indices.length, root := 0, treeSrc := true, treeValid := true
        codesValid := false, inPos := s.inPos + BitVec.ofNat 64 tr.headerBits.length } ∧
      ParsedTree nodes 0 t ∧ t.sameShape tr = true ∧ t.indices.length = tr.indices.length := by
  have hh : tr.height ≤ Config.nodeCap := by
    have := tr.height_le
    have := tr.indices_length
    have := tr.leafCount_pos
    simp only [Config.nodeCap] at hc ⊢
    omega
  have hc' : tr.indices.length ≤ 513 := hc
  obtain ⟨nodes, t, he, ht, hsh, hl, -⟩ := parseNode_header tr Config.nodeCap true { s.startTree with nodeCount := 0 } rest hs
    (fun _ => hn) hh (by simpa using hc') h
  refine ⟨nodes, t, ?_, ht, hsh, hl⟩
  rw [runReadHeader, he]
  have hz : (0 : BitVec 10) + BitVec.ofNat 10 tr.indices.length = BitVec.ofNat 10 tr.indices.length := BitVec.zero_add _
  simp only [Run.andThen, hz]
  rfl

end Sys2Proof.Machine
end

