-- ==== Sys2Proof/Laws/Frames.lean ====
section
/-! SUPPORT. What each primitive command's Exec can change, whatever the state it starts in: the state it ends in, with its value or
with a raise, is the starting state but for the fields named (R107: a raise does not roll back). -/

namespace Sys2Proof.Machine

/-- What holds of the state a run ends in, by its value or by a raise. -/
def Run.Ends {α : Type} (r : Run α) (P : State → Prop) : Prop :=
  match r with
  | .ok _ t => P t
  | .raise _ t => P t
  | .fault _ => True
  | .refuse _ => True

theorem Run.Ends.mono {α : Type} {r : Run α} {P Q : State → Prop} (h : r.Ends P) (hpq : ∀ t, P t → Q t) : r.Ends Q := by
  cases r with
  | ok a t => exact hpq t h
  | raise e t => exact hpq t h
  | fault f => trivial
  | refuse q => trivial

theorem Run.Ends.andThen {α β : Type} {r : Run α} {k : α → State → Run β} {P : State → Prop} (hr : r.Ends P)
    (hk : ∀ a t, r = .ok a t → (k a t).Ends P) : (r.andThen k).Ends P := by
  cases r with
  | ok a t => exact hk a t rfl
  | raise e t => exact hr
  | fault f => trivial
  | refuse q => trivial

theorem require_ends {p : Bool} {e : ErrorReg} {s : State} {P : State → Prop} (h : P s) : (require p e s).Ends P := by
  unfold require
  split <;> exact h

theorem require_ok {p : Bool} {e : ErrorReg} {s t : State} {a : Unit} (h : require p e s = .ok a t) : p = true ∧ t = s := by
  unfold require at h
  split at h
  · cases h; exact ⟨‹_›, rfl⟩
  · cases h

/-- A read moves the cursor and nothing else. -/
theorem readBits_walked (n : Nat) (s : State) : ∃ v p, s.readBits n = (v, s.walked s.cur p) := by
  obtain ⟨v, p, h⟩ := readBits_parsed n s
  exact ⟨v, p, h⟩

theorem countLoop_ends (fuel : Nat) (n : Word) (s : State) :
    (countLoop fuel n s).Ends fun t => t = { s with freq := t.freq, inPos := t.inPos } := by
  induction fuel generalizing n s with
  | zero => trivial
  | succ fuel ih =>
    obtain ⟨v, p, h⟩ := readBits_walked 8 s
    rw [countLoop, h]
    cases v with
    | none => exact rfl
    | some v =>
      simp only
      split
      · refine (ih (n + 1) ((s.walked s.cur p).bumpFreq (symOfByte v))).mono fun t ht => ?_
        rw [ht]
        rfl
      · exact rfl

theorem bodyLoop_ends (fuel : Nat) (s : State) :
    (bodyLoop fuel s).Ends fun t => ∃ p b, t = (s.walked s.cur p).appendBits b := by
  induction fuel generalizing s with
  | zero => trivial
  | succ fuel ih =>
    obtain ⟨v, p, h⟩ := readBits_walked 8 s
    rw [bodyLoop, h]
    cases v with
    | none => exact ⟨p, [], (appendBits_nil _).symm⟩
    | some v =>
      simp only
      by_cases hv : (s.walked s.cur p).code[symOfByte v] = []
      · rw [emitSym_none hv]
        exact ⟨p, [], (appendBits_nil _).symm⟩
      · rw [emitSym_ok hv]
        refine (ih _).mono fun t ⟨q, b, ht⟩ => ⟨q, (s.walked s.cur p).code[symOfByte v] ++ b, ?_⟩
        rw [ht, ← appendBits_walked, appendBits_cur, walked_walked, appendBits_append]
        rfl

theorem decodeLoop_ends (fuel : Nat) (s : State) :
    (decodeLoop fuel s).Ends fun t => ∃ c p b, t = (s.appendBits b).walked c p := by
  induction fuel generalizing s with
  | zero => trivial
  | succ fuel ih =>
    obtain ⟨v, p, h⟩ := readBits_walked 1 s
    rw [decodeLoop_succ, h]
    cases v with
    | none => exact ⟨s.cur, p, [], by rw [appendBits_nil]⟩
    | some v =>
      simp only
      split
      · trivial
      · split
        · trivial
        · split
          · refine (ih _).mono fun t ⟨c, q, b, ht⟩ => ⟨c, q, b, ?_⟩
            rw [ht]
            simp only [appendBits_walked, walked_walked]
          · split
            · exact ⟨_, _, [], by rw [appendBits_nil, walked_walked]⟩
            · refine (ih _).mono fun t ⟨c, q, b, ht⟩ => ⟨c, q, bitsOf 8 ‹Node›.sym.toNat ++ b, ?_⟩
              rw [ht]
              simp only [writeBits_eq, appendBits_walked, walked_walked, appendBits_append]

/-! The primitive commands. -/

theorem runCount_ends (s : State) : (runCount s).Ends fun t => t = { s with
    freq := t.freq, freqTotal := t.freqTotal, inPos := t.inPos
    freqValid := t.freqValid, treeValid := t.treeValid, codesValid := t.codesValid } := by
  unfold runCount
  have h := countLoop_ends (s.inBytes.length + 1) 0 { s.startCount with freq := Vector.replicate 257 0 }
  cases hr : countLoop (s.inBytes.length + 1) 0 { s.startCount with freq := Vector.replicate 257 0 } with
  | ok n t => rw [hr] at h; simp only [hr, Run.andThen]; change t = _ at h; rw [h]; rfl
  | raise e t => rw [hr] at h; simp only [hr, Run.andThen]; change t = _ at h; rw [h]; rfl
  | fault f => simp only [hr, Run.andThen]; trivial
  | refuse q => simp only [hr, Run.andThen]; trivial

theorem runBuild_ends (s : State) : (runBuild s).Ends fun t => t = { s with
    node := t.node, nodeCount := t.nodeCount, root := t.root, treeSrc := t.treeSrc
    treeValid := t.treeValid, codesValid := t.codesValid } := by
  unfold runBuild
  refine Run.Ends.andThen (require_ends rfl) fun a t h => ?_
  obtain ⟨-, rfl⟩ := require_ok h
  simp only
  split
  · trivial
  · exact rfl

theorem runDerive_ends (s : State) : (runDerive s).Ends fun t => t = { s with code := t.code, codesValid := t.codesValid } := by
  unfold runDerive
  refine Run.Ends.andThen (require_ends rfl) fun a t h => ?_
  obtain ⟨-, rfl⟩ := require_ok h
  unfold State.withTree
  split
  · trivial
  · exact rfl

theorem runWriteMagic_ends (s : State) : (runWriteMagic s).Ends fun t => ∃ b, t = s.appendBits b := by
  unfold runWriteMagic
  refine Run.Ends.andThen (require_ends ⟨[], (appendBits_nil s).symm⟩) fun a t h => ?_
  obtain ⟨-, rfl⟩ := require_ok h
  exact ⟨_, writeBits_eq _ _ _⟩

theorem runWriteHeader_ends (s : State) : (runWriteHeader s).Ends fun t => ∃ b, t = s.appendBits b := by
  unfold runWriteHeader
  refine Run.Ends.andThen (require_ends ⟨[], (appendBits_nil s).symm⟩) fun a t h => ?_
  obtain ⟨-, rfl⟩ := require_ok h
  refine Run.Ends.andThen (require_ends ⟨[], (appendBits_nil _).symm⟩) fun a t h => ?_
  obtain ⟨-, rfl⟩ := require_ok h
  unfold State.withTree
  split
  · trivial
  · exact ⟨_, emit_eq _ _⟩

theorem emitSym_ends (v : Sym) (s : State) : (emitSym v s).Ends fun t => ∃ b, t = s.appendBits b := by
  by_cases h : s.code[v] = []
  · rw [emitSym_none h]
    exact ⟨[], (appendBits_nil s).symm⟩
  · rw [emitSym_ok h]
    exact ⟨_, rfl⟩

theorem runWriteBody_ends (s : State) : (runWriteBody s).Ends fun t => ∃ p b, t = (s.walked s.cur p).appendBits b := by
  have h0 : ∃ p b, s = (s.walked s.cur p).appendBits b := ⟨s.inPos, [], (appendBits_nil _).symm⟩
  unfold runWriteBody
  refine Run.Ends.andThen (require_ends h0) fun a t h => ?_
  obtain ⟨-, rfl⟩ := require_ok h
  refine Run.Ends.andThen (require_ends h0) fun a t h => ?_
  obtain ⟨-, rfl⟩ := require_ok h
  have hb := bodyLoop_ends (t.inBytes.length + 1) t
  refine Run.Ends.andThen hb fun a u hu => ?_
  rw [hu] at hb
  obtain ⟨p, b, rfl⟩ := hb
  refine (emitSym_ends Config.eos _).mono fun v ⟨c, hv⟩ => ⟨p, b ++ c, ?_⟩
  rw [hv, appendBits_append]

theorem runClose_ends (s : State) : (runClose s).Ends fun t =>
    t = s ∨ ∃ b, t = { s.appendBits b with outCloses := s.outCloses ++ [(s.appendBits b).outBytes.length], outClosed := true } := by
  unfold runClose
  refine Run.Ends.andThen (require_ends (.inl rfl)) fun a t h => ?_
  obtain ⟨-, rfl⟩ := require_ok h
  refine .inr ?_
  have hc : ∀ b, (t.appendBits b).outCloses = t.outCloses := fun b => by rw [appendBits_eq]
  unfold State.closeOutput
  split
  · refine ⟨bitsOf (8 - t.pend.length) 0, ?_⟩
    simp only [writeBits_eq, hc]
  · exact ⟨[], by rw [appendBits_nil]⟩

theorem runCheckMagic_ends (s : State) : (runCheckMagic s).Ends fun t => ∃ p, t = s.walked s.cur p := by
  obtain ⟨v, p, h⟩ := readBits_walked 32 s
  rw [runCheckMagic, h]
  cases v with
  | none => exact ⟨p, rfl⟩
  | some v => exact require_ends ⟨p, rfl⟩

theorem runReadHeader_ends (s : State) : (runReadHeader s).Ends fun t => t = { s with
    node := t.node, nodeCount := t.nodeCount, root := t.root, treeSrc := t.treeSrc, inPos := t.inPos
    treeValid := t.treeValid, codesValid := t.codesValid } := by
  unfold runReadHeader
  rcases parseNode_result Config.nodeCap true { s.startTree with nodeCount := 0 }
      (by change (0 : BitVec 10).toNat ≤ 513; decide) with
    ⟨nodes, count, pos, t, he, -⟩ | ⟨e, nodes, count, pos, he, -⟩
  · rw [he]; exact rfl
  · rw [he]; exact rfl

theorem runReadBody_ends (s : State) : (runReadBody s).Ends fun t => ∃ c p b, t = (s.appendBits b).walked c p := by
  have h0 : ∃ c p b, s = (s.appendBits b).walked c p := ⟨s.cur, s.inPos, [], by rw [appendBits_nil]; rfl⟩
  unfold runReadBody
  refine Run.Ends.andThen (require_ends h0) fun a t h => ?_
  obtain ⟨-, rfl⟩ := require_ok h
  refine Run.Ends.andThen (require_ends h0) fun a t h => ?_
  obtain ⟨-, rfl⟩ := require_ok h
  refine (decodeLoop_ends _ (t.walked t.root t.inPos)).mono fun u ⟨c, p, b, hu⟩ => ⟨c, p, b, ?_⟩
  rw [hu, appendBits_walked, walked_walked]

/-! What every command but CLEAR_ERR keeps, and what only CLOSE and the composites change (R49, R66, R107). -/

/-- The fields no Exec writes but CLEAR_ERR's, and an output that only grows. -/
structure Keeps (s t : State) : Prop where
  irqEn : t.irqEn = s.irqEn
  busy : t.busy = s.busy
  pending : t.pending = s.pending
  done : t.done = s.done
  err : t.err = s.err
  cmdRej : t.cmdRej = s.cmdRej
  error : t.error = s.error
  inBytes : t.inBytes = s.inBytes
  magic : t.magic = s.magic
  hufBase : t.hufBase = s.hufBase
  turns : t.turns = s.turns
  busLog : t.busLog = s.busLog
  draws : t.draws = s.draws
  outBytes : s.outBytes <+: t.outBytes
  outCloses : s.outCloses <+: t.outCloses

/-- The output port received no `close`. -/
structure KeepsOpen (s t : State) : Prop extends Keeps s t where
  noClose : t.outCloses = s.outCloses
  outClosed : t.outClosed = s.outClosed

theorem Keeps.refl (s : State) : Keeps s s :=
  ⟨rfl, rfl, rfl, rfl, rfl, rfl, rfl, rfl, rfl, rfl, rfl, rfl, rfl, List.prefix_rfl, List.prefix_rfl⟩

theorem KeepsOpen.refl (s : State) : KeepsOpen s s := ⟨Keeps.refl s, rfl, rfl⟩

theorem Keeps.trans {s t u : State} (h : Keeps s t) (k : Keeps t u) : Keeps s u where
  irqEn := k.irqEn.trans h.irqEn
  busy := k.busy.trans h.busy
  pending := k.pending.trans h.pending
  done := k.done.trans h.done
  err := k.err.trans h.err
  cmdRej := k.cmdRej.trans h.cmdRej
  error := k.error.trans h.error
  inBytes := k.inBytes.trans h.inBytes
  magic := k.magic.trans h.magic
  hufBase := k.hufBase.trans h.hufBase
  turns := k.turns.trans h.turns
  busLog := k.busLog.trans h.busLog
  draws := k.draws.trans h.draws
  outBytes := h.outBytes.trans k.outBytes
  outCloses := h.outCloses.trans k.outCloses

theorem KeepsOpen.trans {s t u : State} (h : KeepsOpen s t) (k : KeepsOpen t u) : KeepsOpen s u :=
  ⟨h.toKeeps.trans k.toKeeps, k.noClose.trans h.noClose, k.outClosed.trans h.outClosed⟩

theorem keepsOpen_appendBits (s : State) (b : BitStr) : KeepsOpen s (s.appendBits b) := by
  have h := appendBits_outBytes_grow b s
  rw [appendBits_eq] at h ⊢
  exact ⟨⟨rfl, rfl, rfl, rfl, rfl, rfl, rfl, rfl, rfl, rfl, rfl, rfl, rfl, h, List.prefix_rfl⟩, rfl, rfl⟩

theorem keepsOpen_walked (s : State) (c : BitVec 10) (p : BitVec 64) : KeepsOpen s (s.walked c p) :=
  ⟨⟨rfl, rfl, rfl, rfl, rfl, rfl, rfl, rfl, rfl, rfl, rfl, rfl, rfl, List.prefix_rfl, List.prefix_rfl⟩, rfl, rfl⟩

theorem runCount_keeps (s : State) : (runCount s).Ends (KeepsOpen s) := (runCount_ends s).mono fun t h => by
  rw [h]
  exact ⟨⟨rfl, rfl, rfl, rfl, rfl, rfl, rfl, rfl, rfl, rfl, rfl, rfl, rfl, List.prefix_rfl, List.prefix_rfl⟩, rfl, rfl⟩

theorem runBuild_keeps (s : State) : (runBuild s).Ends (KeepsOpen s) := (runBuild_ends s).mono fun t h => by
  rw [h]
  exact ⟨⟨rfl, rfl, rfl, rfl, rfl, rfl, rfl, rfl, rfl, rfl, rfl, rfl, rfl, List.prefix_rfl, List.prefix_rfl⟩, rfl, rfl⟩

theorem runDerive_keeps (s : State) : (runDerive s).Ends (KeepsOpen s) := (runDerive_ends s).mono fun t h => by
  rw [h]
  exact ⟨⟨rfl, rfl, rfl, rfl, rfl, rfl, rfl, rfl, rfl, rfl, rfl, rfl, rfl, List.prefix_rfl, List.prefix_rfl⟩, rfl, rfl⟩

theorem runWriteMagic_keeps (s : State) : (runWriteMagic s).Ends (KeepsOpen s) :=
  (runWriteMagic_ends s).mono fun _ ⟨b, h⟩ => h ▸ keepsOpen_appendBits s b

theorem runWriteHeader_keeps (s : State) : (runWriteHeader s).Ends (KeepsOpen s) :=
  (runWriteHeader_ends s).mono fun _ ⟨b, h⟩ => h ▸ keepsOpen_appendBits s b

theorem runWriteBody_keeps (s : State) : (runWriteBody s).Ends (KeepsOpen s) :=
  (runWriteBody_ends s).mono fun _ ⟨p, b, h⟩ => h ▸ (keepsOpen_walked s s.cur p).trans (keepsOpen_appendBits _ b)

theorem runRewind_keeps (s : State) : (runRewind s).Ends (KeepsOpen s) := keepsOpen_walked s s.cur 0

theorem runCheckMagic_keeps (s : State) : (runCheckMagic s).Ends (KeepsOpen s) :=
  (runCheckMagic_ends s).mono fun _ ⟨p, h⟩ => h ▸ keepsOpen_walked s s.cur p

theorem runReadHeader_keeps (s : State) : (runReadHeader s).Ends (KeepsOpen s) := (runReadHeader_ends s).mono fun t h => by
  rw [h]
  exact ⟨⟨rfl, rfl, rfl, rfl, rfl, rfl, rfl, rfl, rfl, rfl, rfl, rfl, rfl, List.prefix_rfl, List.prefix_rfl⟩, rfl, rfl⟩

theorem runReadBody_keeps (s : State) : (runReadBody s).Ends (KeepsOpen s) :=
  (runReadBody_ends s).mono fun _ ⟨c, p, b, h⟩ => h ▸ (keepsOpen_appendBits s b).trans (keepsOpen_walked _ c p)

theorem runClose_keeps (s : State) : (runClose s).Ends (Keeps s) := by
  refine (runClose_ends s).mono fun t h => ?_
  rcases h with rfl | ⟨b, rfl⟩
  · exact Keeps.refl t
  · have k := (keepsOpen_appendBits s b).toKeeps
    exact ⟨k.irqEn, k.busy, k.pending, k.done, k.err, k.cmdRej, k.error, k.inBytes, k.magic, k.hufBase, k.turns, k.busLog,
      k.draws, k.outBytes, List.prefix_append _ _⟩

/-- A list of Execs keeps what each keeps (R167, R168). -/
theorem runAll_ends {R : State → State → Prop} (hrefl : ∀ s, R s s) (htrans : ∀ {s t u}, R s t → R t u → R s u)
    (fs : List (State → Run Unit)) (h : ∀ f ∈ fs, ∀ s, (f s).Ends (R s)) (s : State) : (runAll fs s).Ends (R s) := by
  induction fs generalizing s with
  | nil => exact hrefl s
  | cons f fs ih =>
    have hf := h f (by simp) s
    refine Run.Ends.andThen hf fun a t ht => ?_
    rw [ht] at hf
    exact (ih (fun g hg => h g (by simp [hg])) t).mono fun u hu => htrans hf hu

/-- A list of Execs one after another is its beginning and then its last. -/
theorem runAll_append (fs gs : List (State → Run Unit)) (s : State) :
    runAll (fs ++ gs) s = (runAll fs s).andThen fun _ t => runAll gs t := by
  induction fs generalizing s with
  | nil => rfl
  | cons f fs ih =>
    rw [List.cons_append, runAll, runAll]
    cases f s with
    | ok a t => exact ih t
    | raise e t => rfl
    | fault f => rfl
    | refuse q => rfl

end Sys2Proof.Machine
end

