-- ==== Sys2Proof/Laws/Control.lean ====
section
/-! SUPPORT. No Exec reads BUSY, DONE, the pending command or the turns to come: a run from a state with other values of them is the
same run (R107, R167, R168). -/

namespace Sys2Proof.Machine

/-- The values of the control fields that issue and completion write, and the turns. -/
structure Ctl where
  busy : Bool
  pending : Option Instr
  done : Bool
  turns : List Turn

/-- The state with other control fields. -/
def State.withCtl (s : State) (c : Ctl) : State :=
  { s with busy := c.busy, pending := c.pending, done := c.done, turns := c.turns }

/-- The run with other control fields in the state it ends in. -/
def Run.withCtl {α : Type} (r : Run α) (c : Ctl) : Run α :=
  match r with
  | .ok a t => .ok a (t.withCtl c)
  | .raise e t => .raise e (t.withCtl c)
  | .fault f => .fault f
  | .refuse q => .refuse q

theorem andThen_withCtl {α β : Type} {r r' : Run α} {k k' : α → State → Run β} {c : Ctl} (hr : r' = r.withCtl c)
    (hk : ∀ a t, k' a (t.withCtl c) = (k a t).withCtl c) : r'.andThen k' = (r.andThen k).withCtl c := by
  rw [hr]
  cases r with
  | ok a t => exact hk a t
  | raise e t => rfl
  | fault f => rfl
  | refuse q => rfl

theorem require_withCtl (p : Bool) (e : ErrorReg) (s : State) (c : Ctl) :
    require p e (s.withCtl c) = (require p e s).withCtl c := by
  unfold require
  split <;> rfl

theorem readBits_withCtl (n : Nat) (s : State) (c : Ctl) :
    (s.withCtl c).readBits n = ((s.readBits n).1, (s.readBits n).2.withCtl c) := by
  by_cases h : s.inPos.toNat + n > 8 * s.inBytes.length
  · have h' : (s.withCtl c).inPos.toNat + n > 8 * (s.withCtl c).inBytes.length := h
    rw [State.readBits, State.readBits, if_pos h, if_pos h']
    rfl
  · have h' : ¬(s.withCtl c).inPos.toNat + n > 8 * (s.withCtl c).inBytes.length := h
    rw [State.readBits, State.readBits, if_neg h, if_neg h']
    rfl

theorem appendBits_withCtl (b : BitStr) (s : State) (c : Ctl) : (s.withCtl c).appendBits b = (s.appendBits b).withCtl c := by
  rw [appendBits_packed, appendBits_packed]
  rfl

theorem countLoop_withCtl (fuel : Nat) (n : Word) (s : State) (c : Ctl) :
    countLoop fuel n (s.withCtl c) = (countLoop fuel n s).withCtl c := by
  induction fuel generalizing n s with
  | zero => rfl
  | succ fuel ih =>
    rw [countLoop, countLoop, readBits_withCtl]
    cases hr : s.readBits 8 with
    | mk v t =>
      cases v with
      | none => rfl
      | some v =>
        simp only
        split
        · exact ih (n + 1) (t.bumpFreq (symOfByte v))
        · rfl

theorem emitSym_withCtl (v : Sym) (s : State) (c : Ctl) : emitSym v (s.withCtl c) = (emitSym v s).withCtl c := by
  have hc : (s.withCtl c).code = s.code := rfl
  by_cases h : s.code[v] = []
  · rw [emitSym_none h, emitSym_none (by rw [hc]; exact h)]
    rfl
  · rw [emitSym_ok h, emitSym_ok (by rw [hc]; exact h), hc, appendBits_withCtl]
    rfl

theorem bodyLoop_withCtl (fuel : Nat) (s : State) (c : Ctl) : bodyLoop fuel (s.withCtl c) = (bodyLoop fuel s).withCtl c := by
  induction fuel generalizing s with
  | zero => rfl
  | succ fuel ih =>
    rw [bodyLoop, bodyLoop, readBits_withCtl]
    cases hr : s.readBits 8 with
    | mk v t =>
      cases v with
      | none => rfl
      | some v => exact andThen_withCtl (emitSym_withCtl _ _ _) fun _ t => ih t

theorem decodeLoop_withCtl (fuel : Nat) (s : State) (c : Ctl) :
    decodeLoop fuel (s.withCtl c) = (decodeLoop fuel s).withCtl c := by
  induction fuel generalizing s with
  | zero => rfl
  | succ fuel ih =>
    have hrc := readBits_withCtl 1 s c
    cases hr : s.readBits 1 with
    | mk v t =>
      rw [hr] at hrc
      cases v with
      | none =>
        rw [decodeLoop_succ, decodeLoop_succ, hr, hrc]
        rfl
      | some b =>
        cases hh : t.node[t.cur.toNat]? with
        | none =>
          have hh' : (t.withCtl c).node[(t.withCtl c).cur.toNat]? = none := hh
          rw [decodeLoop_succ, decodeLoop_succ, hr, hrc]
          simp only [hh, hh']
          rfl
        | some here =>
          have hh' : (t.withCtl c).node[(t.withCtl c).cur.toNat]? = some here := hh
          cases hn : t.node[(childOf here b).toNat]? with
          | none =>
            have hn' : (t.withCtl c).node[(childOf here b).toNat]? = none := hn
            rw [decodeLoop_succ, decodeLoop_succ, hr, hrc]
            simp only [hh, hh', hn, hn']
            rfl
          | some nd =>
            have hn' : (t.withCtl c).node[(childOf here b).toNat]? = some nd := hn
            rw [decodeLoop_turn hr hh hn, decodeLoop_turn hrc hh' hn']
            cases nd.kind with
            | internal =>
              have e : (t.withCtl c).walked (childOf here b) (t.withCtl c).inPos = (t.walked (childOf here b) t.inPos).withCtl c := rfl
              simp only
              rw [e, ih]
            | leaf =>
              simp only
              by_cases h256 : nd.sym.toNat = 256
              · rw [if_pos h256, if_pos h256]
                rfl
              · rw [if_neg h256, if_neg h256, writeBits_eq, writeBits_eq, appendBits_walked, appendBits_walked, appendBits_withCtl]
                have e : ∀ (u : State) a p, ((u.withCtl c).walked a p).walked (t.withCtl c).root (t.withCtl c).inPos =
                    ((u.walked a p).walked t.root t.inPos).withCtl c := fun _ _ _ => rfl
                have e' : (t.withCtl c).inPos = t.inPos := rfl
                rw [e, ih, e']

theorem parseNode_withCtl (fuel : Nat) (isRoot : Bool) (s : State) (c : Ctl) :
    parseNode fuel isRoot (s.withCtl c) = (parseNode fuel isRoot s).withCtl c := by
  induction fuel generalizing isRoot s with
  | zero => rfl
  | succ fuel ih =>
    have hw : ∀ (t : State) a b p, (t.withCtl c).parsed a b p = (t.parsed a b p).withCtl c := fun _ _ _ _ => rfl
    by_cases hcap : s.nodeCount.toNat = Config.nodeCap
    · rw [parseNode_cap fuel isRoot s hcap, parseNode_cap fuel isRoot (s.withCtl c) hcap]
      rfl
    · have hcap' : (s.withCtl c).nodeCount.toNat ≠ Config.nodeCap := hcap
      have hrc := readBits_withCtl 1 s c
      cases hr : s.readBits 1 with
      | mk v t =>
        rw [hr] at hrc
        cases v with
        | none =>
          rw [parseNode_eod hcap hr, parseNode_eod hcap' hrc]
          rfl
        | some b =>
          obtain rfl | rfl := readBits_one hr
          · replace hrc : (s.withCtl c).readBits 1 = (some 0, t.withCtl c) := hrc
            rw [parseNode_internal hcap hr, parseNode_internal hcap' hrc]
            exact andThen_withCtl (ih false (t.allocNode.setNode t.nodeCount.toNat (Node.ofPair 0 0 0))) fun l u => andThen_withCtl (ih false u) fun r v => rfl
          · cases isRoot with
            | true =>
              rw [parseNode_rootLeaf hcap hr, parseNode_rootLeaf hcap' hrc]
              rfl
            | false =>
              rw [parseNode_leaf hcap hr, parseNode_leaf hcap' hrc]
              change (match (t.allocNode.withCtl c).readBits 9 with
                | (none, u) => Run.raise (errorOf .truncated .readHeader 1) u
                | (some v, u) =>
                  if v > 256 then .raise (errorOf .format .readHeader 2) u
                  else .ok t.nodeCount.toNat (u.setNode t.nodeCount.toNat (Node.ofLeaf (BitVec.ofNat 9 v) 0))) = _
              rw [readBits_withCtl]
              cases hr9 : t.allocNode.readBits 9 with
              | mk w u =>
                cases w with
                | none => rfl
                | some w =>
                  simp only
                  split <;> rfl

/-! The primitive commands. -/

theorem runRewind_withCtl (s : State) (c : Ctl) : runRewind (s.withCtl c) = (runRewind s).withCtl c := rfl

theorem runCount_withCtl (s : State) (c : Ctl) : runCount (s.withCtl c) = (runCount s).withCtl c :=
  andThen_withCtl (countLoop_withCtl _ 0 { s.startCount with freq := Vector.replicate 257 0 } c) fun _ _ => rfl

theorem runBuild_withCtl (s : State) (c : Ctl) : runBuild (s.withCtl c) = (runBuild s).withCtl c := by
  refine andThen_withCtl (require_withCtl _ _ s c) fun _ t => ?_
  have h : buildTree (t.withCtl c).startTree.freq (t.withCtl c).startTree.node = buildTree t.startTree.freq t.startTree.node := rfl
  simp only [h]
  split <;> rfl

theorem withTree_withCtl {s : State} {k k' : Tree → Run Unit} {c : Ctl} (hk : ∀ t, k' t = (k t).withCtl c) :
    (s.withCtl c).withTree k' = (s.withTree k).withCtl c := by
  have h : (s.withCtl c).tree = s.tree := rfl
  unfold State.withTree
  rw [h]
  cases s.tree with
  | error f => rfl
  | ok t => exact hk t

theorem runDerive_withCtl (s : State) (c : Ctl) : runDerive (s.withCtl c) = (runDerive s).withCtl c :=
  andThen_withCtl (require_withCtl _ _ s c) fun _ t => withTree_withCtl (s := t.startDerive) fun _ => rfl

theorem runWriteMagic_withCtl (s : State) (c : Ctl) : runWriteMagic (s.withCtl c) = (runWriteMagic s).withCtl c := by
  refine andThen_withCtl (require_withCtl _ _ s c) fun _ t => ?_
  rw [writeBits_eq, writeBits_eq, appendBits_withCtl]
  rfl

theorem runWriteHeader_withCtl (s : State) (c : Ctl) : runWriteHeader (s.withCtl c) = (runWriteHeader s).withCtl c :=
  andThen_withCtl (require_withCtl _ _ s c) fun _ t =>
    andThen_withCtl (require_withCtl _ _ t c) fun _ u => withTree_withCtl fun tr => by
      rw [emit_eq, emit_eq, appendBits_withCtl]
      rfl

theorem runWriteBody_withCtl (s : State) (c : Ctl) : runWriteBody (s.withCtl c) = (runWriteBody s).withCtl c :=
  andThen_withCtl (require_withCtl _ _ s c) fun _ t =>
    andThen_withCtl (require_withCtl _ _ t c) fun _ u =>
      andThen_withCtl (bodyLoop_withCtl _ u c) fun _ v => emitSym_withCtl _ v c

theorem runClose_withCtl (s : State) (c : Ctl) : runClose (s.withCtl c) = (runClose s).withCtl c := by
  refine andThen_withCtl (require_withCtl _ _ s c) fun _ t => ?_
  have h : (t.withCtl c).closeOutput = t.closeOutput.withCtl c := by
    have hp : (t.withCtl c).pend = t.pend := rfl
    unfold State.closeOutput
    rw [hp]
    split
    · rw [writeBits_eq, writeBits_eq, appendBits_withCtl]
      rfl
    · rfl
  rw [h]
  rfl

theorem runCheckMagic_withCtl (s : State) (c : Ctl) : runCheckMagic (s.withCtl c) = (runCheckMagic s).withCtl c := by
  unfold runCheckMagic
  rw [readBits_withCtl]
  cases hr : s.readBits 32 with
  | mk v t =>
    cases v with
    | none => rfl
    | some v => exact require_withCtl _ _ t c

theorem runReadHeader_withCtl (s : State) (c : Ctl) : runReadHeader (s.withCtl c) = (runReadHeader s).withCtl c :=
  andThen_withCtl (parseNode_withCtl Config.nodeCap true { s.startTree with nodeCount := 0 } c) fun _ _ => rfl

theorem runReadBody_withCtl (s : State) (c : Ctl) : runReadBody (s.withCtl c) = (runReadBody s).withCtl c :=
  andThen_withCtl (require_withCtl _ _ s c) fun _ t =>
    andThen_withCtl (require_withCtl _ _ t c) fun _ u => decodeLoop_withCtl _ (u.walked u.root u.inPos) c

end Sys2Proof.Machine
end

