-- ==== Sys2Proof/Laws/PerInstr.lean ====
section
/-! SUPPORT. The statements made per instruction: decoding an instruction's command word gives it back (R82). -/

namespace Sys2Proof.Laws.DecodeEncode

/-- Decoding the command word of a well-formed instruction gives the instruction, also through the table's numbering of bits. -/
def Statement (i : Instr) : Prop :=
  i.wellFormed = true → decode (encode i) = .ok i ∧ decodeTableWord 32 (encode i).toNat = some i ∧ legalWord (encode i) = true

theorem nop : Statement Instr.nop := fun _ => by decide +kernel

theorem count : Statement Instr.count := fun _ => by decide +kernel

theorem build : Statement Instr.build := fun _ => by decide +kernel

theorem derive : Statement Instr.derive := fun _ => by decide +kernel

theorem writeMagic : Statement Instr.writeMagic := fun _ => by decide +kernel

theorem writeHeader : Statement Instr.writeHeader := fun _ => by decide +kernel

theorem writeBody : Statement Instr.writeBody := fun _ => by decide +kernel

theorem rewind : Statement Instr.rewind := fun _ => by decide +kernel

theorem close : Statement Instr.close := fun _ => by decide +kernel

theorem checkMagic : Statement Instr.checkMagic := fun _ => by decide +kernel

theorem readHeader : Statement Instr.readHeader := fun _ => by decide +kernel

theorem readBody : Statement Instr.readBody := fun _ => by decide +kernel

theorem clearErr : Statement Instr.clearErr := fun _ => by decide +kernel

theorem compress : Statement Instr.compress := fun _ => by decide +kernel

theorem decompress : Statement Instr.decompress := fun _ => by decide +kernel

end Sys2Proof.Laws.DecodeEncode
end

