-- ==== Sys2Proof/Laws/Sound.lean ====
section
/-! SUPPORT. The invariant's part about the tables, the cursors and the packer: every Exec keeps it, raises only rows of the cause
table, and never stops (R112, R197). -/

namespace Sys2Proof.Machine

/-- The part of the invariant that an Exec can touch. -/
structure Sound (s : State) : Prop where
  pend_len : s.pend.length = s.outPos.toNat % 8
  stream_fits : s.inBytes.length < Config.streamLimit
  cursor_le : s.inPos.toNat ≤ s.inLimit
  freq_ok : s.freqValid = true → FreqOk s
  tree_ok : s.treeValid = true → ValidTree s
  codes_tree : s.codesValid = true → s.treeValid = true
  codes_ok : s.codesValid = true → CodesOk s

/-- A run that ends, with its value or with a row of the cause table, in a state with P. -/
def Run.Safe {α : Type} (r : Run α) (P : State → Prop) : Prop :=
  match r with
  | .ok _ t => P t
  | .raise e t => P t ∧ e.isRow
  | .fault _ => False
  | .refuse _ => False

theorem Run.Safe.andThen {α β : Type} {r : Run α} {k : α → State → Run β} {P : State → Prop} (hr : r.Safe P)
    (hk : ∀ a t, r = .ok a t → (k a t).Safe P) : (r.andThen k).Safe P := by
  cases r with
  | ok a t => exact hk a t rfl
  | raise e t => exact hr
  | fault f => exact hr.elim
  | refuse q => exact hr.elim

theorem require_safe {p : Bool} {e : ErrorReg} {s : State} {P : State → Prop} (h : P s) (he : e.isRow) :
    (require p e s).Safe P := by
  unfold require
  split
  · exact h
  · exact ⟨h, he⟩

/-- FreqOk reads FREQ and FREQ_TOTAL alone. -/
theorem FreqOk.congr {s t : State} (h : FreqOk s) (h1 : t.freq = s.freq) (h2 : t.freqTotal = s.freqTotal) : FreqOk t :=
  ⟨h1 ▸ h.eos_one, by rw [h1, h2]; exact h.total, h2 ▸ h.bound⟩

/-- The valid-tree invariant reads the node store, NODE_COUNT and ROOT alone. -/
theorem ValidTree.congr {s t : State} (h : ValidTree s) (h1 : t.node = s.node) (h2 : t.nodeCount = s.nodeCount)
    (h3 : t.root = s.root) : ValidTree t := by
  obtain ⟨tr, ht, hst, hi, hn, hp⟩ := h.stored
  exact ValidTree.of_stored (t := tr) (h1 ▸ hst) (h3 ▸ hi) hn (h2 ▸ hp) (h2 ▸ h.count_le)

theorem CodesOk.congr {s t : State} (h : CodesOk s) (h1 : t.node = s.node) (h2 : t.root = s.root) (h3 : t.code = s.code) :
    CodesOk t := by
  obtain ⟨tr, ht, hc⟩ := h
  refine ⟨tr, ?_, by rw [h3, hc]⟩
  rw [← ht, State.tree, State.tree, h1, h2]

/-- Sound reads only some fields. -/
theorem Sound.congr {s t : State} (h : Sound s) (h1 : t.pend.length = t.outPos.toNat % 8) (h2 : t.inBytes = s.inBytes)
    (h3 : t.inPos.toNat ≤ s.inLimit) (h4 : t.freqValid = s.freqValid) (h5 : t.treeValid = s.treeValid)
    (h6 : t.codesValid = s.codesValid) (h7 : t.freq = s.freq) (h8 : t.freqTotal = s.freqTotal) (h9 : t.node = s.node)
    (h10 : t.nodeCount = s.nodeCount) (h11 : t.root = s.root) (h12 : t.code = s.code) : Sound t where
  pend_len := h1
  stream_fits := by rw [h2]; exact h.stream_fits
  cursor_le := by rw [State.inLimit, h2]; exact h3
  freq_ok hv := (h.freq_ok (h4 ▸ hv)).congr h7 h8
  tree_ok hv := (h.tree_ok (h5 ▸ hv)).congr h9 h10 h11
  codes_tree hv := by rw [h5]; exact h.codes_tree (h6 ▸ hv)
  codes_ok hv := (h.codes_ok (h6 ▸ hv)).congr h9 h11 h12

theorem Sound.pend_lt {s : State} (h : Sound s) : s.pend.length < 8 := by
  rw [h.pend_len]
  exact Nat.mod_lt _ (by omega)

/-- The packer's bits keep step with OUT_POS (R32, R47). -/
theorem Sound.pend_append {s : State} (h : Sound s) (b : BitStr) :
    (s.appendBits b).pend.length = (s.appendBits b).outPos.toNat % 8 := by
  have h1 := congrArg List.length (appendBits_outBits b s)
  have h2 := appendBits_pend_lt (c := b) h.pend_lt
  rw [outBits_length, List.length_append, outBits_length] at h1
  have h3 : (s.appendBits b).outPos = s.outPos + BitVec.ofNat 64 b.length := by rw [appendBits_eq]
  have h4 := h.pend_len
  rw [h3, BitVec.toNat_add, BitVec.toNat_ofNat]
  omega

theorem Sound.appendBits {s : State} (h : Sound s) (b : BitStr) : Sound (s.appendBits b) := by
  have hp := h.pend_append b
  rw [appendBits_eq] at hp ⊢
  exact h.congr hp rfl h.cursor_le rfl rfl rfl rfl rfl rfl rfl rfl rfl

theorem Sound.walked {s : State} (h : Sound s) (c : BitVec 10) {p : BitVec 64} (hp : p.toNat ≤ s.inLimit) : Sound (s.walked c p) :=
  h.congr h.pend_len rfl hp rfl rfl rfl rfl rfl rfl rfl rfl rfl

/-- A read leaves the cursor inside the stream (R62). -/
theorem readBits_bound {n : Nat} {s : State} (hs : s.inBytes.length < Config.streamLimit) (hn : 0 < n) :
    (s.readBits n).2.inPos.toNat ≤ s.inLimit := by
  by_cases h : s.restBits.length < n
  · rw [readBits_eod h]
    exact (inLimit_toNat hs).le
  · rw [readBits_ok hn (by omega)]
    have h1 := inPos_add_toNat hs hn (by omega)
    have h2 := restBits_length s
    simp only [h1]
    omega

theorem readBits_sound {s : State} (h : Sound s) {n : Nat} (hn : 0 < n) {v : Option Nat} {t : State}
    (ht : s.readBits n = (v, t)) : Sound t := by
  obtain ⟨p, hp⟩ := readBits_frame n s
  have hb := readBits_bound h.stream_fits hn
  rw [ht] at hp hb
  simp only at hp hb
  rw [hp] at hb ⊢
  exact h.walked s.cur hb

/-! The primitive commands. -/

theorem noCode_isRow (v : Sym) : (errorOf .noCode .writeBody v.val).isRow := by
  unfold ErrorReg.isRow
  have h : (errorOf .noCode .writeBody v.val).detail.toNat ≤ 256 := by
    have := v.isLt
    simp only [errorOf, BitVec.toNat_ofNat]
    omega
  exact .inr (.inr (.inr (.inr (.inr (.inr (.inr (.inr (.inr (.inl ⟨rfl, rfl, h⟩)))))))))

theorem runRewind_safe {s : State} (h : Sound s) : (runRewind s).Safe Sound := h.walked s.cur (p := 0) (Nat.zero_le _)

theorem runCount_safe {s : State} (h : Sound s) : (runCount s).Safe Sound := by
  by_cases hl : (byteFields s.restBits).length ≤ Config.maxInput
  · rw [runCount_ok h.stream_fits hl]
    have hl' : (byteFields s.restBits).length ≤ 4294967294 := hl
    have hn : (BitVec.ofNat 32 (byteFields s.restBits).length).toNat = (byteFields s.restBits).length := by
      rw [BitVec.toNat_ofNat]; omega
    exact {
      pend_len := h.pend_len
      stream_fits := h.stream_fits
      cursor_le := (inLimit_toNat h.stream_fits).le
      freq_ok := fun _ => ⟨countTable_eos _, by
        simp only [hn]; exact countTable_total (by omega) (eos_not_mem_byteFields _), by simp only [hn]; exact hl⟩
      tree_ok := fun hv => by cases hv
      codes_tree := fun hv => by cases hv
      codes_ok := fun hv => by cases hv }
  · have hr : (State.restBits { s.startCount with freq := Vector.replicate 257 0 }) = s.restBits := rfl
    have hlen := restBits_length s
    have hbl := byteFields_length s.restBits
    have h8 : 8 * (Config.maxInput + 1) ≤ s.restBits.length := by omega
    rw [runCount]
    dsimp only
    rw [countLoop_long]
    · have hp := inPos_add_toNat (n := 8 * (Config.maxInput + 1)) h.stream_fits (by omega) h8
      refine ⟨?_, by unfold ErrorReg.isRow; decide⟩
      exact {
        pend_len := h.pend_len
        stream_fits := h.stream_fits
        cursor_le := by
          change (s.inPos + BitVec.ofNat 64 (8 * (Config.maxInput + 1))).toNat ≤ s.inLimit
          rw [hp]
          omega
        freq_ok := fun hv => by cases hv
        tree_ok := fun hv => by cases hv
        codes_tree := fun hv => by cases hv
        codes_ok := fun hv => by cases hv }
    · exact h.stream_fits
    · rw [hr, restBits_length, State.inLimit]; omega
    · rw [hr, show (0 : Word).toNat = 0 from rfl, Nat.zero_add]; omega
    · exact Nat.zero_le _

theorem runBuild_safe {s : State} (h : Sound s) : (runBuild s).Safe Sound := by
  cases hv : s.freqValid with
  | false =>
    rw [runBuild, require, if_neg (by rw [hv]; decide)]
    exact ⟨h, by unfold ErrorReg.isRow; decide⟩
  | true =>
    obtain ⟨nodes, root, count, tr, hr, hst, hi, hn, hp, hc, -, -⟩ := runBuild_ok hv (h.freq_ok hv)
    rw [hr]
    exact {
      pend_len := h.pend_len
      stream_fits := h.stream_fits
      cursor_le := h.cursor_le
      freq_ok := fun hf => (h.freq_ok hf).congr rfl rfl
      tree_ok := fun _ => ValidTree.of_stored (t := tr) hst hi hn hp hc
      codes_tree := fun hv => by cases hv
      codes_ok := fun hv => by cases hv }

theorem runDerive_safe {s : State} (h : Sound s) : (runDerive s).Safe Sound := by
  cases hv : s.treeValid with
  | false =>
    rw [runDerive, require, if_neg (by rw [hv]; decide)]
    exact ⟨h, by unfold ErrorReg.isRow; decide⟩
  | true =>
    obtain ⟨tr, ht, -⟩ := (h.tree_ok hv).stored
    rw [runDerive_ok hv ht]
    exact {
      pend_len := h.pend_len
      stream_fits := h.stream_fits
      cursor_le := h.cursor_le
      freq_ok := fun hf => (h.freq_ok hf).congr rfl rfl
      tree_ok := fun _ => (h.tree_ok hv).congr rfl rfl rfl
      codes_tree := fun _ => hv
      codes_ok := fun _ => ⟨tr, ht, rfl⟩ }

theorem runWriteMagic_safe {s : State} (h : Sound s) : (runWriteMagic s).Safe Sound := by
  unfold runWriteMagic
  refine Run.Safe.andThen (require_safe h (by unfold ErrorReg.isRow; decide)) fun a t ht => ?_
  obtain ⟨-, rfl⟩ := require_ok ht
  rw [writeBits_eq]
  exact h.appendBits _

theorem runWriteHeader_safe {s : State} (h : Sound s) : (runWriteHeader s).Safe Sound := by
  unfold runWriteHeader
  refine Run.Safe.andThen (require_safe h (by unfold ErrorReg.isRow; decide)) fun a t ht => ?_
  obtain ⟨hv, rfl⟩ := require_ok ht
  refine Run.Safe.andThen (require_safe h (by unfold ErrorReg.isRow; decide)) fun a t ht => ?_
  obtain ⟨-, rfl⟩ := require_ok ht
  obtain ⟨tr, ht, -⟩ := (h.tree_ok hv).stored
  unfold State.withTree
  rw [ht]
  simp only [emit_eq]
  exact h.appendBits _

theorem emitSym_safe {s : State} (h : Sound s) (v : Sym) : (emitSym v s).Safe Sound := by
  by_cases hc : s.code[v] = []
  · rw [emitSym_none hc]
    exact ⟨h, noCode_isRow v⟩
  · rw [emitSym_ok hc]
    exact h.appendBits _

theorem bodyLoop_safe {fuel : Nat} {s : State} (h : Sound s) (hf : s.restBits.length / 8 < fuel) : (bodyLoop fuel s).Safe Sound := by
  induction fuel generalizing s with
  | zero => omega
  | succ fuel ih =>
    rw [bodyLoop]
    by_cases h8 : s.restBits.length < 8
    · have hr := readBits_eod h8
      rw [hr]
      exact readBits_sound h (by omega) hr
    · have hr := readBits_ok (n := 8) (by omega) (Nat.le_of_not_lt h8)
      have ht := readBits_sound h (by omega) hr
      have hadv := restBits_advance h.stream_fits (n := 8) (by omega) (Nat.le_of_not_lt h8)
      rw [hr]
      have he := emitSym_safe ht (symOfByte (uint (s.restBits.take 8)))
      refine Run.Safe.andThen he fun a u hu => ?_
      rw [hu] at he
      refine ih he ?_
      have hends := emitSym_ends (symOfByte (uint (s.restBits.take 8))) { s with inPos := s.inPos + BitVec.ofNat 64 8 }
      rw [hu] at hends
      obtain ⟨b, rfl⟩ := hends
      rw [appendBits_restBits, hadv, List.length_drop]
      omega

theorem runWriteBody_safe {s : State} (h : Sound s) : (runWriteBody s).Safe Sound := by
  unfold runWriteBody
  refine Run.Safe.andThen (require_safe h (by unfold ErrorReg.isRow; decide)) fun a t ht => ?_
  obtain ⟨-, rfl⟩ := require_ok ht
  refine Run.Safe.andThen (require_safe h (by unfold ErrorReg.isRow; decide)) fun a t ht => ?_
  obtain ⟨-, rfl⟩ := require_ok ht
  have hb := bodyLoop_safe (fuel := t.inBytes.length + 1) h (by rw [restBits_length, State.inLimit]; omega)
  refine Run.Safe.andThen hb fun a u hu => ?_
  rw [hu] at hb
  exact emitSym_safe hb _

theorem runClose_safe {s : State} (h : Sound s) : (runClose s).Safe Sound := by
  cases ho : s.outClosed with
  | true =>
    rw [runClose, require, if_neg (by rw [ho]; decide)]
    exact ⟨h, by unfold ErrorReg.isRow; decide⟩
  | false =>
    have hs := h.appendBits (padBits s.pend.length)
    rw [runClose_ok ho h.pend_lt]
    exact hs.congr hs.pend_len rfl hs.cursor_le rfl rfl rfl rfl rfl rfl rfl rfl rfl

theorem runCheckMagic_safe {s : State} (h : Sound s) : (runCheckMagic s).Safe Sound := by
  rw [runCheckMagic]
  cases hr : s.readBits 32 with
  | mk v t =>
    have ht := readBits_sound h (by omega) hr
    cases v with
    | none => exact ⟨ht, by unfold ErrorReg.isRow; decide⟩
    | some v => exact require_safe ht (by unfold ErrorReg.isRow; decide)

/-- A parse leaves the cursor inside the stream. -/
theorem parseNode_bound (fuel : Nat) (isRoot : Bool) (s : State) (hs : s.inBytes.length < Config.streamLimit)
    (hp : s.inPos.toNat ≤ s.inLimit) : (parseNode fuel isRoot s).Ends fun t => t.inPos.toNat ≤ s.inLimit ∧ t.inBytes = s.inBytes := by
  induction fuel generalizing isRoot s with
  | zero => exact ⟨hp, rfl⟩
  | succ fuel ih =>
    by_cases hcap : s.nodeCount.toNat = Config.nodeCap
    · rw [parseNode_cap fuel isRoot s hcap]
      exact ⟨hp, rfl⟩
    · obtain ⟨v, p, hr⟩ := readBits_parsed 1 s
      have hb := readBits_bound hs (n := 1) (by omega)
      rw [hr] at hb
      simp only [parsed_inPos] at hb
      cases v with
      | none =>
        rw [parseNode_eod hcap hr]
        exact ⟨hb, rfl⟩
      | some b =>
        obtain rfl | rfl := readBits_one hr
        · rw [parseNode_internal hcap hr]
          simp only [parsed_allocNode, parsed_setNode, parsed_nodeCount]
          generalize hu : s.parsed (s.node.setIfInBounds s.nodeCount.toNat (Node.ofPair 0 0 0)) (s.nodeCount + 1) p = u
          have hin : u.inBytes = s.inBytes := by rw [← hu]; rfl
          have hlim : ∀ t : State, t.inBytes = s.inBytes → t.inLimit = s.inLimit := fun t ht => by rw [State.inLimit, State.inLimit, ht]
          have h1 := ih false u (by rw [hin]; exact hs) (by rw [hlim u hin, ← hu]; exact hb)
          rw [hlim u hin, hin] at h1
          refine Run.Ends.andThen h1 fun l v hv => ?_
          rw [hv] at h1
          have h2 := ih false v (by rw [h1.2]; exact hs) (by rw [hlim v h1.2]; exact h1.1)
          rw [hlim v h1.2, h1.2] at h2
          refine Run.Ends.andThen h2 fun r w hw => ?_
          rw [hw] at h2
          exact h2
        · cases isRoot with
          | true =>
            rw [parseNode_rootLeaf hcap hr]
            exact ⟨hb, rfl⟩
          | false =>
            rw [parseNode_leaf hcap hr]
            simp only [parsed_allocNode, parsed_nodeCount]
            obtain ⟨v, q, hq⟩ := readBits_parsed 9 (s.parsed s.node (s.nodeCount + 1) p)
            have hb2 := readBits_bound (s := s.parsed s.node (s.nodeCount + 1) p) hs (n := 9) (by omega)
            rw [hq] at hb2 ⊢
            simp only [parsed_inPos, parsed_parsed] at hb2 ⊢
            cases v with
            | none => exact ⟨hb2, rfl⟩
            | some v =>
              simp only
              split
              · exact ⟨hb2, rfl⟩
              · exact ⟨hb2, rfl⟩

theorem runReadHeader_safe {s : State} (h : Sound s) : (runReadHeader s).Safe Sound := by
  have hb := parseNode_bound Config.nodeCap true { s.startTree with nodeCount := 0 } h.stream_fits h.cursor_le
  rcases parseNode_result Config.nodeCap true { s.startTree with nodeCount := 0 }
      (by change (0 : BitVec 10).toNat ≤ 513; decide) with
    ⟨nodes, count, pos, t, he, ht, hc, hle, -, hroot⟩ | ⟨e, nodes, count, pos, he, hm⟩
  · rw [he] at hb
    rw [runReadHeader, he]
    exact {
      pend_len := h.pend_len
      stream_fits := h.stream_fits
      cursor_le := hb.1
      freq_ok := fun hf => (h.freq_ok hf).congr rfl rfl
      tree_ok := fun _ => by
        refine ValidTree.of_stored (t := t) ht.stored ht.index (hroot rfl) ?_ hle
        change t.indices.Perm (List.range count.toNat)
        rw [ht.indices, hc, List.range_eq_range']
        exact List.Perm.of_eq (by simp)
      codes_tree := fun hv => by cases hv
      codes_ok := fun hv => by cases hv }
  · rw [he] at hb
    rw [runReadHeader, he]
    refine ⟨?_, (parseErrors_isRow hm).1⟩
    exact {
      pend_len := h.pend_len
      stream_fits := h.stream_fits
      cursor_le := hb.1
      freq_ok := fun hf => (h.freq_ok hf).congr rfl rfl
      tree_ok := fun hv => by cases hv
      codes_tree := fun hv => by cases hv
      codes_ok := fun hv => by cases hv }

theorem runReadBody_safe {s : State} (h : Sound s) : (runReadBody s).Safe Sound := by
  cases hv : s.treeValid with
  | false =>
    rw [runReadBody, require, if_neg (by rw [hv]; decide)]
    exact ⟨h, by unfold ErrorReg.isRow; decide⟩
  | true =>
    cases ho : s.outClosed with
    | true =>
      rw [runReadBody, require, if_pos hv]
      change ((require (!s.outClosed) (errorOf .outClosed .readBody 0) s).andThen _).Safe Sound
      rw [require, if_neg (by rw [ho]; decide)]
      exact ⟨h, by unfold ErrorReg.isRow; decide⟩
    | false =>
      have hV := h.tree_ok hv
      obtain ⟨tr, ht, -, hi, hn, -⟩ := hV.stored
      have hlen := restBits_length s
      have hlim : s.inLimit = 8 * s.inBytes.length := rfl
      obtain ⟨c, pos, bits, he, -, -, hpos, -⟩ := decodeLoop_result (s := s.walked s.root s.inPos) (fuel := 8 * s.inBytes.length + 1)
        ht hn (by change s.root.toNat ∈ tr.indices; rw [← hi]; exact tr.index_mem) hV.root_internal h.stream_fits h.cursor_le
        (by change s.restBits.length < _; omega)
      have hs : Sound (((s.walked s.root s.inPos).appendBits bits).walked c pos) := by
        refine ((h.walked s.root h.cursor_le).appendBits bits).walked c ?_
        rw [State.inLimit, appendBits_inBytes]
        exact hpos
      rw [runReadBody_eq hv ho]
      rcases he with ⟨he, -⟩ | he
      · rw [he]; exact hs
      · rw [he]; exact ⟨hs, by unfold ErrorReg.isRow; decide⟩

/-! The composites. -/

theorem runAll_safe (fs : List (State → Run Unit)) (hf : ∀ f ∈ fs, ∀ s, Sound s → (f s).Safe Sound) {s : State} (h : Sound s) :
    (runAll fs s).Safe Sound := by
  induction fs generalizing s with
  | nil => exact h
  | cons f fs ih =>
    have h1 := hf f (by simp) s h
    refine Run.Safe.andThen h1 fun a t ht => ?_
    rw [ht] at h1
    exact ih (fun g hg => hf g (by simp [hg])) h1

theorem runCompress_safe {s : State} (h : Sound s) : (runCompress s).Safe Sound := by
  unfold runCompress
  refine Run.Safe.andThen (require_safe h (by unfold ErrorReg.isRow; decide)) fun a t ht => ?_
  obtain ⟨-, rfl⟩ := require_ok ht
  refine runAll_safe _ ?_ h
  simp only [List.forall_mem_cons, List.not_mem_nil, false_imp_iff, implies_true, and_true]
  exact ⟨fun _ => runRewind_safe, fun _ => runCount_safe, fun _ => runBuild_safe, fun _ => runDerive_safe,
    fun _ => runWriteMagic_safe, fun _ => runWriteHeader_safe, fun _ => runRewind_safe, fun _ => runWriteBody_safe,
    fun _ => runClose_safe⟩

theorem runDecompress_safe {s : State} (h : Sound s) : (runDecompress s).Safe Sound := by
  unfold runDecompress
  refine Run.Safe.andThen (require_safe h (by unfold ErrorReg.isRow; decide)) fun a t ht => ?_
  obtain ⟨-, rfl⟩ := require_ok ht
  refine runAll_safe _ ?_ h
  simp only [List.forall_mem_cons, List.not_mem_nil, false_imp_iff, implies_true, and_true]
  exact ⟨fun _ => runRewind_safe, fun _ => runCheckMagic_safe, fun _ => runReadHeader_safe, fun _ => runReadBody_safe,
    fun _ => runClose_safe⟩

end Sys2Proof.Machine
end

