-- ==== Sys2Proof/Laws/Window.lean ====
section
/-! SUPPORT. The register window (R50-R59): what a read of each window gives, and what one step on a host access is. -/

namespace Sys2Proof.Machine

/-- An offset below the window's size is inside the window (R51). -/
theorem windowOffset_add {base off : Nat} (h : off < 0x10000) : windowOffset base (base + off) = some off := by
  rw [windowOffset, if_pos ⟨by omega, by simp only [Config.windowBytes]; omega⟩, Nat.add_sub_cancel_left]

/-- A read does not depend on the turns to come. -/
theorem readReg_turns (s : State) (ts : List Turn) (off : Nat) : State.readReg off { s with turns := ts } = s.readReg off := by
  have h1 : State.readScalar off { s with turns := ts } = s.readScalar off := by
    unfold State.readScalar
    split <;> rfl
  have h2 : ∀ k, State.readFreq k { s with turns := ts } = s.readFreq k := fun _ => rfl
  have h3 : ∀ k, State.readCodeLen k { s with turns := ts } = s.readCodeLen k := fun _ => rfl
  have h4 : ∀ k, State.readCodeBits k { s with turns := ts } = s.readCodeBits k := fun _ => rfl
  have h5 : ∀ k, State.readNode k { s with turns := ts } = s.readNode k := fun _ => rfl
  simp only [State.readReg, h1, h2, h3, h4, h5]

/-- The control and status registers lie below 0x1000 (R52). -/
theorem readReg_scalar {s : State} {off : Nat} (h : off < 0x1000) : s.readReg off = s.readScalar off := by
  rw [State.readReg, if_pos h]

/-- The FREQ window (R41). -/
theorem readReg_freq (s : State) (v : Sym) : s.readReg (0x1000 + 4 * v.val) = s.whenValid s.freqValid s.freq[v] := by
  have := v.isLt
  rw [State.readReg, if_neg (by omega), if_pos (by omega), State.readFreq,
    show (0x1000 + 4 * v.val - 0x1000) / 4 = v.val by omega]
  simp

/-- The CODE_LEN window (R42). -/
theorem readReg_codeLen (s : State) (v : Sym) :
    s.readReg (0x2000 + 4 * v.val) = s.whenValid s.codesValid (BitVec.ofNat 32 s.code[v].length) := by
  have := v.isLt
  rw [State.readReg, if_neg (by omega), if_neg (by omega), if_pos (by omega), State.readCodeLen,
    show (0x2000 + 4 * v.val - 0x2000) / 4 = v.val by omega]
  simp

/-- The CODE_BITS window (R43). -/
theorem readReg_codeBits (s : State) (v : Sym) {j : Nat} (hj : j < 8) :
    s.readReg (0x4000 + 32 * v.val + 4 * j) = s.whenValid s.codesValid (codeWord s.code[v] j) := by
  have := v.isLt
  rw [State.readReg, if_neg (by omega), if_neg (by omega), if_neg (by omega), if_pos (by omega), State.readCodeBits,
    show (0x4000 + 32 * v.val + 4 * j - 0x4000) / 4 / 8 = v.val by omega,
    show (0x4000 + 32 * v.val + 4 * j - 0x4000) / 4 % 8 = j by omega]
  simp

/-- The NODE window (R44). -/
theorem readReg_node (s : State) {n j : Nat} (hn : n < 513) (hj : j < 4) :
    s.readReg (0x8000 + 16 * n + 4 * j) =
      s.whenValid (s.treeValid && decide (n < s.nodeCount.toNat)) (nodeWord s.node[n] j) := by
  rw [State.readReg, if_neg (by omega), if_neg (by omega), if_neg (by omega), if_neg (by omega), State.readNode,
    show (0x8000 + 16 * n + 4 * j - 0x8000) / 4 / 4 = n by omega,
    show (0x8000 + 16 * n + 4 * j - 0x8000) / 4 % 4 = j by omega]
  simp [hn]

/-- Word 0 of a node entry (R44). -/
theorem nodeWord_zero (nd : Node) :
    nodeWord nd 0 = (if nd.kind = .leaf then 0x80000000 else 0) ||| nd.sym.setWidth 32 := by
  have h1 : ∀ f : BitVec 9, (1#1 ++ 0#22 ++ f : BitVec 32) = 0x80000000 ||| f.setWidth 32 := by decide +kernel
  have h0 : ∀ f : BitVec 9, (0#1 ++ 0#22 ++ f : BitVec 32) = 0 ||| f.setWidth 32 := by decide +kernel
  unfold nodeWord
  cases nd.kind with
  | leaf => exact h1 nd.sym
  | internal => exact h0 nd.sym

/-- One step on a 32-bit read at an aligned offset (R53, R54, R58). -/
theorem step_read {s : State} {ts : List Turn} {off : Nat} (h : off < 0x10000) (h4 : off % 4 = 0)
    (ht : s.turns = .read 32 (s.hufBase + off) :: ts) :
    step s = .next (State.answerRead (s.readReg off) { s with turns := ts }) := by
  have hd : definedAccess 32 off = true := by simp [definedAccess, h4]
  have hw : windowOffset ({ s with turns := ts } : State).hufBase (s.hufBase + off) = some off := windowOffset_add h
  have hs : step s = .next (State.hostRead 32 (s.hufBase + off) { s with turns := ts }) := by
    rw [step, nextTurn, ht]
    rfl
  rw [hs, State.hostRead, hw]
  simp only [hd, if_true, readReg_turns]

/-- One step on a 32-bit write at an aligned offset (R53, R55). -/
theorem step_write {s : State} {ts : List Turn} {off : Nat} {w : Word} (h : off < 0x10000) (h4 : off % 4 = 0)
    (ht : s.turns = .write 32 (s.hufBase + off) w :: ts) :
    step s = State.writeReg off w { s with turns := ts, busLog := { data := 0, error := false } :: s.busLog } := by
  have hd : definedAccess 32 off = true := by simp [definedAccess, h4]
  have hw : windowOffset ({ s with turns := ts } : State).hufBase (s.hufBase + off) = some off := windowOffset_add h
  have hs : step s = State.hostWrite 32 (s.hufBase + off) w { s with turns := ts } := by
    rw [step, nextTurn, ht]
    rfl
  rw [hs, State.hostWrite, hw]
  simp only [hd, if_true]
  rfl

end Sys2Proof.Machine
end

