-- ==== Sys2Proof/Tests/Slice0.lean ====
section
/-! SUPPORT. The model's own tests, each one step on a small state, with the results of spec/95_test_vectors.md (section numbers
below are that file's), and a witness for the hypotheses of each statement. -/

namespace Sys2Proof.Tests

set_option Elab.async false

open Sys2Proof Sys2Proof.Machine

/-! Helpers. MAGIC is the example value of 95_test_vectors.md; the window stands at address 0. -/

def bytesOf (l : List Nat) : List Byte := l.map (BitVec.ofNat 8)

def start (l : List Nat) : State := { State.launch (bytesOf l) with magic := 0xFACE8201, hufBase := 0 }

def outcome (o : Host.Outcome State Fault Refusal) : Option State :=
  match o with
  | .next t => some t
  | .fault _ => none
  | .refused _ => none

/-- The next state of an outcome that is one. -/
def nextOf (o : Host.Outcome State Fault Refusal) : State := (outcome o).getD State.reset

theorem next_of_isSome {o : Host.Outcome State Fault Refusal} (h : (outcome o).isSome = true) : o = .next (nextOf o) := by
  cases o <;> simp_all [outcome, nextOf]

/-- Does the outcome end in a next state of which `p` holds? -/
def ends (o : Host.Outcome State Fault Refusal) (p : State → Bool) : Bool := (outcome o).any p

/-- STATUS, ERROR, IN_POS and OUT_POS of a state, as the vectors give them. -/
def regs (s : State) : Nat × Nat × Nat × Nat := (s.statusWord.toNat, s.error.word.toNat, s.inPos.toNat, s.outPos.toNat)

/-- The counts above 0, in symbol order. -/
def positiveCounts (s : State) : List Word := s.freq.toList.filter fun w => 0 < w

/-- The state a line of the syntax is issued in. -/
def onLine (w : Word) (s : State) : State := { s with turns := [.line w] }

/-- The bus's last answer to a read. -/
def reads (s : State) (addr : Nat) : Option (Nat × Bool) :=
  (outcome (step { s with turns := [.read 32 addr] })).bind fun t => t.busLog.head?.map fun r => (r.data.toNat, r.error)

def aaab : List Nat := [0x41, 0x41, 0x41, 0x42]

def aaabStream : List Nat := [0xFA, 0xCE, 0x82, 0x01, 0x24, 0x2C, 0x02, 0x41, 0xE2]

def storeOf (l : List Node) : NodeStore := (l.zipIdx).foldl (fun t x => t.setIfInBounds x.2 x.1) State.reset.node

def leafN (v w : Nat) : Node := Node.ofLeaf (BitVec.ofNat 9 v) (BitVec.ofNat 32 w)

def pairN (w l r : Nat) : Node := Node.ofPair (BitVec.ofNat 32 w) l r

/-- AAAB's node store after BUILD (2.6). -/
def aaabNodes : NodeStore := storeOf [leafN 65 3, leafN 66 1, leafN 256 1, pairN 2 1 2, pairN 5 3 0]

def aaabFreq : FreqTable := ((State.reset.freq.set 65 3).set 66 1).set 256 1

def aaabCode : CodeTable := ((noCodes.set 65 [true]).set 66 [false, false]).set 256 [false, true]

/-- AAAB after COUNT (2.5). -/
def counted : State := { start aaab with freq := aaabFreq, freqTotal := 4, freqValid := true, inPos := 32 }

/-- AAAB after BUILD (2.6). -/
def built : State := { counted with node := aaabNodes, nodeCount := 5, root := 4, treeValid := true }

/-- AAAB after DERIVE (2.7). -/
def derived : State := { built with code := aaabCode, codesValid := true }

/-- AAAB's tree as the node store of `built` holds it. -/
def aaabTree : Tree := .node 4 (.node 3 (.leaf 1 66) (.leaf 2 256)) (.leaf 0 65)

/-- The tree of AAAB's header after READ_HEADER (2.11), with the input at the body. -/
def reread : State :=
  { start aaabStream with
    node := storeOf [pairN 0 1 4, pairN 0 2 3, leafN 66 0, leafN 256 0, leafN 65 0]
    nodeCount := 5, root := 0, treeValid := true, treeSrc := true, inPos := 64 }

def rereadTree : Tree := .node 0 (.node 1 (.leaf 2 66) (.leaf 3 256)) (.leaf 4 65)

/-! The well-formedness checks: an ill-formed word for each. -/

theorem test_wf_refuses_opcode_0D : legalWord 0x0000000D = false := by decide +kernel

theorem test_wf_refuses_opcode_0F : legalWord 0x0000000F = false := by decide +kernel

theorem test_wf_refuses_opcode_12 : legalWord 0x00000012 = false := by decide +kernel

theorem test_wf_refuses_opcode_FF : legalWord 0x000000FF = false := by decide +kernel

theorem test_wf_refuses_rsvd_bit_8 : legalWord 0x00000101 = false := by decide +kernel

theorem test_wf_refuses_rsvd_bit_31 : legalWord 0x80000000 = false := by decide +kernel

theorem test_wf_accepts_the_bounds : legalWord 0x0000000C = true ∧ legalWord 0x00000010 = true ∧ legalWord 0x00000011 = true := by
  decide +kernel

theorem test_wf_instructions : ∀ i ∈ Instr.all, i.wellFormed = true := by decide +kernel

/-! Decoding: words written out bit by bit from spec/opcode_table.json, for every family. -/

theorem test_decode_control :
    decode 0b00000000000000000000000000000000 = .ok .nop ∧ decode 0b00000000000000000000000000001100 = .ok .clearErr := by
  decide +kernel

theorem test_decode_tree_builder :
    decode 0b00000000000000000000000000000001 = .ok .count ∧ decode 0b00000000000000000000000000000010 = .ok .build := by
  decide +kernel

theorem test_decode_encoder :
    decode 0b00000000000000000000000000000011 = .ok .derive ∧ decode 0b00000000000000000000000000000110 = .ok .writeBody := by
  decide +kernel

theorem test_decode_header_codec :
    decode 0b00000000000000000000000000000100 = .ok .writeMagic ∧ decode 0b00000000000000000000000000000101 = .ok .writeHeader ∧
      decode 0b00000000000000000000000000001001 = .ok .checkMagic ∧
      decode 0b00000000000000000000000000001010 = .ok .readHeader := by
  decide +kernel

theorem test_decode_decoder : decode 0b00000000000000000000000000001011 = .ok .readBody := by decide +kernel

theorem test_decode_stream_control :
    decode 0b00000000000000000000000000000111 = .ok .rewind ∧ decode 0b00000000000000000000000000001000 = .ok .close ∧
      decode 0b00000000000000000000000000010000 = .ok .compress ∧
      decode 0b00000000000000000000000000010001 = .ok .decompress := by
  decide +kernel

theorem test_decode_rejects_by_name :
    decode 0x00000012 = .error .undefinedOpcode ∧ decode 0x0000010C = .error .rsvdNonzero ∧
      decode 0x0000010D = .error .undefinedOpcode := by
  decide +kernel

theorem test_fetch_word_runs_first :
    ends (step (State.reset.withFetchWord 32 0x00000001)) (fun t => t.statusWord == 0x00A && t.freqTotal == 0) = true ∧
      ends (step (State.reset.withFetchWord 32 0x00000008)) (fun t => t.statusWord == 0x082 && t.turns == []) = true := by
  decide +kernel

/-! The bit unpacker and packer (2.1, 2.2). -/

theorem test_readBits_partial_field_is_consumed :
    let r := (start [0xFF]).readBits 4
    r.1 = some 15 ∧ (r.2.readBits 8).1 = none ∧ (r.2.readBits 8).2.inPos = 8 := by
  decide +kernel

theorem test_readBits_32_off_a_boundary :
    let r := ((start [0x12, 0x34, 0x56, 0x78, 0x9A]).readBits 4).2.readBits 32
    r.1 = some 0x23456789 ∧ r.2.inPos = 36 := by
  decide +kernel

theorem test_writeBits_then_close :
    let s := (((start []).writeBits 9 256).writeBits 1 1).writeBits 9 0x41
    s.outBytes = [0x80, 0x48] ∧ s.pend = [false, false, true] ∧ s.outPos = 19 ∧ s.closeOutput.outBytes = [0x80, 0x48, 0x20] ∧
      s.closeOutput.outPos = 24 := by
  decide +kernel

/-! Issue, rejection and errors (2.3, 2.4, 2.18, P3, P4). -/

theorem test_illegal_word_at_issue : ends (step (onLine 0x0000010C (start []))) (regs · == (0x004, 0x00020C03, 0, 0)) = true := by
  decide +kernel

theorem test_busy_rejects :
    ends (step { start aaab with busy := true, pending := some .count, turns := [.write 32 0x008 0x00000002] })
      (fun t => t.statusWord == 0x101 && t.pending == some .count) = true := by
  decide +kernel

theorem test_error_rejects_rsvd_clearErr :
    ends (step (onLine 0x0000010C { start [] with err := true, error := { cause := 2, op := 0x0A, detail := 1 } }))
      (regs · == (0x104, 0x00010A02, 0, 0)) = true := by
  decide +kernel

theorem test_irq_follows_err :
    ends (step (onLine 0x00000012 { start [] with irqEn := true })) (regs · == (0x204, 0x00011203, 0, 0)) = true := by
  decide +kernel

theorem test_ack_drops_irq :
    ends (step { start [] with irqEn := true, done := true, cmdRej := true, turns := [.write 32 0x00C 0x00000102] })
      (fun t => t.statusWord == 0 && !t.irq) = true := by
  decide +kernel

theorem test_soft_reset :
    ends (step { derived with outBytes := [1], outPos := 8, done := true, turns := [.write 32 0x004 0x00000001] })
      (fun t => regs t == (0, 0, 0, 0) && !t.irqEn && t.outBytes == [1]) = true := by
  decide +kernel

/-! One or two tests for each command. -/

theorem test_nop : ends (step (onLine 0x00000000 (start []))) (regs · == (0x002, 0, 0, 0)) = true := by decide +kernel

theorem test_clearErr :
    ends (step (onLine 0x0000000C { start [] with
      err := true, error := { cause := 2, op := 0x0A, detail := 1 }, cmdRej := true, inPos := 56 }))
      (regs · == (0x002, 0, 56, 0)) = true := by
  decide +kernel

theorem test_count_aaab :
    ends (step (onLine 0x00000001 (start aaab))) (fun t => regs t == (0x00A, 0, 32, 0) && positiveCounts t == [3, 1, 1] && t.freq[(66 : Sym)] == 1 &&
      t.freqTotal == 4) =
      true := by
  decide +kernel

/-- 2.5: from bit 4, two whole fields are counted and the last four bits are only consumed. -/
theorem test_count_off_a_boundary :
    ends (step (onLine 0x00000001 { start [0xF0, 0x0F, 0xFF] with inPos := 4 }))
      (fun t => regs t == (0x00A, 0, 24, 0) && t.freqTotal == 2 && positiveCounts t == [1, 1, 1] &&
        t.freq[(0 : Sym)] == 1 && t.freq[(255 : Sym)] == 1) =
      true := by
  decide +kernel

theorem test_build_aaab :
    ends (step (onLine 0x00000002 counted))
      (fun t => regs t == (0x01A, 0, 32, 0) && t.root == 4 && t.nodeCount == 5 &&
        t.node.toList.take 5 == [leafN 65 3, leafN 66 1, leafN 256 1, pairN 2 1 2, pairN 5 3 0]) = true := by
  decide +kernel

/-- 2.6: the wrap of a lone EOS leaf. -/
theorem test_build_wraps :
    ends (step (onLine 0x00000002 { start [] with freq := State.reset.freq.set 256 1, freqValid := true }))
      (fun t => t.root == 2 && t.nodeCount == 3 && t.node.toList.take 3 == [leafN 256 1, leafN 0 0, pairN 1 0 1]) = true := by
  decide +kernel

theorem test_derive_aaab :
    ends (step (onLine 0x00000003 built)) (fun t => t.statusWord == 0x03A && t.code[(65 : Sym)] == [true] &&
      t.code[(66 : Sym)] == [false, false] && t.code[(256 : Sym)] == [false, true] && t.code[(67 : Sym)] == []) = true := by
  decide +kernel

/-- 2.7: of two leaves with the same symbol the second one wins. -/
theorem test_derive_duplicate :
    ends (step (onLine 0x00000003 { reread with
      node := storeOf [pairN 0 1 4, pairN 0 2 3, leafN 65 0, leafN 65 0, leafN 256 0] }))
      (fun t => t.code[(65 : Sym)] == [false, true] && t.code[(256 : Sym)] == [true]) = true := by
  decide +kernel

theorem test_writeMagic :
    ends (step (onLine 0x00000004 (start []))) (fun t => regs t == (0x002, 0, 0, 32) && t.outBytes == bytesOf [0xFA, 0xCE, 0x82, 0x01])
      = true := by
  decide +kernel

theorem test_writeHeader_aaab :
    ends (step (onLine 0x00000005 { built with outPos := 32 }))
      (fun t => t.outPos == 64 && t.outBytes == bytesOf [0x24, 0x2C, 0x02, 0x41] && t.pend == []) = true := by
  decide +kernel

theorem test_writeBody_aaab :
    ends (step (onLine 0x00000006 { derived with inPos := 0, outPos := 64 }))
      (fun t => regs t == (0x03A, 0, 32, 71) && t.pend == [true, true, true, false, false, false, true]) = true := by
  decide +kernel

/-- 2.9: NO_CODE(66) after the code of 65 was written. -/
theorem test_writeBody_noCode :
    ends (step (onLine 0x00000006 { start [0x48, 0x38, 0x02, 0x0A, 0x10] with
      code := (noCodes.set 65 [false]).set 256 [true], codesValid := true, treeValid := true, treeSrc := true, inPos := 21 }))
      (regs · == (0x074, 0x00420606, 37, 1)) = true := by
  decide +kernel

theorem test_rewind : ends (step (onLine 0x00000007 counted)) (regs · == (0x00A, 0, 0, 0)) = true := by decide +kernel

theorem test_close_pads :
    ends (step (onLine 0x00000008 { derived with pend := [true, true, true, false, false, false, true], outPos := 71 }))
      (fun t => regs t == (0x0BA, 0, 32, 72) && t.outBytes == [0xE2] && t.outCloses == [1]) = true := by
  decide +kernel

theorem test_close_twice : ends (step (onLine 0x00000008 { start [] with outClosed := true })) (regs · == (0x084, 0x00000805, 0, 0)) =
    true := by
  decide +kernel

theorem test_checkMagic_wrong_tag :
    ends (step (onLine 0x00000009 (start [0xFA, 0xCE, 0x82, 0x00, 0x24]))) (regs · == (0x004, 0x00000901, 32, 0)) = true := by
  decide +kernel

theorem test_checkMagic_short : ends (step (onLine 0x00000009 (start [0xFA, 0xCE]))) (regs · == (0x004, 0x00010901, 16, 0)) = true := by
  decide +kernel

theorem test_readHeader_aaab :
    ends (step (onLine 0x0000000A (start [0x24, 0x2C, 0x02, 0x41])))
      (fun t => regs t == (0x052, 0, 32, 0) &&
        t.node.toList.take 5 == [pairN 0 1 4, pairN 0 2 3, leafN 66 0, leafN 256 0, leafN 65 0] && t.nodeCount == 5 && t.root == 0) = true := by
  decide +kernel

theorem test_readHeader_symbol_257 :
    ends (step (onLine 0x0000000A (start [0x60, 0x30, 0x00]))) (regs · == (0x004, 0x00020A01, 11, 0)) = true := by
  decide +kernel

theorem test_readBody_aaab :
    ends (step (onLine 0x0000000B reread))
      (fun t => regs t == (0x052, 0, 71, 32) && t.cur == 3 && t.outBytes == bytesOf aaab) = true := by
  decide +kernel

/-- 2.12: a tree without EOS ends in TRUNCATED(2) after its bytes were put. -/
theorem test_readBody_no_eos :
    ends (step (onLine 0x0000000B { start [0xFA, 0xCE, 0x82, 0x01, 0x48, 0x32, 0x13, 0x00] with
      node := storeOf [pairN 0 1 2, leafN 65 0, leafN 66 0], nodeCount := 3, treeValid := true, treeSrc := true, inPos := 53 }))
      (fun t => regs t == (0x054, 0x00020B02, 64, 88) && t.cur == 0 &&
        t.outBytes == bytesOf [0x41, 0x42, 0x42, 0x41, 0x41, 0x41, 0x41, 0x41, 0x41, 0x41, 0x41]) = true := by
  decide +kernel

theorem test_compress_aaab :
    ends (step (onLine 0x00000010 (start aaab))) (fun t => regs t == (0x0BA, 0, 32, 72) && t.outBytes == bytesOf aaabStream) = true := by
  decide +kernel

theorem test_compress_empty :
    ends (step (onLine 0x00000010 (start []))) (fun t => regs t == (0x0BA, 0, 0, 56) &&
      t.outBytes == bytesOf [0xFA, 0xCE, 0x82, 0x01, 0x60, 0x10, 0x00]) = true := by
  decide +kernel

theorem test_decompress_aaab :
    ends (step (onLine 0x00000011 (start aaabStream)))
      (fun t => regs t == (0x0D2, 0, 71, 32) && t.cur == 3 && t.nodeCount == 5 && t.outBytes == bytesOf aaab) = true := by
  decide +kernel

/-- 2.15: eight of the nine bytes. -/
theorem test_decompress_truncated :
    ends (step (onLine 0x00000011 (start (aaabStream.take 8)))) (fun t => regs t == (0x054, 0x00020B02, 64, t.outPos.toNat)) = true := by
  decide +kernel

/-- The AAAB stream with stream bit k flipped. -/
def flipped (k : Nat) : List Nat := aaabStream.mapIdx fun i b => if i = k / 8 then b ^^^ (1 <<< (7 - k % 8)) else b

/-- 2.16, R172: no flip of a header bit reproduces the input without an error. -/
theorem test_header_mutations : ∀ k ∈ List.range 32,
    ends (step (onLine 0x00000011 (start (flipped (32 + k))))) (fun t => t.err || t.outBytes != bytesOf aaab) = true := by
  decide +kernel

/-! The register window (W2, 2.6, 2.7). -/

theorem test_freq_window : reads derived 0x1104 = some (3, false) ∧ reads derived 0x1400 = some (1, false) := by decide +kernel

theorem test_code_windows : reads derived 0x2108 = some (2, false) ∧ reads derived 0x6000 = some (0x40000000, false) := by
  decide +kernel

theorem test_node_window : reads derived 0x8020 = some (0x80000100, false) ∧ reads derived 0x8048 = some (3, false) := by
  decide +kernel

theorem test_id_and_params : reads derived 0x000 = some (0x48554646, false) ∧ reads derived 0x018 = some (0x00020120, false) := by
  decide +kernel

/-! The assembler (R94, R95). -/

theorem test_assembler_digits :
    assembleLine ".word 0x89ABCDEF ; raw".toList = some (.word 0x89ABCDEF) ∧ assembleLine ".word 0x0123456f".toList = some (.word 0x0123456F) ∧
      assembleLine ".word 0x0000000G".toList = none ∧ assembleLine ".word 0x000010C".toList = none := by
  decide +kernel

theorem test_assembler :
    assembleLine "  COUNT  ; count it".toList = some (.cmd .count) ∧
      assembleLine ".word 0x0000010C".toList = some (.word 0x0000010C) ∧ assembleLine "ACK".toList = some .ack := by
  decide +kernel

/-! Witnesses: for each statement with hypotheses, concrete states and operands that meet all of them together; where a
statement has several clauses, one for each. -/

def wr (off : Nat) (w : Word) (s : State) : State := { s with turns := [.write 32 (s.hufBase + off) w] }

def rd (off : Nat) (s : State) : State := { s with turns := [.read 32 (s.hufBase + off)] }

def busyWith (i : Instr) (s : State) : State := { s with busy := true, pending := some i }

def failed : State := { start [] with err := true, error := { cause := 1, op := 0x09, detail := 1 } }

theorem witness_DecoderIsTotal :
    decode 0x00000011 = .ok .decompress ∧ legalWord 0x0000000C = true ∧
      opcodeDefined ((0x0000010D : Word).extractLsb' 0 8) = false ∧ opcodeDefined ((0x80000011 : Word).extractLsb' 0 8) = true ∧
      rsvdZero 0x80000011 = false := by
  decide +kernel

/-- A word accepted without an error and CLEAR_ERR's while ERR is 1; an undefined opcode; a nonzero RSVD field; a word rejected
while ERR is 1; and one rejected while BUSY is 1. -/
theorem witness_LineIssuesAndWaits :
    (∃ (s : State) (w : Word) (ts : List Turn) (i : Instr), s.turns = .line w :: ts ∧ s.busy = false ∧ s.err = false ∧
      decode w = .ok i) ∧
    (∃ (s : State) (w : Word) (ts : List Turn) (i : Instr), s.turns = .line w :: ts ∧ s.busy = false ∧ s.err = true ∧
      w = 0x0000000C ∧ decode w = .ok i) ∧
    (∃ (s : State) (w : Word) (ts : List Turn), s.turns = .line w :: ts ∧ s.busy = false ∧ s.pending = none ∧ s.err = false ∧
      opcodeDefined (w.extractLsb' 0 8) = false) ∧
    (∃ (s : State) (w : Word) (ts : List Turn), s.turns = .line w :: ts ∧ s.busy = false ∧ s.pending = none ∧ s.err = false ∧
      opcodeDefined (w.extractLsb' 0 8) = true ∧ rsvdZero w = false) ∧
    (∃ (s : State) (w : Word) (ts : List Turn), s.turns = .line w :: ts ∧ s.busy = false ∧ s.err = true ∧ w ≠ 0x0000000C) ∧
    ∃ (s : State) (w : Word) (ts : List Turn) (i : Instr), s.turns = .line w :: ts ∧ s.busy = true ∧ s.pending = some i :=
  ⟨⟨onLine 0x00000011 (start []), 0x00000011, [], .decompress, rfl, rfl, rfl, by decide +kernel⟩,
    ⟨onLine 0x0000000C failed, 0x0000000C, [], .clearErr, rfl, rfl, rfl, rfl, by decide +kernel⟩,
    ⟨onLine 0x0000000D (start []), 0x0000000D, [], rfl, rfl, rfl, rfl, by decide +kernel⟩,
    ⟨onLine 0x00000100 (start []), 0x00000100, [], rfl, rfl, rfl, rfl, by decide +kernel, by decide +kernel⟩,
    ⟨onLine 0x0000010C failed, 0x0000010C, [], rfl, rfl, rfl, by decide⟩,
    onLine 0x00000002 (busyWith .count (start aaab)), 0x00000002, [], .count, rfl, rfl, rfl⟩

theorem witness_BlockTurnCompletesPending :
    (∃ (s : State) (ts : List Turn) (i : Instr), s.turns = .block :: ts ∧ s.busy = true ∧ s.pending = some i) ∧
    (∃ (s : State) (i : Instr), s.turns = [] ∧ s.busy = true ∧ s.pending = some i) ∧
    ∃ s : State, s.turns = [] ∧ s.busy = false :=
  ⟨⟨{ busyWith .count (start []) with turns := [.block] }, [], .count, rfl, rfl, rfl⟩,
    ⟨busyWith .close (start []), .close, rfl, rfl, rfl⟩, start [], rfl, rfl⟩

theorem witness_BusyRejectsEveryWord :
    ∃ (s : State) (w : Word) (ts : List Turn), s.turns = .write 32 (s.hufBase + 0x008) w :: ts ∧ s.busy = true :=
  ⟨wr 0x008 0x00000002 (busyWith .count (start [])), 0x00000002, [], rfl, rfl⟩

theorem witness_ErrorRejectsAllButClearErr :
    ∃ (s : State) (w : Word) (ts : List Turn), s.turns = .write 32 (s.hufBase + 0x008) w :: ts ∧ s.err = true ∧
      w ≠ 0x0000000C :=
  ⟨wr 0x008 0x0000010C failed, 0x0000010C, [], rfl, rfl, by decide⟩

theorem witness_IllegalWordSetsErrAtIssue :
    (∃ (s : State) (w : Word) (ts : List Turn), s.turns = .write 32 (s.hufBase + 0x008) w :: ts ∧ s.busy = false ∧
      s.pending = none ∧ s.err = false ∧ opcodeDefined (w.extractLsb' 0 8) = false) ∧
    ∃ (s : State) (w : Word) (ts : List Turn), s.turns = .write 32 (s.hufBase + 0x008) w :: ts ∧ s.busy = false ∧
      s.pending = none ∧ s.err = false ∧ opcodeDefined (w.extractLsb' 0 8) = true ∧ rsvdZero w = false :=
  ⟨⟨wr 0x008 0x0000000D (start []), 0x0000000D, [], rfl, rfl, rfl, rfl, by decide +kernel⟩,
    wr 0x008 0x00000100 (start []), 0x00000100, [], rfl, rfl, rfl, rfl, by decide +kernel, by decide +kernel⟩

theorem witness_LegalWordIsAccepted :
    (∃ (s : State) (i : Instr) (ts : List Turn), s.turns = .write 32 (s.hufBase + 0x008) (encode i) :: ts ∧ s.busy = false ∧
      s.err = false) ∧
    ∃ (s : State) (ts : List Turn), s.turns = .write 32 (s.hufBase + 0x008) (encode .clearErr) :: ts ∧ s.busy = false ∧
      s.err = true :=
  ⟨⟨wr 0x008 (encode .compress) (start []), .compress, [], rfl, rfl, rfl⟩, wr 0x008 (encode .clearErr) failed, [], rfl, rfl, rfl⟩

theorem witness_SequenceErrors : ∃ s : State, s.freqValid = false ∧ s.treeValid = false ∧ s.codesValid = false :=
  ⟨start [], rfl, rfl, rfl⟩

theorem witness_OutClosedErrors : ∃ s : State, s.outClosed = true ∧ s.treeValid = true ∧ s.codesValid = true :=
  ⟨{ derived with outClosed := true }, rfl, rfl, rfl⟩

/-- No partial byte, and a partial byte of seven bits. -/
theorem witness_ClosePadsAndCloses :
    (∃ s : State, s.outClosed = false ∧ s.pend.length < 8 ∧ s.pend = []) ∧
    ∃ s : State, s.outClosed = false ∧ s.pend.length < 8 ∧ s.pend.length = 7 :=
  ⟨⟨start [], rfl, by decide, rfl⟩, { start [] with pend := List.replicate 7 true, outPos := 7 }, rfl, by decide, by decide⟩

theorem exists_bytes (n : Nat) : ∃ bytes : List Byte, bytes.length = n := ⟨List.replicate n 0, List.length_replicate⟩

theorem exists_input (n : Nat) (h : n < Config.streamLimit) :
    ∃ s : State, s.inBytes.length < Config.streamLimit ∧ (byteFields s.restBits).length = n := by
  obtain ⟨bytes, hb⟩ := exists_bytes n
  refine ⟨State.launch bytes, lt_of_eq_of_lt hb h, ?_⟩
  have : (State.launch bytes).restBits = bytesBits bytes := rfl
  rw [this, byteFields_bytesBits, dataSyms, List.length_map, hb]

/-- An input of exactly MAX_INPUT bytes. -/
theorem witness_CountTalliesTheInput :
    ∃ s : State, s.inBytes.length < Config.streamLimit ∧ (byteFields s.restBits).length ≤ Config.maxInput ∧
      (byteFields s.restBits).length = Config.maxInput := by
  obtain ⟨s, h1, h2⟩ := exists_input Config.maxInput (by decide)
  exact ⟨s, h1, h2.le, h2⟩

/-- An input of MAX_INPUT + 1 bytes. -/
theorem witness_CountRefusesLongInput :
    ∃ s : State, s.inBytes.length < Config.streamLimit ∧ Config.maxInput < (byteFields s.restBits).length := by
  obtain ⟨s, h1, h2⟩ := exists_input (Config.maxInput + 1) (by decide)
  exact ⟨s, h1, by omega⟩

def countedNothing : State := { start [] with freq := State.reset.freq.set 256 1, freqValid := true }

theorem witness_BuildWrapsALoneLeaf : ∃ s : State, s.freqValid = true ∧ positives s.freq = [Config.eos] :=
  ⟨countedNothing, by decide +kernel⟩

/-- Two positive counts, and all 257. -/
theorem witness_BuildMergesTheTwoLeast :
    (∃ s : State, s.freqValid = true ∧ 2 ≤ (positives s.freq).length ∧ (positives s.freq).length = 2) ∧
    ∃ s : State, s.freqValid = true ∧ 2 ≤ (positives s.freq).length ∧ (positives s.freq).length = 257 :=
  ⟨⟨{ countedNothing with freq := countedNothing.freq.set 65 1 }, by decide +kernel⟩,
    { countedNothing with freq := Vector.replicate 257 1 }, by decide +kernel⟩

theorem freqOk_counted : FreqOk counted := ⟨by decide +kernel, by decide +kernel, by decide +kernel⟩

theorem freqOk_countedNothing : FreqOk countedNothing := ⟨by decide +kernel, by decide +kernel, by decide +kernel⟩

theorem witness_BuildMakesAValidTree :
    (∃ s : State, s.freqValid = true ∧ FreqOk s ∧ 2 ≤ (positives s.freq).length) ∧
    ∃ s : State, s.freqValid = true ∧ FreqOk s ∧ (positives s.freq).length = 1 :=
  ⟨⟨counted, rfl, freqOk_counted, by decide +kernel⟩, countedNothing, rfl, freqOk_countedNothing, by decide +kernel⟩

/-- Does the node store hold the tree `t`? -/
def holdsTree (s : State) (t : Tree) : Bool :=
  match s.tree with
  | .error _ => false
  | .ok u => decide (u = t)

theorem tree_of_holds {s : State} {t : Tree} (h : holdsTree s t = true) : s.tree = .ok t := by
  unfold holdsTree at h
  split at h
  · cases h
  · rename_i u hu
    rw [hu, of_decide_eq_true h]

theorem valid_built : ValidTree built := .of_check (by decide +kernel)

theorem valid_derived : ValidTree derived := .of_check (by decide +kernel)

theorem valid_reread : ValidTree reread := .of_check (by decide +kernel)

theorem codes_derived : CodesOk derived := ⟨aaabTree, tree_of_holds (by decide +kernel), by decide +kernel⟩

theorem witness_DeriveRecordsLeafPaths : ∃ s : State, s.treeValid = true ∧ ValidTree s := ⟨built, rfl, valid_built⟩

theorem witness_CodesArePrefixFree :
    ∃ (s : State) (a b : Sym), ValidTree s ∧ CodesOk s ∧ a ≠ b ∧ s.code[a] ≠ [] ∧ s.code[b] ≠ [] :=
  ⟨derived, 66, 256, valid_derived, codes_derived, by decide +kernel⟩

theorem witness_WriteBodyEncodesTheInput :
    ∃ s : State, s.codesValid = true ∧ s.outClosed = false ∧ s.pend.length < 8 ∧ s.inBytes.length < Config.streamLimit ∧
      (∀ c ∈ byteFields s.restBits, s.code[c] ≠ []) ∧ s.code[Config.eos] ≠ [] ∧ byteFields s.restBits = [65, 65, 65, 66] :=
  ⟨{ derived with inPos := 0 }, by decide +kernel⟩

theorem witness_WriteBodyRaisesNoCode :
    (∃ (s : State) (pre : List Sym) (v : Sym) (post : List Sym), s.codesValid = true ∧ s.outClosed = false ∧
      s.pend.length < 8 ∧ s.inBytes.length < Config.streamLimit ∧ byteFields s.restBits = pre ++ v :: post ∧
      (∀ c ∈ pre, s.code[c] ≠ []) ∧ s.code[v] = []) ∧
    ∃ s : State, s.codesValid = true ∧ s.outClosed = false ∧ s.pend.length < 8 ∧ s.inBytes.length < Config.streamLimit ∧
      (∀ c ∈ byteFields s.restBits, s.code[c] ≠ []) ∧ s.code[Config.eos] = [] :=
  ⟨⟨{ derived with inPos := 0, code := derived.code.set 66 [] }, [65, 65, 65], 66, [], by decide +kernel⟩,
    { derived with inPos := 0, code := derived.code.set 256 [] }, by decide +kernel⟩

theorem witness_WriteMagicCompletes : ∃ s : State, s.outClosed = false ∧ s.pend.length < 8 ∧ s.pend.length = 7 :=
  ⟨{ start [] with pend := List.replicate 7 true, outPos := 7 }, by decide +kernel⟩

theorem witness_WriteHeaderEmitsTheTree :
    ∃ s : State, s.treeValid = true ∧ ValidTree s ∧ s.outClosed = false ∧ s.pend.length < 8 :=
  ⟨reread, rfl, valid_reread, rfl, by decide⟩

/-- The tag, another 32 bits, and 31 bits. -/
theorem witness_CheckMagicOutcomes :
    (∃ s : State, s.restBits.take 32 = bitsOf 32 s.magic.toNat) ∧
    (∃ s : State, 32 ≤ s.restBits.length ∧ s.restBits.take 32 ≠ bitsOf 32 s.magic.toNat) ∧
    ∃ s : State, s.restBits.length < 32 ∧ s.restBits.length = 31 :=
  ⟨⟨start aaabStream, by decide +kernel⟩, ⟨start aaab, by decide +kernel⟩, { start aaab with inPos := 1 }, by decide +kernel⟩

/-- The right-leaning chain of 2.17: the symbols of `l` and then `v`, over indices from `n` on. -/
def chainTree (v : Sym) : Nat → List Sym → Tree
  | n, [] => .leaf n v
  | n, c :: l => .node n (.leaf (n + 1) c) (chainTree v (n + 2) l)

/-- The bytes of a bit string whose length is a multiple of 8. -/
def packed : Nat → BitStr → List Byte
  | 0, _ => []
  | n + 1, c => BitVec.ofNat 8 (uint (c.take 8)) :: packed n (c.drop 8)

def bigTree : Tree := chainTree 256 0 ((List.range 256).map symOfByte)

/-- A header of three leaves, and the one of 257 leaves that fills the node store. -/
theorem witness_ReadHeaderRebuildsTheTree :
    (∃ (s : State) (tr : Tree) (rest : BitStr), s.inBytes.length < Config.streamLimit ∧ tr.isNode = true ∧
      tr.indices.length ≤ Config.nodeCap ∧ s.restBits = tr.headerBits ++ rest) ∧
    ∃ (s : State) (tr : Tree) (rest : BitStr), s.inBytes.length < Config.streamLimit ∧ tr.isNode = true ∧
      tr.indices.length ≤ Config.nodeCap ∧ s.restBits = tr.headerBits ++ rest ∧ tr.indices.length = Config.nodeCap :=
  ⟨⟨{ start aaabStream with inPos := 32 }, rereadTree, bitsOf 8 0xE2, by decide +kernel⟩,
    { start [] with inBytes := packed 354 (bigTree.headerBits ++ bitsOf 6 0) }, bigTree, bitsOf 6 0, by decide +kernel⟩

/-- A chain of k + 1 leaves. -/
def chainOf (k : Nat) : Tree := chainTree 256 0 (List.replicate k 65)

/-- A state whose input is, in `len` bytes, the first n nodes of the chain of k + 1 leaves and then `rest`. -/
def atStem (len k n : Nat) (rest : BitStr) : State :=
  { start [] with inBytes := packed len (((chainOf k).preorder.take n).flatMap nodeBits ++ rest) }

/-- A leaf at the root; the empty input; the vector 5f ff of 2.11, whose second leaf is cut; and, after 512 nodes of
a chain, the end, a cut leaf, and a leaf of value 257; and the chain's first 513 nodes with a byte's end after them. -/
theorem witness_ReadHeaderErrorsInOrder :
    (∃ (s : State) (rest : BitStr), s.inBytes.length < Config.streamLimit ∧ s.restBits = true :: rest) ∧
    (∃ (s : State) (tr : Tree), s.inBytes.length < Config.streamLimit ∧ tr.isNode = true ∧ tr.preorder = [] ++ tr.preorder ∧
      tr.preorder ≠ [] ∧ 0 < Config.nodeCap ∧ s.restBits = [].flatMap nodeBits) ∧
    (∃ (s : State) (tr : Tree) (pre post : List (Option Sym)) (rest : BitStr), s.inBytes.length < Config.streamLimit ∧
      tr.isNode = true ∧ tr.preorder = pre ++ post ∧ post ≠ [] ∧ pre ≠ [] ∧ pre.length < Config.nodeCap ∧
      s.restBits = pre.flatMap nodeBits ++ true :: rest ∧ rest.length < 9 ∧ s.inBytes = [0x5F, 0xFF]) ∧
    (∃ (s : State) (tr : Tree) (pre post : List (Option Sym)), s.inBytes.length < Config.streamLimit ∧ tr.isNode = true ∧
      tr.preorder = pre ++ post ∧ post ≠ [] ∧ pre.length < Config.nodeCap ∧ s.restBits = pre.flatMap nodeBits ∧
      pre.length = 512) ∧
    (∃ (s : State) (tr : Tree) (pre post : List (Option Sym)) (rest : BitStr), s.inBytes.length < Config.streamLimit ∧
      tr.isNode = true ∧ tr.preorder = pre ++ post ∧ post ≠ [] ∧ pre ≠ [] ∧ pre.length < Config.nodeCap ∧
      s.restBits = pre.flatMap nodeBits ++ true :: rest ∧ rest.length < 9 ∧ pre.length = 512) ∧
    (∃ (s : State) (tr : Tree) (pre post : List (Option Sym)) (field rest : BitStr), s.inBytes.length < Config.streamLimit ∧
      tr.isNode = true ∧ tr.preorder = pre ++ post ∧ post ≠ [] ∧ pre ≠ [] ∧ pre.length < Config.nodeCap ∧
      s.restBits = pre.flatMap nodeBits ++ true :: (field ++ rest) ∧ field.length = 9 ∧ 256 < uint field ∧ uint field = 257 ∧
      pre.length = 512) ∧
    ∃ (s : State) (tr : Tree) (pre post : List (Option Sym)) (rest : BitStr), s.inBytes.length < Config.streamLimit ∧
      tr.isNode = true ∧ tr.preorder = pre ++ post ∧ post ≠ [] ∧ pre.length = Config.nodeCap ∧
      s.restBits = pre.flatMap nodeBits ++ rest :=
  ⟨⟨start [0x80], List.replicate 7 false, by decide +kernel⟩, ⟨start [], aaabTree, by decide +kernel⟩,
    ⟨start [0x5F, 0xFF], .node 0 (.leaf 1 255) (.leaf 2 256), [none, some 255], [some 256], List.replicate 4 true, by decide +kernel⟩,
    ⟨atStem 352 256 512 [], chainOf 256,
      (chainOf 256).preorder.take 512, (chainOf 256).preorder.drop 512, by decide +kernel⟩,
    ⟨atStem 353 256 512 (true :: List.replicate 7 false),
      chainOf 256, (chainOf 256).preorder.take 512, (chainOf 256).preorder.drop 512, List.replicate 7 false, by decide +kernel⟩,
    ⟨atStem 354 256 512 (true :: (bitsOf 9 257 ++ List.replicate 6 false)), chainOf 256, (chainOf 256).preorder.take 512,
      (chainOf 256).preorder.drop 512, bitsOf 9 257, List.replicate 6 false, by decide +kernel⟩,
    atStem 353 257 513 (List.replicate 7 false),
    chainOf 257, (chainOf 257).preorder.take 513, (chainOf 257).preorder.drop 513, List.replicate 7 false, by decide +kernel⟩

def itemsAAAB : List (Sym × BitStr) := [(65, [true]), (65, [true]), (65, [true]), (66, [false, false])]

theorem witness_ReadBodyDecodesPaths :
    ∃ (s : State) (tr : Tree) (items : List (Sym × BitStr)) (e rest : BitStr), s.treeValid = true ∧ ValidTree s ∧
      s.outClosed = false ∧ s.pend.length < 8 ∧ s.inBytes.length < Config.streamLimit ∧ s.tree = .ok tr ∧
      (∀ q ∈ items, q ∈ tr.paths [] ∧ q.1 ≠ Config.eos) ∧ (Config.eos, e) ∈ tr.paths [] ∧
      s.restBits = items.flatMap Prod.snd ++ (e ++ rest) :=
  ⟨reread, rereadTree, itemsAAAB, [false, true], [false], rfl, valid_reread, rfl, by decide, by decide, tree_of_holds (by decide +kernel),
    by decide +kernel, by decide +kernel, by decide +kernel⟩

/-- The input ends at the root after no item, and inside a path after items. -/
theorem witness_ReadBodyTruncated :
    (∃ (s : State) (tr : Tree) (nd : Node), s.treeValid = true ∧ ValidTree s ∧ s.outClosed = false ∧ s.pend.length < 8 ∧
      s.inBytes.length < Config.streamLimit ∧ s.tree = .ok tr ∧ followBits s.node s.root.toNat [] = some 0 ∧
      s.node[0]? = some nd ∧ nd.kind = .internal ∧ s.restBits = []) ∧
    ∃ (s : State) (tr : Tree) (items : List (Sym × BitStr)) (q : BitStr) (n : Nat) (nd : Node), s.treeValid = true ∧
      ValidTree s ∧ s.outClosed = false ∧ s.pend.length < 8 ∧ s.inBytes.length < Config.streamLimit ∧ s.tree = .ok tr ∧
      (∀ x ∈ items, x ∈ tr.paths [] ∧ x.1 ≠ Config.eos) ∧ followBits s.node s.root.toNat q = some n ∧
      s.node[n]? = some nd ∧ nd.kind = .internal ∧ s.restBits = items.flatMap Prod.snd ++ q ∧ items ≠ [] ∧ q ≠ [] :=
  ⟨⟨{ reread with inPos := 72 }, rereadTree, pairN 0 1 4, rfl, .of_check (by decide +kernel), rfl, by decide, by decide,
      tree_of_holds (by decide +kernel), rfl, by decide +kernel, by decide +kernel, by decide +kernel⟩,
    { reread with inBytes := bytesOf [0xFA, 0xCE, 0x82, 0x01, 0x24, 0x2C, 0x02, 0x41, 0xFE] }, rereadTree,
    List.replicate 7 (65, [true]), [false], 1, pairN 0 2 3, rfl, .of_check (by decide +kernel), rfl, by decide, by decide,
    tree_of_holds (by decide +kernel), by decide +kernel, by decide +kernel, by decide +kernel, by decide +kernel, by decide +kernel, by decide, by decide⟩

theorem witness_ReadBodyOutputBound :
    ∃ s t : State, s.inBytes.length < Config.streamLimit ∧ s.inPos.toNat ≤ s.inLimit ∧ exec .readBody s = .next t :=
  ⟨reread, _, by decide +kernel, by decide +kernel, next_of_isSome (by decide +kernel)⟩

theorem witness_CompressWritesTheStream :
    (∃ s : State, s.outClosed = false ∧ s.pend.length < 8 ∧ s.inBytes.length ≤ Config.maxInput ∧ s.inBytes = []) ∧
    ∃ s : State, s.outClosed = false ∧ s.pend.length < 8 ∧ s.inBytes.length ≤ Config.maxInput ∧
      s.inBytes.length = Config.maxInput := by
  refine ⟨⟨start [], by decide +kernel⟩, ?_⟩
  obtain ⟨bytes, hb⟩ := exists_bytes Config.maxInput
  exact ⟨{ start [] with pend := [true], outPos := 1, inBytes := bytes }, rfl, (by decide : [true].length < 8),
    hb.le, hb⟩

/-- No partial byte, and one of seven bits. -/
theorem witness_DecompressDecodesTheStream :
    ∃ (tr : Tree) (items : List (Sym × BitStr)) (e rest : BitStr), ∀ p ∈ [[], List.replicate 7 true], ∃ s : State, s.pend = p ∧
      s.outClosed = false ∧ s.pend.length < 8 ∧
      s.inBytes.length < Config.streamLimit ∧ tr.isNode = true ∧ tr.indices.length ≤ Config.nodeCap ∧
      (∀ q ∈ items, q ∈ tr.paths [] ∧ q.1 ≠ Config.eos) ∧ (Config.eos, e) ∈ tr.paths [] ∧
      bytesBits s.inBytes = bitsOf 32 s.magic.toNat ++ (tr.headerBits ++ (items.flatMap Prod.snd ++ (e ++ rest))) := by
  refine ⟨aaabTree, itemsAAAB, [false, true], [false], fun p hp => ⟨{ start aaabStream with pend := p }, rfl, rfl, ?_⟩⟩
  revert p
  decide +kernel

/-- Another tag in a stream of four bytes, and a stream of three. -/
theorem witness_DecompressRejectsAWrongTag :
    (∃ s : State, s.outClosed = false ∧ 4 ≤ s.inBytes.length ∧ (bytesBits s.inBytes).take 32 ≠ bitsOf 32 s.magic.toNat) ∧
    ∃ s : State, s.outClosed = false ∧ s.inBytes.length < 4 ∧ s.inBytes.length = 3 :=
  ⟨⟨start aaab, by decide +kernel⟩, start (aaabStream.take 3), by decide +kernel⟩

/-- The empty input, and one of MAX_INPUT bytes. -/
theorem witness_RoundTrip :
    (∃ bytes : List Byte, bytes.length ≤ Config.maxInput ∧ bytes = []) ∧
    ∃ bytes : List Byte, bytes.length ≤ Config.maxInput ∧ bytes.length = Config.maxInput := by
  refine ⟨⟨[], by decide, rfl⟩, ?_⟩
  obtain ⟨bytes, hb⟩ := exists_bytes Config.maxInput
  exact ⟨bytes, hb.le, hb⟩

/-- Three bytes, seven bytes (inside the header) and eight (the whole header and no body). -/
theorem witness_TruncationIsDetected :
    ∃ (magic : Word) (bytes : List Byte) (c : State) (tr : Tree), bytes.length ≤ Config.maxInput ∧
      exec .compress { State.launch bytes with magic := magic } = .next c ∧ c.tree = .ok tr ∧
      ∀ k ∈ [3, 7, 8], c.outBytes.take k <+: c.outBytes ∧ (c.outBytes.take k).length < c.outBytes.length ∧
        (c.outBytes.take k).length = k ∧ 56 < 32 + tr.headerBits.length ∧ 32 + tr.headerBits.length ≤ 64 :=
  ⟨0xFACE8201, bytesOf aaab, _, aaabTree, by decide, next_of_isSome (by decide +kernel),
    tree_of_holds (by decide +kernel), by decide +kernel⟩

/-- A COMPRESS that completes and one that a wrong state of the tables cannot stop; and a DECOMPRESS that fails. -/
theorem witness_CompressSeqEndsAsCompress :
    ∃ s t : State, s.busy = false ∧ s.err = false ∧ s.outClosed = false ∧
      step { s with turns := [lineOf .compress] } = .next t ∧ t.err = false :=
  ⟨start [], _, rfl, rfl, rfl, next_of_isSome (by decide +kernel), by decide +kernel⟩

theorem witness_DecompressSeqEndsAsDecompress :
    (∃ s t : State, s.busy = false ∧ s.err = false ∧ s.outClosed = false ∧
      step { s with turns := [lineOf .decompress] } = .next t ∧ t.err = false) ∧
    ∃ s t : State, s.busy = false ∧ s.err = false ∧ s.outClosed = false ∧
      step { s with turns := [lineOf .decompress] } = .next t ∧ t.err = true :=
  ⟨⟨start aaabStream, _, rfl, rfl, rfl, next_of_isSome (by decide +kernel), by decide +kernel⟩,
    start (aaabStream.take 8), _, rfl, rfl, rfl, next_of_isSome (by decide +kernel), by decide +kernel⟩

theorem witness_FailedCompositeNeverCloses :
    ∃ (i : Instr) (s t : State), (i = .compress ∨ i = .decompress) ∧ s.err = false ∧ exec i s = .next t ∧ t.err = true :=
  ⟨.decompress, start (aaabStream.take 8), _, .inr rfl, rfl, next_of_isSome (by decide +kernel), by decide +kernel⟩

theorem witness_StatusReadsItsBits :
    ∃ (s : State) (ts : List Turn), s.turns = .read 32 (s.hufBase + 0x00C) :: ts ∧ s.busy = true :=
  ⟨rd 0x00C (busyWith .count (start [])), [], rfl, rfl⟩

theorem witness_ExactRegistersRead :
    ∃ s : State, ∀ p ∈ [(0x000, (0x48554646 : Word)), (0x004, if s.irqEn then 2 else 0), (0x008, 0),
      (0x010, s.error.detail ++ s.error.op ++ s.error.cause), (0x014, s.magic), (0x018, 0x00020120)],
      ∃ ts, (rd p.1 s).turns = .read 32 (s.hufBase + p.1) :: ts :=
  ⟨failed, fun _ _ => ⟨[], rfl⟩⟩

theorem witness_CursorsReadWhenIdle :
    ∃ s : State, s.busy = false ∧ ∀ p ∈ [(0x020, s.inPos.extractLsb' 0 32), (0x024, s.inPos.extractLsb' 32 32),
      (0x028, s.outPos.extractLsb' 0 32), (0x02C, s.outPos.extractLsb' 32 32), (0x038, s.cur.setWidth 32)],
      ∃ ts, (rd p.1 s).turns = .read 32 (s.hufBase + p.1) :: ts :=
  ⟨derived, rfl, fun _ _ => ⟨[], rfl⟩⟩

/-- Every table valid, with FREQ_TOTAL, EOS's entry of each window, ROOT, NODE_COUNT, and the last node's four words. -/
theorem witness_TablesReadWhenValid :
    ∃ s : State, s.busy = false ∧ s.freqValid = true ∧ s.codesValid = true ∧ s.treeValid = true ∧
      (∃ nd, 4 < s.nodeCount.toNat ∧ s.node[4]? = some nd) ∧
      ∀ off ∈ [0x01C, 0x030, 0x034, 0x1400, 0x2400, 0x8040, 0x8044, 0x8048, 0x804C],
        ∃ ts, (rd off s).turns = .read 32 (s.hufBase + off) :: ts :=
  ⟨derived, rfl, rfl, rfl, rfl, ⟨pairN 5 3 0, by decide +kernel⟩, fun _ _ => ⟨[], rfl⟩⟩

theorem witness_CodeBitsReadWhenValid :
    ∃ (s : State) (ts : List Turn) (c : Sym) (j : Nat), s.busy = false ∧ s.codesValid = true ∧ j < 8 ∧
      s.turns = .read 32 (s.hufBase + (0x4000 + 32 * c.val + 4 * j)) :: ts ∧ c = 256 ∧ j = 7 :=
  ⟨rd (0x4000 + 32 * 256 + 4 * 7) derived, [], 256, 7, rfl, rfl, by decide, rfl, rfl, rfl⟩

/-- One state for each of the five reasons, at the first or last offset of each. -/
theorem witness_UnsettledReadsAreDraws :
    (∃ (s : State) (ts : List Turn), s.turns = .read 32 (s.hufBase + 0x038) :: ts ∧ s.busy = true) ∧
    (∃ (s : State) (ts : List Turn) (c : Sym), s.turns = .read 32 (s.hufBase + (0x1000 + 4 * c.val)) :: ts ∧
      s.freqValid = false ∧ c = 256) ∧
    (∃ (s : State) (ts : List Turn) (c : Sym), s.turns = .read 32 (s.hufBase + (0x4000 + 32 * c.val + 4 * 7)) :: ts ∧
      s.codesValid = false ∧ c = 256) ∧
    (∃ (s : State) (ts : List Turn), s.turns = .read 32 (s.hufBase + 0x030) :: ts ∧ s.treeValid = false) ∧
    ∃ (s : State) (ts : List Turn), s.turns = .read 32 (s.hufBase + (0x8000 + 16 * 5 + 4 * 0)) :: ts ∧ s.busy = false ∧
      s.treeValid = true ∧ s.nodeCount.toNat ≤ 5 :=
  ⟨⟨rd 0x038 (busyWith .count derived), [], rfl, rfl⟩, ⟨rd (0x1000 + 4 * 256) reread, [], 256, rfl, rfl, rfl⟩,
    ⟨rd (0x4000 + 32 * 256 + 4 * 7) reread, [], 256, rfl, rfl, rfl⟩, ⟨rd 0x030 counted, [], rfl, rfl⟩,
    rd (0x8000 + 16 * 5 + 4 * 0) derived, [], rfl, rfl, rfl, by decide⟩

/-- The first and last reserved offset of each range, and a write at offset 0. -/
theorem witness_ReservedReadsAndOtherWrites :
    (∃ s : State, ∀ off ∈ [0x03C, 0xFFC, 0x1404, 0x1FFC, 0x2404, 0x3FFC, 0x6020, 0x7FFC, 0xA010, 0xFFFC],
      off % 4 = 0 ∧ off < 0x10000 ∧
      ((0x03C ≤ off ∧ off < 0x1000) ∨ (0x1404 ≤ off ∧ off < 0x2000) ∨ (0x2404 ≤ off ∧ off < 0x4000) ∨
        (0x6020 ≤ off ∧ off < 0x8000) ∨ 0xA010 ≤ off) ∧ ∃ ts, (rd off s).turns = .read 32 (s.hufBase + off) :: ts) ∧
    ∃ (s : State) (off : Nat) (w : Word) (ts : List Turn), off % 4 = 0 ∧ off < 0x10000 ∧ off ≠ 0x004 ∧ off ≠ 0x008 ∧
      off ≠ 0x00C ∧ s.turns = .write 32 (s.hufBase + off) w :: ts :=
  ⟨⟨derived, fun off h => ⟨by revert off; decide, by revert off; decide, by revert off; decide, [], rfl⟩⟩,
    wr 0x000 7 derived, 0x000, 7, [], by decide, by decide, by decide, by decide, by decide, rfl⟩

theorem witness_AcknowledgeAndEnableWrites :
    (∃ (s : State) (w : Word) (ts : List Turn), s.turns = .write 32 (s.hufBase + 0x00C) w :: ts ∧ w.getLsbD 1 = true ∧
      w.getLsbD 8 = false) ∧
    ∃ (s : State) (w : Word) (ts : List Turn), s.turns = .write 32 (s.hufBase + 0x004) w :: ts ∧ w.getLsbD 0 = false :=
  ⟨⟨wr 0x00C 2 derived, 2, [], rfl, by decide, by decide⟩, wr 0x004 2 derived, 2, [], rfl, by decide⟩

theorem witness_UndefinedAccessesHaveNoEffect :
    (∃ (s : State) (ts : List Turn) (bits off : Nat), bits ≠ 32 ∧ off < 0x10000 ∧ s.turns = .read bits (s.hufBase + off) :: ts) ∧
    ∃ (s : State) (ts : List Turn) (off : Nat) (w : Word), off % 4 ≠ 0 ∧ off < 0x10000 ∧
      s.turns = .write 32 (s.hufBase + off) w :: ts :=
  ⟨⟨{ derived with turns := [.read 8 0x00C] }, [], 8, 0x00C, by decide, by decide, rfl⟩, wr 0xFFFF 1 derived, [], 0xFFFF, 1,
    by decide, by decide, rfl⟩

theorem witness_ReadsHaveNoSideEffects : ∃ (s : State) (ts : List Turn) (bits addr : Nat), s.turns = .read bits addr :: ts :=
  ⟨rd 0x1000 reread, [], 32, 0x1000, rfl⟩

theorem witness_ResetGivesTheResetValues :
    (∃ (s : State) (ts : List Turn), s.busy = false ∧ s.turns = .hardReset :: ts) ∧
    ∃ (s : State) (ts : List Turn) (w : Word), s.busy = false ∧ s.turns = .write 32 (s.hufBase + 0x004) w :: ts ∧
      w.getLsbD 0 = true :=
  ⟨⟨{ derived with turns := [.hardReset] }, [], rfl, rfl⟩, wr 0x004 3 derived, [], 3, rfl, rfl, by decide⟩

/-- A hard and a soft reset over a COMPRESS of the empty input, whose output is seven bytes. -/
theorem witness_ResetCancelsTheCommand :
    (∃ (s r e : State) (ts : List Turn) (i : Instr) (out : List Byte), s.busy = true ∧ s.pending = some i ∧
      s.turns = .hardReset :: ts ∧ r = { s with turns := ts } ∧ exec i r = .next e ∧ e.outBytes = s.outBytes ++ out ∧
      out.length = 7) ∧
    ∃ (s r e : State) (ts : List Turn) (w : Word) (i : Instr) (out : List Byte), s.busy = true ∧ s.pending = some i ∧
      s.turns = .write 32 (s.hufBase + 0x004) w :: ts ∧ w.getLsbD 0 = true ∧
      r = { s with turns := ts, busLog := { data := 0, error := false } :: s.busLog, irqEn := w.getLsbD 1 } ∧
      exec i r = .next e ∧ e.outBytes = s.outBytes ++ out ∧ out.length = 7 :=
  ⟨⟨{ busyWith .compress (start []) with turns := [.hardReset] }, _, _, [], .compress,
      bytesOf [0xFA, 0xCE, 0x82, 0x01, 0x60, 0x10, 0x00], rfl, rfl, rfl, rfl, next_of_isSome (by decide +kernel),
      by decide +kernel, by decide⟩,
    wr 0x004 1 (busyWith .compress (start [])), _, _, [], 1, .compress, bytesOf [0xFA, 0xCE, 0x82, 0x01, 0x60, 0x10, 0x00], rfl,
    rfl, rfl, by decide, rfl, next_of_isSome (by decide +kernel), by decide +kernel, by decide⟩

theorem witness_LaunchMeetsTheInvariant : ∃ bytes : List Byte, bytes.length < Config.streamLimit ∧ bytes ≠ [] :=
  ⟨bytesOf aaab, by decide, by decide⟩

/-- A state in which every clause of the invariant says something. -/
theorem inv_derived : Inv { derived with turns := [lineOf .writeBody], inPos := 0 } where
  pending_iff := rfl
  busy_done := nofun
  done_err := nofun
  err_pending := nofun
  no_err _ := rfl
  err_row := nofun
  pend_len := by decide
  stream_fits := by decide
  cursor_le := by decide
  freq_ok _ := ⟨by decide +kernel, by decide +kernel, by decide +kernel⟩
  tree_ok _ := .of_check (by decide +kernel)
  codes_tree _ := rfl
  codes_ok _ := ⟨aaabTree, tree_of_holds (by decide +kernel), by decide +kernel⟩

theorem witness_EveryStepKeepsTheInvariant : ∃ s t : State, Inv s ∧ step s = .next t ∧ t.outPos ≠ s.outPos :=
  ⟨_, _, inv_derived, next_of_isSome (by decide +kernel), by decide +kernel⟩

theorem witness_NoStepStops : ∃ s : State, Inv s := ⟨_, inv_derived⟩

theorem witness_OutputIsAppendOnly : ∃ s t : State, step s = .next t ∧ s.outBytes ≠ t.outBytes :=
  ⟨onLine 0x00000004 (start []), _, next_of_isSome (by decide +kernel), by decide +kernel⟩

/-- NOP is in none of the four lists. -/
theorem witness_OnlyTheirCommandsWriteTheTables :
    ∃ (i : Instr) (s t : State), exec i s = .next t ∧ i ∉ [Instr.count, .compress] ∧
      i ∉ [Instr.build, .readHeader, .compress, .decompress] ∧ i ∉ [Instr.derive, .compress] ∧
      i ∉ [Instr.readBody, .decompress] :=
  ⟨.nop, busyWith .nop derived, _, rfl, by decide, by decide, by decide, by decide⟩

theorem witness_ErrClearsOnlyByClearErrOrReset : ∃ s t : State, step s = .next t ∧ s.err = true ∧ t.err = false :=
  ⟨onLine 0x0000000C failed, _, next_of_isSome (by decide +kernel), rfl, by decide +kernel⟩

theorem witness_OutputReopensOnlyByReset : ∃ s t : State, step s = .next t ∧ s.outClosed = true ∧ t.outClosed = false :=
  ⟨wr 0x004 1 { start [] with outClosed := true }, _, next_of_isSome (by decide +kernel), rfl, by decide +kernel⟩

end Sys2Proof.Tests
end

