-- ==== Sys2Proof/Proofs/StepMoves.lean ====
section
/-! PROOF. What one step can do, said once: how a completion ends (R105), how an issue ends (R101), what a reset leaves (R220, R222),
and from them the moves of a step (R100). The rules about every step are proved from these inversions. -/

namespace Sys2Proof.Machine

/-! Completion (R105). -/

/-- The Exec of a command (R105): what exec completes. -/
def runOf : Instr → State → Run Unit
  | .nop => runNop
  | .count => runCount
  | .build => runBuild
  | .derive => runDerive
  | .writeMagic => runWriteMagic
  | .writeHeader => runWriteHeader
  | .writeBody => runWriteBody
  | .rewind => runRewind
  | .close => runClose
  | .checkMagic => runCheckMagic
  | .readHeader => runReadHeader
  | .readBody => runReadBody
  | .clearErr => runClearErr
  | .compress => runCompress
  | .decompress => runDecompress

theorem exec_eq_complete (i : Instr) (s : State) : exec i s = complete (runOf i s) := by
  cases i <;> rfl

/-- COMPRESS runs the commands of COMPRESS_SEQ (R95, R167). -/
theorem runCompress_eq_runAll (s : State) :
    runCompress s = (require (!s.outClosed) (errorOf .outClosed .compress 0) s).andThen fun _ s =>
      runAll (compressSeqInstrs.map runOf) s := rfl

/-- DECOMPRESS runs the commands of DECOMPRESS_SEQ (R95, R168). -/
theorem runDecompress_eq_runAll (s : State) :
    runDecompress s = (require (!s.outClosed) (errorOf .outClosed .decompress 0) s).andThen fun _ s =>
      runAll (decompressSeqInstrs.map runOf) s := rfl

/-- A completion that gives a next state: the Exec ended with its value or with a raise. -/
theorem complete_next {r : Run Unit} {t : State} (h : complete r = .next t) :
    (∃ u, r = .ok () u ∧ t = u.finishOk) ∨ ∃ e u, r = .raise e u ∧ t = u.enterError e := by
  cases r with
  | ok a u => exact .inl ⟨u, rfl, (Host.Outcome.next.inj h).symm⟩
  | raise e u => exact .inr ⟨e, u, rfl, (Host.Outcome.next.inj h).symm⟩
  | fault f => cases h
  | refuse q => cases h

/-- What holds of the state an Exec ends in holds of the completed state, up to the flags a completion writes. -/
theorem exec_ends {i : Instr} {s t : State} {P : State → Prop} (hr : (runOf i s).Ends P) (h : exec i s = .next t) :
    ∃ u, P u ∧ (t = u.finishOk ∨ ∃ e, t = u.enterError e) := by
  rw [exec_eq_complete] at h
  obtain ⟨u, hu, rfl⟩ | ⟨e, u, hu, rfl⟩ := complete_next h
  · rw [hu] at hr
    exact ⟨u, hr, .inl rfl⟩
  · rw [hu] at hr
    exact ⟨u, hr, .inr ⟨e, rfl⟩⟩

/-- The commands of the two sequences are primitive and none is CLEAR_ERR (R95). -/
theorem seqInstrs_primitive :
    ∀ j ∈ compressSeqInstrs ++ decompressSeqInstrs, j.composite = false ∧ j ≠ .clearErr := by decide

/-- Every primitive command but CLEAR_ERR keeps the control fields and only extends the output. -/
theorem primitive_run_keeps {i : Instr} (hp : i.composite = false) (hi : i ≠ .clearErr) (s : State) :
    (runOf i s).Ends (Keeps s) := by
  have weaken : ∀ {r : Run Unit}, r.Ends (KeepsOpen s) → r.Ends (Keeps s) := fun h => h.mono fun _ => KeepsOpen.toKeeps
  cases i with
  | nop => exact Keeps.refl s
  | count => exact weaken (runCount_keeps s)
  | build => exact weaken (runBuild_keeps s)
  | derive => exact weaken (runDerive_keeps s)
  | writeMagic => exact weaken (runWriteMagic_keeps s)
  | writeHeader => exact weaken (runWriteHeader_keeps s)
  | writeBody => exact weaken (runWriteBody_keeps s)
  | rewind => exact weaken (runRewind_keeps s)
  | close => exact runClose_keeps s
  | checkMagic => exact weaken (runCheckMagic_keeps s)
  | readHeader => exact weaken (runReadHeader_keeps s)
  | readBody => exact weaken (runReadBody_keeps s)
  | clearErr => exact absurd rfl hi
  | compress => cases hp
  | decompress => cases hp

/-- A composite's body ends in a relation its commands' Execs end in (R167, R168). -/
theorem composite_ends {R : State → State → Prop} (hrefl : ∀ s, R s s) (htrans : ∀ {s t u}, R s t → R t u → R s u)
    (p : Bool) (e : ErrorReg) (l : List Instr) (hl : ∀ j ∈ l, ∀ s, (runOf j s).Ends (R s)) (s : State) :
    ((require p e s).andThen fun _ s => runAll (l.map runOf) s).Ends (R s) := by
  refine Run.Ends.andThen (require_ends (hrefl s)) fun a t ht => ?_
  obtain ⟨-, rfl⟩ := require_ok ht
  exact runAll_ends hrefl htrans _ (List.forall_mem_map.mpr hl) t

theorem runCompress_ends {R : State → State → Prop} (hrefl : ∀ s, R s s) (htrans : ∀ {s t u}, R s t → R t u → R s u)
    (hl : ∀ j ∈ compressSeqInstrs, ∀ s, (runOf j s).Ends (R s)) (s : State) : (runCompress s).Ends (R s) := by
  rw [runCompress_eq_runAll]
  exact composite_ends hrefl htrans _ _ _ hl s

theorem runDecompress_ends {R : State → State → Prop} (hrefl : ∀ s, R s s) (htrans : ∀ {s t u}, R s t → R t u → R s u)
    (hl : ∀ j ∈ decompressSeqInstrs, ∀ s, (runOf j s).Ends (R s)) (s : State) : (runDecompress s).Ends (R s) := by
  rw [runDecompress_eq_runAll]
  exact composite_ends hrefl htrans _ _ _ hl s

/-- Every command but CLEAR_ERR keeps the control fields and only extends the output. -/
theorem run_keeps {i : Instr} (hi : i ≠ .clearErr) (s : State) : (runOf i s).Ends (Keeps s) := by
  have hseq : ∀ j ∈ compressSeqInstrs ++ decompressSeqInstrs, ∀ s, (runOf j s).Ends (Keeps s) := fun j hj =>
    primitive_run_keeps (seqInstrs_primitive j hj).1 (seqInstrs_primitive j hj).2
  cases hp : i.composite with
  | false => exact primitive_run_keeps hp hi s
  | true =>
    cases i with
    | compress =>
      exact runCompress_ends Keeps.refl Keeps.trans (fun j hj => hseq j (List.mem_append_left _ hj)) s
    | decompress =>
      exact runDecompress_ends Keeps.refl Keeps.trans (fun j hj => hseq j (List.mem_append_right _ hj)) s
    | _ => cases hp

/-- CLEAR_ERR's completion (R111). -/
theorem exec_clearErr (s : State) : exec .clearErr s = .next s.clearError.finishOk := rfl

/-! Issue (R101). -/

/-- The four ends of an issue, in the order of R208. -/
theorem issue_cases (w : Word) (s : State) :
    ((s.busy = true ∨ s.err = true ∧ w ≠ clearErrWord) ∧ s.issue w = s.reject) ∨
    (s.busy = false ∧ (s.err = true → w = clearErrWord) ∧
      ((∃ r, decode w = .error r ∧ s.issue w = State.enterError (illegalError w r) { s with done := false }) ∨
        ∃ i, decode w = .ok i ∧ s.issue w = s.accept i)) := by
  unfold State.issue
  cases hb : s.busy with
  | true => exact .inl ⟨.inl rfl, rfl⟩
  | false =>
    by_cases hr : s.err = true ∧ w ≠ clearErrWord
    · exact .inl ⟨.inr hr, by simp [hr]⟩
    · have hw : s.err = true → w = clearErrWord := fun he => by_contra fun hne => hr ⟨he, hne⟩
      have hc : (s.err && w != clearErrWord) = false := by
        cases he : s.err with
        | false => rfl
        | true => simp [hw he]
      refine .inr ⟨rfl, hw, ?_⟩
      rw [hc]
      cases hd : decode w with
      | error r => exact .inl ⟨r, rfl, rfl⟩
      | ok i => exact .inr ⟨i, rfl, rfl⟩

theorem decode_clearErrWord : decode clearErrWord = .ok .clearErr := by decide +kernel

/-! Reset (R220, R222). -/

/-- A reset that gives a next state leaves the reset values, after a cancelled command's output if one was in progress. -/
theorem resetNow_next {s t : State} (h : s.resetNow = .next t) :
    t = s.toReset ∨ ∃ u, t = (State.cancelOutput u s).toReset := by
  unfold State.resetNow at h
  split at h
  · split at h
    · cases h
    · split at h
      · exact .inr ⟨_, (Host.Outcome.next.inj h).symm⟩
      · cases h
      · cases h
  · exact .inl (Host.Outcome.next.inj h).symm

/-! The moves of a step (R100). -/

/-- What one step can do. A turn leaves the list, an access is answered in the log; beside that the step is quiet on HUF, or it
issues a word, writes STATUS or CTRL, completes the pending command, issues and completes a line's word, or resets. -/
inductive StepMove (s : State) : State → Prop
  | quiet (ts : List Turn) (b : List BusResp) (d : Nat) : StepMove s { s with turns := ts, busLog := b, draws := d }
  | issued (w : Word) (ts : List Turn) (b : List BusResp) : StepMove s (State.issue w { s with turns := ts, busLog := b })
  | acked (w : Word) (ts : List Turn) (b : List BusResp) : StepMove s (State.ackStatus w { s with turns := ts, busLog := b })
  | enabled (w : Word) (ts : List Turn) (b : List BusResp) : StepMove s (State.setIrqEn w { s with turns := ts, busLog := b })
  | completed (ts : List Turn) {i : Instr} {t : State} (hb : s.busy = true) (hp : s.pending = some i)
      (he : exec i { s with turns := ts } = .next t) : StepMove s t
  | lineCompleted (w : Word) (ts : List Turn) {i : Instr} {u t : State} (ht : s.turns = .line w :: ts)
      (hu : State.issue w { s with turns := ts } = u) (hb : u.busy = true) (hp : u.pending = some i)
      (he : exec i u = .next t) : StepMove s t
  | reset (w : Word) (ts : List Turn) {b : List BusResp} {q : Bool} {t : State}
      (ht : s.turns = .hardReset :: ts ∨ s.turns = .write 32 (s.hufBase + 0x004) w :: ts ∧ w.getLsbD 0 = true)
      (hr : State.resetNow { s with turns := ts, busLog := b, irqEn := q } = .next t) : StepMove s t

theorem blockStep_next {s t : State} (h : s.blockStep = .next t) :
    (s.busy = false ∧ t = s) ∨ ∃ i, s.busy = true ∧ s.pending = some i ∧ exec i s = .next t := by
  unfold State.blockStep at h
  split at h
  · split at h
    · cases h
    · exact .inr ⟨_, ‹_›, ‹_›, h⟩
  · exact .inl ⟨Bool.eq_false_of_not_eq_true ‹_›, (Host.Outcome.next.inj h).symm⟩

/-- A read writes the bus's answers and the count of draws alone (R54, R58). -/
theorem hostRead_quiet (bits addr : Nat) (s : State) :
    ∃ b d, s.hostRead bits addr = { s with busLog := b, draws := d } := by
  unfold State.hostRead
  split
  · exact ⟨s.busLog, s.draws, rfl⟩
  next off _ =>
    split
    · cases s.readReg off with
      | exact w => exact ⟨_, _, rfl⟩
      | draw => exact ⟨_, _, rfl⟩
    · exact ⟨_, _, rfl⟩

/-- A write outside the defined accesses is quiet; a defined one writes a register (R53, R55). -/
theorem hostWrite_cases (bits addr : Nat) (w : Word) (s : State) :
    (∃ b, s.hostWrite bits addr w = .next { s with busLog := b }) ∨
      ∃ off, bits = 32 ∧ addr = s.hufBase + off ∧ s.hostWrite bits addr w = (s.respond 0 false).writeReg off w := by
  unfold State.hostWrite windowOffset
  split_ifs with hin
  · by_cases hd : definedAccess bits (addr - s.hufBase)
    · have h32 : bits = 32 := by simp only [definedAccess, Bool.and_eq_true, decide_eq_true_eq] at hd; exact hd.1
      exact .inr ⟨addr - s.hufBase, h32, by omega, by simp [hd]⟩
    · exact .inl ⟨_, by simp only [hd]; rfl⟩
  · exact .inl ⟨s.busLog, rfl⟩

/-- A register write: CTRL with or without a reset, CMD, STATUS, or no effect (R55). -/
theorem writeReg_cases (off : Nat) (w : Word) (s : State) :
    (off = 0x004 ∧ w.getLsbD 0 = true ∧ s.writeReg off w = (s.setIrqEn w).resetNow) ∨
    (off = 0x004 ∧ w.getLsbD 0 = false ∧ s.writeReg off w = .next (s.setIrqEn w)) ∨
    (off = 0x008 ∧ s.writeReg off w = .next (s.issue w)) ∨
    (off = 0x00C ∧ s.writeReg off w = .next (s.ackStatus w)) ∨
    (off ≠ 0x004 ∧ off ≠ 0x008 ∧ off ≠ 0x00C ∧ s.writeReg off w = .next s) := by
  unfold State.writeReg
  split
  · cases hw : w.getLsbD 0 with
    | true => exact .inl ⟨rfl, rfl, rfl⟩
    | false => exact .inr (.inl ⟨rfl, rfl, rfl⟩)
  · exact .inr (.inr (.inl ⟨rfl, rfl⟩))
  · exact .inr (.inr (.inr (.inl ⟨rfl, rfl⟩)))
  · exact .inr (.inr (.inr (.inr ⟨‹_›, ‹_›, ‹_›, rfl⟩)))

/-- The moves of the block's turn: none when idle, else the completion. -/
theorem blockStep_move {s t : State} {ts : List Turn} (h : State.blockStep { s with turns := ts } = .next t) : StepMove s t := by
  obtain ⟨-, rfl⟩ | ⟨i, hb, hp, he⟩ := blockStep_next h
  · exact .quiet ts s.busLog s.draws
  · exact .completed ts hb hp he

/-- The moves of a host write. -/
theorem hostWrite_move {s t : State} {bits addr : Nat} {w : Word} {ts : List Turn} (ht : s.turns = .write bits addr w :: ts)
    (h : State.hostWrite bits addr w { s with turns := ts } = .next t) : StepMove s t := by
  obtain ⟨b, hb⟩ | ⟨off, rfl, rfl, hb⟩ := hostWrite_cases bits addr w { s with turns := ts }
  · obtain rfl : _ = t := Host.Outcome.next.inj (hb.symm.trans h)
    exact .quiet ts b s.draws
  · rw [hb] at h
    obtain ⟨rfl, hw, hr⟩ | ⟨-, -, hr⟩ | ⟨-, hr⟩ | ⟨-, hr⟩ | ⟨-, -, -, hr⟩ :=
      writeReg_cases off w (State.respond 0 false { s with turns := ts })
    · exact .reset w ts (.inr ⟨ht, hw⟩) (hr.symm.trans h)
    · obtain rfl := Host.Outcome.next.inj (hr.symm.trans h)
      exact .enabled w ts _
    · obtain rfl := Host.Outcome.next.inj (hr.symm.trans h)
      exact .issued w ts _
    · obtain rfl := Host.Outcome.next.inj (hr.symm.trans h)
      exact .acked w ts _
    · obtain rfl := Host.Outcome.next.inj (hr.symm.trans h)
      exact .quiet ts _ s.draws

/-- Every step that gives a next state is one of the moves. -/
theorem step_move {s t : State} (h : step s = .next t) : StepMove s t := by
  unfold step nextTurn at h
  split at h
  · rename_i hts
    have hs : s = { s with turns := [] } := by rw [← hts]
    exact blockStep_move (hs ▸ h)
  · rename_i turn ts hts
    cases turn with
    | block => exact blockStep_move h
    | line w =>
      obtain ⟨-, rfl⟩ | ⟨i, hb, hp, he⟩ := blockStep_next h
      · exact .issued w ts s.busLog
      · exact .lineCompleted w ts hts rfl hb hp he
    | read bits addr =>
      obtain ⟨b, d, hq⟩ := hostRead_quiet bits addr { s with turns := ts }
      have ht := Host.Outcome.next.inj h
      rw [hq] at ht
      exact ht ▸ .quiet ts b d
    | write bits addr w => exact hostWrite_move hts h
    | hardReset => exact .reset 0 ts (.inl hts) h

end Sys2Proof.Machine
end

