-- ==== Sys2Proof/Proofs/Invariant.lean ====
section
/-! PROOF. O54: every move of a step keeps the invariant. The invariant is a part that issue and completion write (the control
fields) and a part that an Exec touches (`Sound`); each is followed through the moves. -/

namespace Sys2Proof.Machine

/-- The part of the invariant about BUSY, pending, DONE, ERR and ERROR. -/
structure ControlOk (s : State) : Prop where
  pending_iff : s.busy = s.pending.isSome
  busy_done : s.busy = true → s.done = false
  done_err : s.done = true → s.err = false
  err_pending : s.err = true → s.busy = true → s.pending = some .clearErr
  no_err : s.err = false → s.error = ErrorReg.none
  err_row : s.err = true → s.error.isRow

theorem Inv.control {s : State} (h : Inv s) : ControlOk s :=
  ⟨h.pending_iff, h.busy_done, h.done_err, h.err_pending, h.no_err, h.err_row⟩

theorem Inv.sound {s : State} (h : Inv s) : Sound s :=
  ⟨h.pend_len, h.stream_fits, h.cursor_le, h.freq_ok, h.tree_ok, h.codes_tree, h.codes_ok⟩

theorem inv_of_parts {s : State} (hc : ControlOk s) (hs : Sound s) : Inv s where
  pending_iff := hc.pending_iff
  busy_done := hc.busy_done
  done_err := hc.done_err
  err_pending := hc.err_pending
  no_err := hc.no_err
  err_row := hc.err_row
  pend_len := hs.pend_len
  stream_fits := hs.stream_fits
  cursor_le := hs.cursor_le
  freq_ok := hs.freq_ok
  tree_ok := hs.tree_ok
  codes_tree := hs.codes_tree
  codes_ok := hs.codes_ok

/-- `Sound` does not read the control fields, the answers, the turns or the draws. -/
theorem Sound.update_control {s : State} (h : Sound s) (irqEn busy done err cmdRej : Bool) (pending : Option Instr)
    (error : ErrorReg) (turns : List Turn) (busLog : List BusResp) (draws : Nat) :
    Sound { s with
      irqEn := irqEn, busy := busy, done := done, err := err, cmdRej := cmdRej, pending := pending, error := error
      turns := turns, busLog := busLog, draws := draws } :=
  h.congr h.pend_len rfl h.cursor_le rfl rfl rfl rfl rfl rfl rfl rfl rfl

/-- IRQ_EN, CMD_REJ, the turns, the answers and the draws are in no clause of the invariant. -/
theorem Inv.update_unread {s : State} (h : Inv s) (irqEn cmdRej : Bool) (turns : List Turn) (busLog : List BusResp) (draws : Nat) :
    Inv { s with irqEn := irqEn, cmdRej := cmdRej, turns := turns, busLog := busLog, draws := draws } :=
  inv_of_parts ⟨h.pending_iff, h.busy_done, h.done_err, h.err_pending, h.no_err, h.err_row⟩ (h.sound.update_control ..)

/-- Clearing DONE, as STATUS's write does, keeps the invariant. -/
theorem Inv.ackStatus {s : State} (h : Inv s) (w : Word) : Inv (s.ackStatus w) := by
  have hd : ∀ b, (s.done && b) = true → s.done = true := fun b hb => (Bool.and_eq_true_iff.mp hb).1
  exact inv_of_parts
    ⟨h.pending_iff, fun hb => by simp [h.busy_done hb], fun hb => h.done_err (hd _ hb), h.err_pending, h.no_err, h.err_row⟩
    (h.sound.update_control ..)

/-! Issue. -/

/-- The error of an illegal word is a row of the cause table (R83, R200). -/
theorem illegalError_isRow (w : Word) (r : Illegal) : (illegalError w r).isRow := by
  have hd : (illegalError w r).detail = 1 ∨ (illegalError w r).detail = 2 := by
    cases r with
    | undefinedOpcode => exact .inl rfl
    | rsvdNonzero => exact .inr rfl
  exact .inr (.inr (.inr (.inr (.inl ⟨rfl, hd⟩))))

/-- An error entry from DONE = 0 with a row of the cause table (R196). -/
theorem inv_enterError {s : State} (hs : Sound s) (hd : s.done = false) {e : ErrorReg} (he : e.isRow) : Inv (s.enterError e) :=
  inv_of_parts
    { pending_iff := rfl
      busy_done := fun hb => by cases hb
      done_err := fun h => by rw [State.enterError_done, hd] at h; cases h
      err_pending := fun _ hb => by cases hb
      no_err := fun h => by cases h
      err_row := fun _ => he }
    (hs.update_control ..)

/-- An accepted word leaves BUSY = 1 and DONE = 0; under ERR it is CLEAR_ERR's (R101, R103). -/
theorem inv_accept {s : State} (h : Inv s) {i : Instr} (hi : s.err = true → i = .clearErr) : Inv (s.accept i) :=
  inv_of_parts
    { pending_iff := rfl
      busy_done := fun _ => rfl
      done_err := fun hd => by cases hd
      err_pending := fun he _ => congrArg some (hi he)
      no_err := h.no_err
      err_row := h.err_row }
    (h.sound.update_control ..)

theorem Inv.issue {s : State} (h : Inv s) (w : Word) : Inv (s.issue w) := by
  obtain ⟨-, hu⟩ | ⟨-, hw, ⟨r, -, hu⟩ | ⟨i, hd, hu⟩⟩ := issue_cases w s
  · exact hu ▸ h.update_unread s.irqEn true s.turns s.busLog s.draws
  · rw [hu]
    exact inv_enterError (h.sound.update_control ..) rfl (illegalError_isRow w r)
  · rw [hu]
    refine inv_accept h fun he => ?_
    rw [hw he, decode_clearErrWord] at hd
    exact (Except.ok.inj hd).symm

/-! Completion. -/

/-- Every Exec keeps `Sound` and raises only rows of the cause table; from a sound state none stops. -/
theorem run_safe (i : Instr) {s : State} (h : Sound s) : (runOf i s).Safe Sound := by
  cases i with
  | nop => exact h
  | count => exact runCount_safe h
  | build => exact runBuild_safe h
  | derive => exact runDerive_safe h
  | writeMagic => exact runWriteMagic_safe h
  | writeHeader => exact runWriteHeader_safe h
  | writeBody => exact runWriteBody_safe h
  | rewind => exact runRewind_safe h
  | close => exact runClose_safe h
  | checkMagic => exact runCheckMagic_safe h
  | readHeader => exact runReadHeader_safe h
  | readBody => exact runReadBody_safe h
  | clearErr => exact h.update_control ..
  | compress => exact runCompress_safe h
  | decompress => exact runDecompress_safe h

/-- The end of a completion without a raise, when no error stands (R105, R106). -/
theorem inv_finishOk {s : State} (hs : Sound s) (he : s.err = false) (hn : s.error = ErrorReg.none) : Inv s.finishOk :=
  inv_of_parts
    { pending_iff := rfl
      busy_done := fun hb => by cases hb
      done_err := fun _ => he
      err_pending := fun _ hb => by cases hb
      no_err := fun _ => hn
      err_row := fun h => by rw [State.finishOk_err, he] at h; cases h }
    (hs.update_control ..)

/-- The completion of the pending command keeps the invariant (R105): ERR is 0 before every command but CLEAR_ERR (R103). -/
theorem Inv.exec {s t : State} {i : Instr} (h : Inv s) (hb : s.busy = true) (hp : s.pending = some i)
    (he : exec i s = .next t) : Inv t := by
  by_cases hi : i = .clearErr
  · subst hi
    obtain rfl := Host.Outcome.next.inj ((exec_clearErr s).symm.trans he)
    exact inv_finishOk (h.sound.update_control ..) rfl rfl
  · have herr : s.err = false := by
      cases hs : s.err with
      | false => rfl
      | true => exact absurd (Option.some.inj (hp.symm.trans (h.err_pending hs hb))) hi
    have hk := run_keeps hi s
    have hs := run_safe i h.sound
    rw [exec_eq_complete] at he
    obtain ⟨u, hu, rfl⟩ | ⟨e, u, hu, rfl⟩ := complete_next he
    · rw [hu] at hk hs
      exact inv_finishOk hs (hk.err.trans herr) (hk.error.trans (h.no_err herr))
    · rw [hu] at hk hs
      exact inv_enterError hs.1 (hk.done.trans (h.busy_done hb)) hs.2

/-! Reset. -/

/-- The reset values meet the invariant, whatever the streams (R220). -/
theorem inv_toReset {s : State} (h : s.inBytes.length < Config.streamLimit) : Inv s.toReset where
  pending_iff := rfl
  busy_done hb := by cases hb
  done_err hd := by cases hd
  err_pending he := by cases he
  no_err _ := rfl
  err_row he := by cases he
  pend_len := rfl
  stream_fits := h
  cursor_le := Nat.zero_le _
  freq_ok hv := by cases hv
  tree_ok hv := by cases hv
  codes_tree hv := by cases hv
  codes_ok hv := by cases hv

theorem inv_resetNow {s t : State} (h : s.inBytes.length < Config.streamLimit) (hr : s.resetNow = .next t) : Inv t := by
  obtain rfl | ⟨u, rfl⟩ := resetNow_next hr
  · exact inv_toReset h
  · exact inv_toReset h

/-- Settles O54: the invariant is followed through each move of a step. -/
theorem everyStepKeepsTheInvariant : Obligations.EveryStepKeepsTheInvariant := by
  intro s t h hstep
  have quiet : ∀ ts b, Inv { s with turns := ts, busLog := b } := fun ts b =>
    h.update_unread s.irqEn s.cmdRej ts b s.draws
  cases step_move hstep with
  | quiet ts b d => exact h.update_unread s.irqEn s.cmdRej ts b d
  | issued w ts b => exact (quiet ts b).issue w
  | acked w ts b => exact (quiet ts b).ackStatus w
  | enabled w ts b => exact h.update_unread (w.getLsbD 1) s.cmdRej ts b s.draws
  | completed ts hb hp he => exact (quiet ts s.busLog).exec hb hp he
  | lineCompleted w ts _ hu hb hp he =>
    subst hu
    exact ((quiet ts s.busLog).issue w).exec hb hp he
  | reset w ts _ hr =>
    refine inv_resetNow ?_ hr
    exact h.stream_fits

end Sys2Proof.Machine
end

