-- ==== Sys2Proof/Proofs/StateSafety.lean ====
section
/-! PROOF. O56, O57, O58: what no step takes back, which commands write which table, and what clears ERR. -/

namespace Sys2Proof.Machine

/-! The streams (R49, R66). -/

/-- The input and the parameters as before, the output and its closes only extended. -/
structure StreamsKept (s t : State) : Prop where
  outBytes : s.outBytes <+: t.outBytes
  outCloses : s.outCloses <+: t.outCloses
  inBytes : t.inBytes = s.inBytes
  magic : t.magic = s.magic
  hufBase : t.hufBase = s.hufBase

theorem StreamsKept.refl (s : State) : StreamsKept s s := ⟨List.prefix_rfl, List.prefix_rfl, rfl, rfl, rfl⟩

theorem StreamsKept.trans {s t u : State} (h : StreamsKept s t) (k : StreamsKept t u) : StreamsKept s u :=
  ⟨h.outBytes.trans k.outBytes, h.outCloses.trans k.outCloses, k.inBytes.trans h.inBytes, k.magic.trans h.magic,
    k.hufBase.trans h.hufBase⟩

/-- A state with the same streams and parameters. -/
theorem StreamsKept.of_eq {s t : State} (h1 : t.outBytes = s.outBytes) (h2 : t.outCloses = s.outCloses)
    (h3 : t.inBytes = s.inBytes) (h4 : t.magic = s.magic) (h5 : t.hufBase = s.hufBase) : StreamsKept s t :=
  ⟨h1 ▸ List.prefix_rfl, h2 ▸ List.prefix_rfl, h3, h4, h5⟩

theorem Keeps.streams {s t : State} (h : Keeps s t) : StreamsKept s t :=
  ⟨h.outBytes, h.outCloses, h.inBytes, h.magic, h.hufBase⟩

theorem issue_streams (w : Word) (s : State) : StreamsKept s (s.issue w) := by
  obtain ⟨-, hu⟩ | ⟨-, -, ⟨r, -, hu⟩ | ⟨i, -, hu⟩⟩ := issue_cases w s
  all_goals
    rw [hu]
    exact .of_eq rfl rfl rfl rfl rfl

theorem run_streams (i : Instr) (s : State) : (runOf i s).Ends (StreamsKept s) := by
  by_cases hi : i = .clearErr
  · subst hi
    exact .of_eq rfl rfl rfl rfl rfl
  · exact (run_keeps hi s).mono fun _ => Keeps.streams

theorem exec_streams {i : Instr} {s t : State} (h : exec i s = .next t) : StreamsKept s t := by
  obtain ⟨u, hu, rfl | ⟨e, rfl⟩⟩ := exec_ends (run_streams i s) h
  · exact hu.trans (.of_eq rfl rfl rfl rfl rfl)
  · exact hu.trans (.of_eq rfl rfl rfl rfl rfl)

/-- A cancelled command's output only extends the streams (R222). -/
theorem cancelOutput_streams (u s : State) : StreamsKept s (State.cancelOutput u s) :=
  ⟨List.prefix_append _ _, List.prefix_append _ _, rfl, rfl, rfl⟩

theorem resetNow_streams {s t : State} (h : s.resetNow = .next t) : StreamsKept s t := by
  obtain rfl | ⟨u, rfl⟩ := resetNow_next h
  · exact .of_eq rfl rfl rfl rfl rfl
  · exact (cancelOutput_streams u s).trans (.of_eq rfl rfl rfl rfl rfl)

/-- Every step keeps the streams. -/
theorem step_streams {s t : State} (h : step s = .next t) : StreamsKept s t := by
  have quiet : ∀ ts b, StreamsKept s { s with turns := ts, busLog := b } := fun ts b => .of_eq rfl rfl rfl rfl rfl
  cases step_move h with
  | quiet ts b d => exact .of_eq rfl rfl rfl rfl rfl
  | issued w ts b => exact (quiet ts b).trans (issue_streams w _)
  | acked w ts b => exact .of_eq rfl rfl rfl rfl rfl
  | enabled w ts b => exact .of_eq rfl rfl rfl rfl rfl
  | completed ts hb hp he => exact (quiet ts s.busLog).trans (exec_streams he)
  | lineCompleted w ts _ hu hb hp he =>
    subst hu
    exact ((quiet ts s.busLog).trans (issue_streams w _)).trans (exec_streams he)
  | reset w ts _ hr =>
    have hk := resetNow_streams hr
    exact ⟨hk.outBytes, hk.outCloses, hk.inBytes, hk.magic, hk.hufBase⟩

/-- Settles O56, by the moves of a step. -/
theorem outputIsAppendOnly : Obligations.OutputIsAppendOnly := by
  intro s t h
  obtain ⟨h1, h2, h3, h4, h5⟩ := step_streams h
  exact ⟨h1, h2, h3, h4, h5⟩

/-! The tables (R35, R38-R40). -/

/-- FREQ, FREQ_TOTAL and FREQ_VALID as before. -/
def FreqKept (s t : State) : Prop := t.freq = s.freq ∧ t.freqTotal = s.freqTotal ∧ t.freqValid = s.freqValid

/-- The node store, NODE_COUNT, ROOT and TREE_SRC as before. -/
def NodesKept (s t : State) : Prop := t.node = s.node ∧ t.nodeCount = s.nodeCount ∧ t.root = s.root ∧ t.treeSrc = s.treeSrc

/-- What a command leaves of the tables: those it does not write. -/
structure TablesKept (i : Instr) (s t : State) : Prop where
  freq : i ∉ [Instr.count, .compress] → FreqKept s t
  nodes : i ∉ [Instr.build, .readHeader, .compress, .decompress] → NodesKept s t
  code : i ∉ [Instr.derive, .compress] → t.code = s.code
  cur : i ∉ [Instr.readBody, .decompress] → t.cur = s.cur

theorem TablesKept.of_eq {i : Instr} {s t : State} (h1 : FreqKept s t) (h2 : NodesKept s t) (h3 : t.code = s.code)
    (h4 : t.cur = s.cur) : TablesKept i s t := ⟨fun _ => h1, fun _ => h2, fun _ => h3, fun _ => h4⟩

theorem TablesKept.refl (i : Instr) (s : State) : TablesKept i s s := .of_eq ⟨rfl, rfl, rfl⟩ ⟨rfl, rfl, rfl, rfl⟩ rfl rfl

/-- A writer of the output writes no table. -/
theorem tablesKept_appendBits (i : Instr) (s : State) (b : BitStr) : TablesKept i s (s.appendBits b) := by
  rw [appendBits_eq]
  exact .of_eq ⟨rfl, rfl, rfl⟩ ⟨rfl, rfl, rfl, rfl⟩ rfl rfl

/-- A primitive command writes only its own tables (R35, R38, R39, R40). -/
theorem primitive_run_tablesKept {i : Instr} (hp : i.composite = false) (s : State) : (runOf i s).Ends (TablesKept i s) := by
  cases i with
  | nop => exact TablesKept.refl _ s
  | count =>
    refine (runCount_ends s).mono fun t h => ?_
    rw [h]
    exact ⟨fun hi => absurd (by decide) hi, fun _ => ⟨rfl, rfl, rfl, rfl⟩, fun _ => rfl, fun _ => rfl⟩
  | build =>
    refine (runBuild_ends s).mono fun t h => ?_
    rw [h]
    exact ⟨fun _ => ⟨rfl, rfl, rfl⟩, fun hi => absurd (by decide) hi, fun _ => rfl, fun _ => rfl⟩
  | derive =>
    refine (runDerive_ends s).mono fun t h => ?_
    rw [h]
    exact ⟨fun _ => ⟨rfl, rfl, rfl⟩, fun _ => ⟨rfl, rfl, rfl, rfl⟩, fun hi => absurd (by decide) hi, fun _ => rfl⟩
  | writeMagic => exact (runWriteMagic_ends s).mono fun _ ⟨b, h⟩ => h ▸ tablesKept_appendBits _ s b
  | writeHeader => exact (runWriteHeader_ends s).mono fun _ ⟨b, h⟩ => h ▸ tablesKept_appendBits _ s b
  | writeBody =>
    refine (runWriteBody_ends s).mono fun t ⟨p, b, h⟩ => ?_
    have hk := tablesKept_appendBits .writeBody (s.walked s.cur p) b
    exact h ▸ ⟨hk.freq, hk.nodes, hk.code, hk.cur⟩
  | rewind => exact TablesKept.of_eq ⟨rfl, rfl, rfl⟩ ⟨rfl, rfl, rfl, rfl⟩ rfl rfl
  | close =>
    refine (runClose_ends s).mono fun t h => ?_
    obtain rfl | ⟨b, rfl⟩ := h
    · exact TablesKept.refl _ t
    · have hk := tablesKept_appendBits .close s b
      exact ⟨hk.freq, hk.nodes, hk.code, hk.cur⟩
  | checkMagic =>
    exact (runCheckMagic_ends s).mono fun _ ⟨p, h⟩ => h ▸ .of_eq ⟨rfl, rfl, rfl⟩ ⟨rfl, rfl, rfl, rfl⟩ rfl rfl
  | readHeader =>
    refine (runReadHeader_ends s).mono fun t h => ?_
    rw [h]
    exact ⟨fun _ => ⟨rfl, rfl, rfl⟩, fun hi => absurd (by decide) hi, fun _ => rfl, fun _ => rfl⟩
  | readBody =>
    refine (runReadBody_ends s).mono fun t ⟨c, p, b, h⟩ => ?_
    have hk := tablesKept_appendBits .readBody s b
    exact h ▸ ⟨hk.freq, hk.nodes, hk.code, fun hi => absurd (by decide) hi⟩
  | clearErr => exact TablesKept.of_eq ⟨rfl, rfl, rfl⟩ ⟨rfl, rfl, rfl, rfl⟩ rfl rfl
  | compress => cases hp
  | decompress => cases hp

/-- COMPRESS runs no READ_BODY, so that CUR stays (R167). -/
theorem runCompress_cur (s : State) : (runCompress s).Ends fun t => t.cur = s.cur := by
  have hcur : ∀ j ∈ compressSeqInstrs, j.composite = false ∧ j ∉ [Instr.readBody, .decompress] := by decide
  refine runCompress_ends (R := fun s t => t.cur = s.cur) (fun _ => rfl) (fun h k => k.trans h) ?_ s
  intro j hj s
  exact (primitive_run_tablesKept (hcur j hj).1 s).mono fun t h => h.cur (hcur j hj).2

/-- DECOMPRESS runs no COUNT and no DERIVE, so that FREQ and the code table stay (R168). -/
theorem runDecompress_freq_code (s : State) : (runDecompress s).Ends fun t => FreqKept s t ∧ t.code = s.code := by
  have hfree : ∀ j ∈ decompressSeqInstrs,
      j.composite = false ∧ j ∉ [Instr.count, .compress] ∧ j ∉ [Instr.derive, .compress] := by decide
  refine runDecompress_ends (R := fun s t => FreqKept s t ∧ t.code = s.code) (fun _ => ⟨⟨rfl, rfl, rfl⟩, rfl⟩) ?_ ?_ s
  · rintro s t u ⟨⟨h1, h2, h3⟩, h4⟩ ⟨⟨k1, k2, k3⟩, k4⟩
    exact ⟨⟨k1.trans h1, k2.trans h2, k3.trans h3⟩, k4.trans h4⟩
  · intro j hj s
    obtain ⟨hp, hf, hc⟩ := hfree j hj
    exact (primitive_run_tablesKept hp s).mono fun t h => ⟨h.freq hf, h.code hc⟩

theorem run_tablesKept (i : Instr) (s : State) : (runOf i s).Ends (TablesKept i s) := by
  cases hp : i.composite with
  | false => exact primitive_run_tablesKept hp s
  | true =>
    cases i with
    | compress =>
      exact (runCompress_cur s).mono fun t h => ⟨fun hi => absurd (by decide) hi, fun hi => absurd (by decide) hi,
        fun hi => absurd (by decide) hi, fun _ => h⟩
    | decompress =>
      exact (runDecompress_freq_code s).mono fun t h => ⟨fun _ => h.1, fun hi => absurd (by decide) hi, fun _ => h.2,
        fun hi => absurd (by decide) hi⟩
    | _ => cases hp

/-- No Exec writes IRQ_EN (R24). -/
theorem run_irqEn (i : Instr) (s : State) : (runOf i s).Ends fun t => t.irqEn = s.irqEn := by
  by_cases hi : i = .clearErr
  · subst hi
    exact rfl
  · exact (run_keeps hi s).mono fun _ => Keeps.irqEn

/-- A completion leaves IRQ_EN, and clears BUSY and the pending command (R105). -/
theorem exec_idle {i : Instr} {s t : State} (h : exec i s = .next t) :
    t.irqEn = s.irqEn ∧ t.busy = false ∧ t.pending = none := by
  obtain ⟨u, hu, rfl | ⟨e, rfl⟩⟩ := exec_ends (run_irqEn i s) h
  · exact ⟨hu, rfl, rfl⟩
  · exact ⟨hu, rfl, rfl⟩

theorem exec_tablesKept {i : Instr} {s t : State} (h : exec i s = .next t) : TablesKept i s t := by
  obtain ⟨u, hu, rfl | ⟨e, rfl⟩⟩ := exec_ends (run_tablesKept i s) h
  · exact ⟨hu.freq, hu.nodes, hu.code, hu.cur⟩
  · exact ⟨hu.freq, hu.nodes, hu.code, hu.cur⟩

/-- Settles O57: each primitive by its frame, the composites by their commands'. -/
theorem onlyTheirCommandsWriteTheTables : Obligations.OnlyTheirCommandsWriteTheTables := by
  intro i s t h
  obtain ⟨hf, hn, hc, hcur⟩ := exec_tablesKept h
  exact ⟨hf, hn, hc, hcur, exec_idle h⟩

/-! ERR (R26, R209). -/

/-- No issue clears ERR. -/
theorem issue_err {s : State} (w : Word) (h : s.err = true) : (s.issue w).err = true := by
  obtain ⟨-, hu⟩ | ⟨-, -, ⟨r, -, hu⟩ | ⟨i, -, hu⟩⟩ := issue_cases w s
  · rw [hu]; exact h
  · rw [hu]; rfl
  · rw [hu]; exact h

/-- The only completion that clears ERR is CLEAR_ERR's (R209). -/
theorem exec_clears_err {i : Instr} {s t : State} (h : exec i s = .next t) (hs : s.err = true) (ht : t.err = false) :
    i = .clearErr := by
  by_contra hi
  have herr : t.err = true := by
    obtain ⟨u, hu, rfl | ⟨e, rfl⟩⟩ := exec_ends (run_keeps hi s) h
    · exact hu.err.trans hs
    · rfl
  simp [herr] at ht

/-- A line that completes CLEAR_ERR under ERR: it was pending already, or the line is its own (R103). -/
theorem issue_pending_clearErr {w : Word} {s : State} (hb : (s.issue w).busy = true)
    (hp : (s.issue w).pending = some .clearErr) (he : s.err = true) :
    (s.busy = true ∧ s.pending = some .clearErr) ∨ w = clearErrWord := by
  obtain ⟨-, hu⟩ | ⟨-, hw, -⟩ := issue_cases w s
  · rw [hu] at hb hp
    exact .inl ⟨hb, hp⟩
  · exact .inr (hw he)

/-- Settles O58, by the moves of a step. -/
theorem errClearsOnlyByClearErrOrReset : Obligations.ErrClearsOnlyByClearErrOrReset := by
  intro s t h hs ht
  have hissue : ∀ w ts b, (State.issue w { s with turns := ts, busLog := b }).err = true := fun w ts b => issue_err w hs
  cases step_move h with
  | quiet ts b d => simp [hs] at ht
  | issued w ts b => rw [hissue] at ht; cases ht
  | acked w ts b => simp [hs] at ht
  | enabled w ts b => simp [hs] at ht
  | completed ts hb hp he =>
    obtain rfl := exec_clears_err he hs ht
    exact .inl ⟨hb, hp⟩
  | lineCompleted w ts hts hu hb hp he =>
    subst hu
    obtain rfl := exec_clears_err he (hissue w ts s.busLog) ht
    obtain hpend | rfl := issue_pending_clearErr hb hp hs
    · exact .inl hpend
    · exact .inr (.inl ⟨ts, hts⟩)
  | reset w ts hts hr =>
    obtain hts | ⟨hts, hw⟩ := hts
    · exact .inr (.inr (.inl ⟨ts, hts⟩))
    · exact .inr (.inr (.inr ⟨w, ts, hts, hw⟩))

end Sys2Proof.Machine
end

