-- ==== Sys2Proof/Proofs/RegisterWindow.lean ====
section
/-! PROOF. O41-O45, O47, O48: what the register window answers and what its writes do, from `step_read`, `step_write` and the lemma of
each window. -/

namespace Sys2Proof.Machine

/-! Reads. -/

/-- A read that the rules fix (R58): the step answers it and does nothing else (R54). -/
theorem step_read_exact {s : State} {ts : List Turn} {off : Nat} {w : Word} (h : off < 0x10000) (h4 : off % 4 = 0)
    (ht : s.turns = .read 32 (s.hufBase + off) :: ts) (hr : s.readReg off = .exact w) :
    step s = .next { s with turns := ts, busLog := { data := w, error := false } :: s.busLog } := by
  rw [step_read h h4 ht, hr]
  rfl

/-- The same at a control or status register. -/
theorem step_read_scalar {s : State} {ts : List Turn} {off : Nat} {w : Word} (h : off < 0x1000) (h4 : off % 4 = 0)
    (ht : s.turns = .read 32 (s.hufBase + off) :: ts) (hr : s.readScalar off = .exact w) :
    step s = .next { s with turns := ts, busLog := { data := w, error := false } :: s.busLog } :=
  step_read_exact (by omega) h4 ht ((readReg_scalar h).trans hr)

theorem whenIdle_exact {s : State} (hb : s.busy = false) (w : Word) : s.whenIdle w = .exact w := by
  simp [State.whenIdle, hb]

theorem whenValid_exact {s : State} {valid : Bool} (hb : s.busy = false) (hv : valid = true) (w : Word) :
    s.whenValid valid w = .exact w := by
  simp [State.whenValid, hb, hv]

/-- The library's `concat` in the spelling of STATUS's word: the new bit is bit 0 and the others move up. -/
theorem getLsbD_append_ofBool {n : Nat} (x : BitVec n) (b : Bool) (k : Nat) :
    (x ++ BitVec.ofBool b).getLsbD k = if k = 0 then b else x.getLsbD (k - 1) :=
  BitVec.getLsbD_concat x b k

/-- The ten bits of STATUS from bit 0 up, and zeros above them (R26). -/
theorem statusWord_getLsbD (s : State) (k : Nat) : s.statusWord.getLsbD k =
    [s.busy, s.done, s.err, s.freqValid, s.treeValid, s.codesValid, s.treeSrc, s.outClosed, s.cmdRej, s.irq].getD k false := by
  rw [State.statusWord, BitVec.getLsbD_setWidth]
  simp only [getLsbD_append_ofBool, BitVec.getLsbD_ofBool]
  match k with
  | 0 | 1 | 2 | 3 | 4 | 5 | 6 | 7 | 8 | 9 => rfl
  | k + 10 => simp

/-- Settles O41, by the bits of the word STATUS reads as. -/
theorem statusReadsItsBits : Obligations.StatusReadsItsBits := by
  intro s ts ht
  refine ⟨s.statusWord, step_read_scalar (by decide) (by decide) ht rfl, ?_⟩
  simp only [statusWord_getLsbD]
  exact ⟨rfl, rfl, rfl, rfl, rfl, rfl, rfl, rfl, rfl, rfl, fun k hk => List.getD_eq_default _ _ hk⟩

/-- IRQ_EN is bit 1 of CTRL (R24). -/
theorem ctrlWord_eq (s : State) : s.ctrlWord = if s.irqEn then 2 else 0 := by
  unfold State.ctrlWord
  cases s.irqEn <;> rfl

/-- Settles O42: each of the six registers is an exact read of its own. -/
theorem exactRegistersRead : Obligations.ExactRegistersRead := by
  intro s ts off w hmem ht
  have hread : off < 0x1000 ∧ off % 4 = 0 ∧ s.readScalar off = .exact w := by
    simp only [List.mem_cons, Prod.mk.injEq, List.not_mem_nil, or_false] at hmem
    obtain ⟨rfl, rfl⟩ | ⟨rfl, rfl⟩ | ⟨rfl, rfl⟩ | ⟨rfl, rfl⟩ | ⟨rfl, rfl⟩ | ⟨rfl, rfl⟩ := hmem
    · exact ⟨by decide, by decide, rfl⟩
    · exact ⟨by decide, by decide, congrArg ReadVal.exact (ctrlWord_eq s)⟩
    · exact ⟨by decide, by decide, rfl⟩
    · exact ⟨by decide, by decide, rfl⟩
    · exact ⟨by decide, by decide, rfl⟩
    · exact ⟨by decide, by decide, rfl⟩
  obtain ⟨h, h4, hr⟩ := hread
  exact step_read_scalar h h4 ht hr

/-- Settles O43: each counter is an idle read of its own. -/
theorem cursorsReadWhenIdle : Obligations.CursorsReadWhenIdle := by
  intro s ts off w hb hmem ht
  have hread : off < 0x1000 ∧ off % 4 = 0 ∧ s.readScalar off = s.whenIdle w := by
    simp only [List.mem_cons, Prod.mk.injEq, List.not_mem_nil, or_false] at hmem
    obtain ⟨rfl, rfl⟩ | ⟨rfl, rfl⟩ | ⟨rfl, rfl⟩ | ⟨rfl, rfl⟩ | ⟨rfl, rfl⟩ := hmem <;> exact ⟨by decide, by decide, rfl⟩
  obtain ⟨h, h4, hr⟩ := hread
  exact step_read_scalar h h4 ht (hr.trans (whenIdle_exact hb w))

/-- A word of a node entry below NODE_COUNT, while the tree is valid (R44). -/
theorem step_read_node {s : State} {ts : List Turn} {n j : Nat} {nd : Node} (hb : s.busy = false) (hv : s.treeValid = true)
    (hn : n < s.nodeCount.toNat) (hnd : s.node[n]? = some nd) (hj : j < 4)
    (ht : s.turns = .read 32 (s.hufBase + (0x8000 + 16 * n + 4 * j)) :: ts) :
    step s = .next { s with turns := ts, busLog := { data := nodeWord nd j, error := false } :: s.busLog } := by
  obtain ⟨hlt, rfl⟩ := Vector.getElem?_eq_some_iff.mp hnd
  exact step_read_exact (by omega) (by omega) ht
    ((readReg_node s hlt hj).trans (whenValid_exact hb (by simp [hv, hn]) _))

/-- Settles O44: each register and window under its VALID flag. -/
theorem tablesReadWhenValid : Obligations.TablesReadWhenValid := by
  rintro s ts off w hb ht (⟨hv, ⟨rfl, rfl⟩ | ⟨c, rfl, rfl⟩⟩ | ⟨hv, c, rfl, rfl⟩ |
    ⟨hv, ⟨rfl, rfl⟩ | ⟨rfl, rfl⟩ | ⟨n, nd, hn, hnd, hw⟩⟩)
  · exact step_read_scalar (by decide) (by decide) ht (whenValid_exact hb hv _)
  · exact step_read_exact (by omega) (by omega) ht ((readReg_freq s c).trans (whenValid_exact hb hv _))
  · exact step_read_exact (by omega) (by omega) ht ((readReg_codeLen s c).trans (whenValid_exact hb hv _))
  · exact step_read_scalar (by decide) (by decide) ht (whenValid_exact hb hv _)
  · exact step_read_scalar (by decide) (by decide) ht (whenValid_exact hb hv _)
  · obtain ⟨rfl, rfl⟩ | ⟨rfl, rfl⟩ | ⟨rfl, rfl⟩ | ⟨rfl, rfl⟩ := hw
    · rw [← nodeWord_zero]
      exact step_read_node (j := 0) hb hv hn hnd (by decide) ht
    · exact step_read_node (j := 1) hb hv hn hnd (by decide) ht
    · exact step_read_node (j := 2) hb hv hn hnd (by decide) ht
    · exact step_read_node (j := 3) hb hv hn hnd (by decide) ht

/-- Bit 31 - i of a code's word j is bit 32 j + i of the code (R43). -/
theorem codeWord_getLsbD (c : BitStr) (j : Nat) {i : Nat} (hi : i < 32) :
    (codeWord c j).getLsbD (31 - i) = c.getD (32 * j + i) false := by
  have hbits : bitsOf 32 (uint ((List.range 32).map fun i => c.getD (32 * j + i) false)) =
      (List.range 32).map fun i => c.getD (32 * j + i) false := bitsOf_uint_of_length (by simp)
  have hget := bitsOf_getElem? 32 (uint ((List.range 32).map fun i => c.getD (32 * j + i) false)) i hi
  rw [hbits, List.getElem?_map, List.getElem?_range hi] at hget
  have hlt : 31 - i < 32 := by omega
  rw [codeWord, BitVec.getLsbD_ofNat, decide_eq_true hlt, Bool.true_and]
  exact (Option.some.inj hget).symm

/-- Settles O45, by the bits of a code's word. -/
theorem codeBitsReadWhenValid : Obligations.CodeBitsReadWhenValid := by
  intro s ts c j hb hv hj ht
  have hr := (readReg_codeBits s c hj).trans (whenValid_exact hb hv _)
  exact ⟨_, step_read_exact (by omega) (by omega) ht hr, fun i hi => codeWord_getLsbD _ j hi⟩

/-! Reserved offsets (R36, R52). -/

/-- The scalars end at 0x038. -/
theorem readScalar_reserved {s : State} {off : Nat} (h : 0x03C ≤ off) : s.readScalar off = .exact 0 := by
  unfold State.readScalar
  split
  case h_16 => rfl
  all_goals omega

/-- A word index past a table's end is a reserved offset. -/
theorem readReg_reserved {s : State} {off : Nat}
    (h : (0x03C ≤ off ∧ off < 0x1000) ∨ (0x1404 ≤ off ∧ off < 0x2000) ∨ (0x2404 ≤ off ∧ off < 0x4000) ∨
      (0x6020 ≤ off ∧ off < 0x8000) ∨ 0xA010 ≤ off) : s.readReg off = .exact 0 := by
  obtain ⟨h1, h2⟩ | ⟨h1, h2⟩ | ⟨h1, h2⟩ | ⟨h1, h2⟩ | h1 := h
  · rw [readReg_scalar h2, readScalar_reserved h1]
  · rw [State.readReg, if_neg (by omega), if_pos (by omega), State.readFreq, Vector.getElem?_eq_none (by omega)]
  · rw [State.readReg, if_neg (by omega), if_neg (by omega), if_pos (by omega), State.readCodeLen,
      Vector.getElem?_eq_none (by omega)]
  · rw [State.readReg, if_neg (by omega), if_neg (by omega), if_neg (by omega), if_pos (by omega), State.readCodeBits,
      Vector.getElem?_eq_none (by omega)]
  · rw [State.readReg, if_neg (by omega), if_neg (by omega), if_neg (by omega), if_neg (by omega), State.readNode,
      Vector.getElem?_eq_none (by omega)]

/-- Settles O47: the reserved reads by the ends of the tables, the writes by the cases of a register write. -/
theorem reservedReadsAndOtherWrites : Obligations.ReservedReadsAndOtherWrites := by
  intro s ts off w h4 h
  refine ⟨fun hres ht => step_read_exact h h4 ht (readReg_reserved hres), fun h1 h2 h3 ht => ?_⟩
  rw [step_write h h4 ht]
  obtain ⟨hoff, -⟩ | ⟨hoff, -⟩ | ⟨hoff, -⟩ | ⟨hoff, -⟩ | ⟨-, -, -, hw⟩ := writeReg_cases off w
    { s with turns := ts, busLog := { data := 0, error := false } :: s.busLog }
  · exact absurd hoff h1
  · exact absurd hoff h1
  · exact absurd hoff h2
  · exact absurd hoff h3
  · exact hw

/-! Writes (R24, R26, R55). -/

/-- A 1 in bit 1 clears DONE and a 1 in bit 8 clears CMD_REJ. -/
theorem ackStatus_eq (w : Word) (s : State) : s.ackStatus w = { s with
    done := if w.getLsbD 1 then false else s.done, cmdRej := if w.getLsbD 8 then false else s.cmdRej } := by
  have hclear : ∀ a b : Bool, (a && !b) = if b then false else a := by decide
  rw [State.ackStatus, hclear, hclear]

/-- Settles O48, by the arms of a register write. -/
theorem acknowledgeAndEnableWrites : Obligations.AcknowledgeAndEnableWrites := by
  intro s ts w
  refine ⟨fun ht => ?_, fun ht hw => ?_⟩
  · rw [step_write (by decide) (by decide) ht]
    exact congrArg Host.Outcome.next (ackStatus_eq w _)
  · rw [step_write (by decide) (by decide) ht, State.writeReg, hw]
    rfl

end Sys2Proof.Machine
end

