-- ==== Sys2Proof/Proofs/Accesses.lean ====
section
/-! PROOF. O46, O49, O50: reads that are draws, undefined accesses, and what any read can change, from `step_read` and one lemma
for each case of a host access. -/

namespace Sys2Proof.Machine

/-! Draws (R56, R57). -/

/-- A read that no rule fixes (R58): the step answers it with the next free value and counts the draw. -/
theorem step_read_draw {s : State} {ts : List Turn} {off : Nat} (h : off < 0x10000) (h4 : off % 4 = 0)
    (ht : s.turns = .read 32 (s.hufBase + off) :: ts) (hr : s.readReg off = .draw) :
    step s = .next { s with
      turns := ts, draws := s.draws + 1, busLog := { data := Config.freeWord s.draws, error := false } :: s.busLog } := by
  rw [step_read h h4 ht, hr]
  rfl

theorem whenIdle_draw {s : State} (hb : s.busy = true) (w : Word) : s.whenIdle w = .draw := by
  simp [State.whenIdle, hb]

theorem whenValid_draw {s : State} {valid : Bool} (h : s.busy = true ∨ valid = false) (w : Word) :
    s.whenValid valid w = .draw := by
  obtain hb | hv := h
  · simp [State.whenValid, hb]
  · simp [State.whenValid, hv]

/-- The position counters and CUR read exactly only while BUSY is 0 (R31, R32, R35). -/
theorem readScalar_cursor {s : State} {off : Nat} (hmem : off ∈ [0x020, 0x024, 0x028, 0x02C, 0x038]) :
    off < 0x1000 ∧ off % 4 = 0 ∧ ∃ w, s.readScalar off = s.whenIdle w := by
  simp only [List.mem_cons, List.not_mem_nil, or_false] at hmem
  obtain rfl | rfl | rfl | rfl | rfl := hmem <;> exact ⟨by decide, by decide, _, rfl⟩

/-- Settles O46: each register and window named is a read governed by BUSY or by a VALID flag that fails. -/
theorem unsettledReadsAreDraws : Obligations.UnsettledReadsAreDraws := by
  rintro s ts off ht (⟨hb, hmem⟩ | ⟨hv, rfl | ⟨c, rfl⟩⟩ | ⟨hv, ⟨c, rfl⟩ | ⟨c, j, hj, rfl⟩⟩ | ⟨hv, rfl | rfl⟩ |
    ⟨n, j, hn, hj, rfl, hv⟩)
  · obtain ⟨h, h4, w, hr⟩ := readScalar_cursor (s := s) hmem
    exact step_read_draw (by omega) h4 ht ((readReg_scalar h).trans (hr.trans (whenIdle_draw hb w)))
  · exact step_read_draw (by decide) (by decide) ht (whenValid_draw hv _)
  · exact step_read_draw (by omega) (by omega) ht ((readReg_freq s c).trans (whenValid_draw hv _))
  · exact step_read_draw (by omega) (by omega) ht ((readReg_codeLen s c).trans (whenValid_draw hv _))
  · exact step_read_draw (by omega) (by omega) ht ((readReg_codeBits s c hj).trans (whenValid_draw hv _))
  · exact step_read_draw (by decide) (by decide) ht (whenValid_draw hv _)
  · exact step_read_draw (by decide) (by decide) ht (whenValid_draw hv _)
  · have hflag : s.busy = true ∨ (s.treeValid && decide (n < s.nodeCount.toNat)) = false := by
      simpa only [Bool.and_eq_false_iff, decide_eq_false_iff_not, Nat.not_lt] using hv
    exact step_read_draw (by omega) (by omega) ht ((readReg_node s hn hj).trans (whenValid_draw hflag _))

/-! Accesses of any width at any address. -/

/-- One step on a host read, defined or not (R100). -/
theorem step_of_read {s : State} {ts : List Turn} {bits addr : Nat} (ht : s.turns = .read bits addr :: ts) :
    step s = .next (State.hostRead bits addr { s with turns := ts }) := by
  rw [step, nextTurn, ht]
  rfl

/-- One step on a host write, defined or not (R100). -/
theorem step_of_write {s : State} {ts : List Turn} {bits addr : Nat} {w : Word} (ht : s.turns = .write bits addr w :: ts) :
    step s = State.hostWrite bits addr w { s with turns := ts } := by
  rw [step, nextTurn, ht]
  rfl

theorem definedAccess_eq_false {bits off : Nat} (h : bits ≠ 32 ∨ off % 4 ≠ 0) : definedAccess bits off = false := by
  simpa only [definedAccess, Bool.and_eq_false_iff, decide_eq_false_iff_not] using h

/-- An undefined read inside the window is answered with 0 and an error (R53). -/
theorem hostRead_undefined {bits off : Nat} (s : State) (h : off < 0x10000) (hd : definedAccess bits off = false) :
    s.hostRead bits (s.hufBase + off) = s.respond 0 true := by
  simp only [State.hostRead, windowOffset_add h, hd, Bool.false_eq_true, if_false]

/-- An undefined write inside the window is answered with an error and writes no register (R53). -/
theorem hostWrite_undefined {bits off : Nat} (w : Word) (s : State) (h : off < 0x10000)
    (hd : definedAccess bits off = false) : s.hostWrite bits (s.hufBase + off) w = .next (s.respond 0 true) := by
  simp only [State.hostWrite, windowOffset_add h, hd, Bool.false_eq_true, if_false]

/-- Settles O49: an undefined read and an undefined write are answered alike, and nothing else is done. -/
theorem undefinedAccessesHaveNoEffect : Obligations.UndefinedAccessesHaveNoEffect := by
  intro s ts bits off w hud h ht
  have hd := definedAccess_eq_false hud
  obtain ht | ht := ht
  · exact (step_of_read ht).trans (congrArg Host.Outcome.next (hostRead_undefined { s with turns := ts } h hd))
  · exact (step_of_write ht).trans (hostWrite_undefined w { s with turns := ts } h hd)

/-- All that a read can do: nothing outside the window, else one answer, with a draw counted or without (R53, R54, R58). -/
theorem hostRead_cases (bits addr : Nat) (s : State) :
    s.hostRead bits addr = s ∨ (∃ w e, s.hostRead bits addr = s.respond w e) ∨
      ∃ w, s.hostRead bits addr = { s with draws := s.draws + 1 }.respond w false := by
  unfold State.hostRead
  split
  · exact .inl rfl
  next off _ =>
    split
    · cases s.readReg off with
      | exact w => exact .inr (.inl ⟨w, false, rfl⟩)
      | draw => exact .inr (.inr ⟨_, rfl⟩)
    · exact .inr (.inl ⟨0, true, rfl⟩)

/-- Settles O50, by the cases of a host read. -/
theorem readsHaveNoSideEffects : Obligations.ReadsHaveNoSideEffects := by
  intro s ts bits addr ht
  refine ⟨_, step_of_read ht, ?_⟩
  obtain hr | ⟨w, e, hr⟩ | ⟨w, hr⟩ := hostRead_cases bits addr { s with turns := ts }
  · rw [hr]
    exact ⟨rfl, Nat.le_refl _, .inl rfl⟩
  · rw [hr]
    exact ⟨rfl, Nat.le_refl _, .inr ⟨_, rfl⟩⟩
  · rw [hr]
    exact ⟨rfl, Nat.le_succ _, .inr ⟨_, rfl⟩⟩

end Sys2Proof.Machine
end

