-- ==== Sys2Proof/Proofs/Encoding.lean ====
section
/-! PROOF. O1, O2, O3: a command word is its two fields, so that the decoder gives a command exactly on that command's word (R82-R84);
and a line is the issue of its word followed by the block's step (R94, R101-R105). -/

namespace Sys2Proof

/-! The fields of a word (R80). -/

@[simp] theorem opcodeField_encode (i : Instr) : opcodeField (encode i) = i.opcode := by
  cases i <;> rfl

@[simp] theorem rsvdField_encode (i : Instr) : rsvdField (encode i) = 0 := by
  cases i <;> rfl

/-- A word is its RSVD field followed by its OPCODE field. -/
theorem rsvdField_append_opcodeField (w : Word) : rsvdField w ++ opcodeField w = w :=
  (BitVec.extractLsb'_append_extractLsb'_eq_extractLsb' rfl).trans BitVec.extractLsb'_eq_self

theorem encode_eq_iff {i : Instr} {w : Word} : encode i = w ↔ opcodeField w = i.opcode ∧ rsvdField w = 0 := by
  constructor
  · rintro rfl
    exact ⟨opcodeField_encode i, rsvdField_encode i⟩
  · rintro ⟨hop, hrsvd⟩
    rw [← rsvdField_append_opcodeField w, ← rsvdField_append_opcodeField (encode i), hop, hrsvd, opcodeField_encode,
      rsvdField_encode]

/-! The opcode map (R82, R83). -/

/-- The two directions of the opcode map are inverse. -/
theorem opcodeInstr_eq_some_iff {op : BitVec 8} {i : Instr} : opcodeInstr op = some i ↔ i.opcode = op := by
  constructor
  · intro h
    unfold opcodeInstr at h
    split at h <;> cases h <;> exact BitVec.eq_of_toNat_eq (Eq.symm ‹op.toNat = _›)
  · rintro rfl
    cases i <;> rfl

/-- R83(a): the map holds the opcodes that the ranges define. Its last arm, `h_16`, is the undefined ones. -/
theorem isSome_opcodeInstr (op : BitVec 8) : (opcodeInstr op).isSome = opcodeDefined op := by
  unfold opcodeInstr
  split
  case h_16 => grind [opcodeDefined]
  all_goals simp [opcodeDefined, *]

/-! The decoder (R84). -/

/-- The decoder gives a command on that command's word and on no other. -/
theorem decode_eq_ok_iff {w : Word} {i : Instr} : decode w = .ok i ↔ encode i = w := by
  rw [encode_eq_iff]
  constructor
  · intro h
    unfold decode at h
    split at h
    · cases h
    next j hj =>
      split at h
      next hrsvd =>
        cases h
        exact ⟨(opcodeInstr_eq_some_iff.1 hj).symm, hrsvd⟩
      · cases h
  · rintro ⟨hop, hrsvd⟩
    rw [decode, opcodeInstr_eq_some_iff.2 hop.symm]
    exact if_pos hrsvd

@[simp] theorem decode_encode (i : Instr) : decode (encode i) = .ok i := decode_eq_ok_iff.2 rfl

/-- R83(a) comes first, whatever the RSVD field holds. -/
theorem decode_undefinedOpcode {w : Word} (h : opcodeDefined (opcodeField w) = false) :
    decode w = .error .undefinedOpcode := by
  rw [← isSome_opcodeInstr, Option.isSome_eq_false_iff, Option.isNone_iff_eq_none] at h
  rw [decode, h]

/-- A defined opcode leaves the decision to the RSVD field (R83(b)). -/
theorem decode_definedOpcode {w : Word} (h : opcodeDefined (opcodeField w) = true) :
    ∃ i, decode w = if rsvdField w = 0 then .ok i else .error .rsvdNonzero := by
  rw [← isSome_opcodeInstr] at h
  obtain ⟨i, hi⟩ := Option.isSome_iff_exists.1 h
  exact ⟨i, by rw [decode, hi]⟩

theorem rsvdZero_iff {w : Word} : rsvdZero w = true ↔ rsvdField w = 0 := beq_iff_eq

theorem decode_rsvdNonzero {w : Word} (hop : opcodeDefined (opcodeField w) = true) (hrsvd : rsvdZero w = false) :
    decode w = .error .rsvdNonzero := by
  obtain ⟨i, hd⟩ := decode_definedOpcode hop
  rw [hd, if_neg fun h0 => Bool.eq_false_iff.1 hrsvd (rsvdZero_iff.2 h0)]

theorem decode_of_legalWord {w : Word} (h : legalWord w = true) : ∃ i, decode w = .ok i := by
  obtain ⟨hop, hrsvd⟩ := Bool.and_eq_true_iff.1 h
  obtain ⟨i, hd⟩ := decode_definedOpcode hop
  exact ⟨i, hd.trans (if_pos (rsvdZero_iff.1 hrsvd))⟩

/-- Settles O1: each word is its command's encoding. -/
theorem commandWordsDecode : Obligations.CommandWordsDecode :=
  ⟨decode_encode .nop, decode_encode .count, decode_encode .build, decode_encode .derive, decode_encode .writeMagic,
    decode_encode .writeHeader, decode_encode .writeBody, decode_encode .rewind, decode_encode .close,
    decode_encode .checkMagic, decode_encode .readHeader, decode_encode .readBody, decode_encode .clearErr,
    decode_encode .compress, decode_encode .decompress⟩

/-- Settles O2: `decode_eq_ok_iff` gives both directions, and the opcode map is defined where the ranges of R83 say. -/
theorem decoderIsTotal : Obligations.DecoderIsTotal :=
  ⟨decode_encode, fun _ _ => decode_eq_ok_iff.1, fun _ => decode_of_legalWord, fun _ => decode_undefinedOpcode,
    fun _ => decode_rsvdNonzero⟩

end Sys2Proof

namespace Sys2Proof.Machine

/-! Issue, in the order of R208. -/

theorem issue_eq_reject {w : Word} {s : State} (h : s.busy = true ∨ s.err = true ∧ w ≠ clearErrWord) :
    s.issue w = s.reject := by
  unfold State.issue
  obtain hb | ⟨he, hw⟩ := h
  · rw [if_pos hb]
  · simp [he, hw]

/-- R103 lets a word through when ERR is 0 or the word is CLEAR_ERR's. -/
theorem issue_eq_accept {w : Word} {s : State} {i : Instr} (hb : s.busy = false) (h : s.err = false ∨ w = clearErrWord)
    (hd : decode w = .ok i) : s.issue w = s.accept i := by
  obtain he | rfl := h
  · simp [State.issue, hb, he, hd]
  · simp [State.issue, hb, hd]

theorem issue_eq_enterError {w : Word} {s : State} {r : Illegal} (hb : s.busy = false) (he : s.err = false)
    (hd : decode w = .error r) : s.issue w = State.enterError (illegalError w r) { s with done := false } := by
  simp [State.issue, hb, he, hd]

/-! The block's step (R100, R105). -/

theorem blockStep_pending {s : State} {i : Instr} (hb : s.busy = true) (hp : s.pending = some i) :
    s.blockStep = exec i s := by
  rw [State.blockStep, if_pos hb, hp]

theorem blockStep_idle {s : State} (hb : s.busy = false) : s.blockStep = .next s :=
  if_neg (Bool.eq_false_iff.1 hb)

/-! The line (R94). -/

/-- A line's step is the block's, from the state `u` that the issue of its word leaves. -/
theorem step_of_line {s u : State} {w : Word} {ts : List Turn} (ht : s.turns = .line w :: ts)
    (hu : State.issue w { s with turns := ts } = u) : step s = u.blockStep := by
  rw [step, nextTurn, ht, ← hu]
  rfl

/-- A line whose word is accepted completes its command (R101, R105). -/
theorem step_line_accept {s : State} {w : Word} {ts : List Turn} {i : Instr} (ht : s.turns = .line w :: ts)
    (hb : s.busy = false) (h : s.err = false ∨ w = clearErrWord) (hd : decode w = .ok i) :
    step s = exec i (State.accept i { s with turns := ts }) :=
  (step_of_line ht (issue_eq_accept hb h hd)).trans (blockStep_pending rfl rfl)

/-- A line whose word is illegal ends at the issue: the error entry leaves BUSY 0 (R104, R196). -/
theorem step_line_illegal {s : State} {w : Word} {ts : List Turn} {r : Illegal} (ht : s.turns = .line w :: ts)
    (hb : s.busy = false) (hp : s.pending = none) (he : s.err = false) (hd : decode w = .error r) :
    step s = .next { s with turns := ts, done := false, err := true, error := illegalError w r } := by
  rw [step_of_line ht (issue_eq_enterError hb he hd), hb, hp]
  exact blockStep_idle rfl

/-- A line whose word is rejected because ERR is 1 has nothing to wait for (R103). -/
theorem step_line_reject {s : State} {w : Word} {ts : List Turn} (ht : s.turns = .line w :: ts) (hb : s.busy = false)
    (he : s.err = true) (hw : w ≠ clearErrWord) : step s = .next (State.reject { s with turns := ts }) :=
  (step_of_line ht (issue_eq_reject (.inr ⟨he, hw⟩))).trans (blockStep_idle hb)

/-- A line on a busy block is rejected, and its wait completes the pending command (R102, R105). -/
theorem step_line_busy {s : State} {w : Word} {ts : List Turn} {i : Instr} (ht : s.turns = .line w :: ts)
    (hb : s.busy = true) (hp : s.pending = some i) : step s = exec i (State.reject { s with turns := ts }) :=
  (step_of_line ht (issue_eq_reject (.inl hb))).trans (blockStep_pending hb hp)

/-- Settles O3: one lemma for each way a line can go; the decoder tells the two illegal ones apart. -/
theorem lineIssuesAndWaits : Obligations.LineIssuesAndWaits := fun _ _ _ ht =>
  ⟨fun _ hb he hd => step_line_accept ht hb he hd,
    fun hb hp he hop => step_line_illegal ht hb hp he (decode_undefinedOpcode hop),
    fun hb hp he hop hrsvd => step_line_illegal ht hb hp he (decode_rsvdNonzero hop hrsvd),
    fun hb he hw => step_line_reject ht hb he hw,
    fun _ hb hp => step_line_busy ht hb hp⟩

end Sys2Proof.Machine
end

section
/-! PROOF. O55, O4-O8, O11, O12: under the invariant every turn ends in a next state, since an Exec from a sound state neither faults
nor is refused; and the rules of issue (R101-R104) and of the block's turn (R100, R105), each one way a step can go. -/

namespace Sys2Proof.Machine

/-! Progress (R112). -/

/-- A run that is safe completes (R105). -/
theorem Run.Safe.completes {r : Run Unit} {P : State → Prop} (h : r.Safe P) : ∃ t, complete r = .next t := by
  cases r with
  | ok a t => exact ⟨_, rfl⟩
  | raise e t => exact ⟨_, rfl⟩
  | fault f => exact h.elim
  | refuse q => exact h.elim

theorem Sound.exec_next {s : State} (h : Sound s) (i : Instr) : ∃ t, exec i s = .next t := by
  rw [exec_eq_complete]
  exact (run_safe i h).completes

/-- While BUSY is 1 a command is pending (R48). -/
theorem Inv.pending_of_busy {s : State} (h : Inv s) (hb : s.busy = true) : ∃ i, s.pending = some i :=
  Option.isSome_iff_exists.1 (h.pending_iff.symm.trans hb)

theorem Inv.blockStep_next {s : State} (h : Inv s) : ∃ t, s.blockStep = .next t := by
  cases hb : s.busy with
  | false => exact ⟨s, blockStep_idle hb⟩
  | true =>
    obtain ⟨i, hp⟩ := h.pending_of_busy hb
    rw [blockStep_pending hb hp]
    exact h.sound.exec_next i

/-- A reset stops only where the command that it cancels would (R222). -/
theorem Inv.resetNow_next {s : State} (h : Inv s) : ∃ t, s.resetNow = .next t := by
  unfold State.resetNow
  cases hb : s.busy with
  | false => exact ⟨_, rfl⟩
  | true =>
    obtain ⟨i, hp⟩ := h.pending_of_busy hb
    obtain ⟨u, hu⟩ := h.sound.exec_next i
    simp only [hp, hu]
    exact ⟨_, rfl⟩

/-- Of the register writes only CTRL's can run an Exec, by its reset (R55, R221). -/
theorem Inv.writeReg_next {s : State} (h : Inv s) (off : Nat) (w : Word) : ∃ t, s.writeReg off w = .next t := by
  obtain ⟨-, -, hr⟩ | ⟨-, -, hr⟩ | ⟨-, hr⟩ | ⟨-, hr⟩ | ⟨-, -, -, hr⟩ := writeReg_cases off w s
  · rw [hr]
    exact (h.update_unread (w.getLsbD 1) s.cmdRej s.turns s.busLog s.draws).resetNow_next
  all_goals exact ⟨_, hr⟩

theorem Inv.hostWrite_next {s : State} (h : Inv s) (bits addr : Nat) (w : Word) :
    ∃ t, s.hostWrite bits addr w = .next t := by
  obtain ⟨b, hr⟩ | ⟨off, -, -, hr⟩ := hostWrite_cases bits addr w s
  · exact ⟨_, hr⟩
  · rw [hr]
    exact (h.update_unread s.irqEn s.cmdRej s.turns _ s.draws).writeReg_next off w

theorem Inv.takeTurn_next {s : State} (h : Inv s) (t : Turn) : ∃ u, takeTurn t s = .next u := by
  cases t with
  | block => exact h.blockStep_next
  | line w => exact (h.issue w).blockStep_next
  | read bits addr => exact ⟨_, rfl⟩
  | write bits addr w => exact h.hostWrite_next bits addr w
  | hardReset => exact h.resetNow_next

/-- Settles O55: the next turn, whichever it is, ends in a next state. -/
theorem noStepStops : Obligations.NoStepStops := by
  intro s h
  unfold step nextTurn
  split
  next => exact h.blockStep_next
  next t ts _ => exact (h.update_unread s.irqEn s.cmdRej ts s.busLog s.draws).takeTurn_next t

/-! The block's turn (R100, R105). -/

/-- The block's turn and a step with no turn left are the block's step. -/
theorem step_of_block {s : State} {ts : List Turn} (ht : s.turns = .block :: ts ∨ s.turns = [] ∧ ts = []) :
    step s = State.blockStep { s with turns := ts } := by
  obtain ht | ⟨ht, rfl⟩ := ht
  · rw [step, nextTurn, ht]
    rfl
  · have hs : { s with turns := [] } = s := by rw [← ht]
    rw [hs, step, nextTurn, ht]

/-- Settles O4, by the two cases of the block's step. -/
theorem blockTurnCompletesPending : Obligations.BlockTurnCompletesPending := fun _ _ ht =>
  ⟨fun _ hb hp => (step_of_block ht).trans (blockStep_pending hb hp),
    fun hb => (step_of_block ht).trans (blockStep_idle hb)⟩

/-! A word written to CMD (R101-R104). -/

/-- A write to CMD is answered and issues the word (R55, R101). -/
theorem step_writeCmd {s u : State} {ts : List Turn} {w : Word} (ht : s.turns = .write 32 (s.hufBase + 0x008) w :: ts)
    (hu : State.issue w { s with turns := ts, busLog := { data := 0, error := false } :: s.busLog } = u) :
    step s = .next u :=
  (step_write (by decide) (by decide) ht).trans (congrArg Host.Outcome.next hu)

/-- Settles O5: BUSY is the first check of an issue. -/
theorem busyRejectsEveryWord : Obligations.BusyRejectsEveryWord := fun _ _ _ ht hb =>
  step_writeCmd ht (issue_eq_reject (.inl hb))

/-- Settles O6: ERR is the second check of an issue, and its rejection is BUSY's. -/
theorem errorRejectsAllButClearErr : Obligations.ErrorRejectsAllButClearErr := fun _ _ _ ht he hw =>
  step_writeCmd ht (issue_eq_reject (.inr ⟨he, hw⟩))

/-- An illegal word enters the error state at the write; BUSY and the pending command are clear already (R104, R196). -/
theorem step_writeCmd_illegal {s : State} {ts : List Turn} {w : Word} {r : Illegal}
    (ht : s.turns = .write 32 (s.hufBase + 0x008) w :: ts) (hb : s.busy = false) (hp : s.pending = none)
    (he : s.err = false) (hd : decode w = .error r) :
    step s = .next { s with
      turns := ts, busLog := { data := 0, error := false } :: s.busLog, done := false, err := true
      error := illegalError w r } := by
  rw [step_writeCmd ht (issue_eq_enterError hb he hd), hb, hp]
  rfl

/-- Settles O7: the decoder tells the two illegal cases apart. -/
theorem illegalWordSetsErrAtIssue : Obligations.IllegalWordSetsErrAtIssue := fun _ _ _ ht hb hp he =>
  ⟨fun hop => step_writeCmd_illegal ht hb hp he (decode_undefinedOpcode hop),
    fun hop hrsvd => step_writeCmd_illegal ht hb hp he (decode_rsvdNonzero hop hrsvd)⟩

/-- Settles O8: a command's word decodes to it, and CLEAR_ERR's passes the check of ERR. -/
theorem legalWordIsAccepted : Obligations.LegalWordIsAccepted := fun _ i _ ht hb he =>
  step_writeCmd ht (issue_eq_accept hb (he.imp_right fun hi => congrArg encode hi) (decode_encode i))

/-! Completions that touch the control fields alone (R106, R110, R111). -/

/-- Settles O11: NOP's Exec ends in the state it starts in, so only the completion writes. -/
theorem nopCompletes : Obligations.NopCompletes := fun s => exec_eq_complete .nop s

/-- Settles O12: CLEAR_ERR's Exec is the return from an error, before the completion. -/
theorem clearErrCompletes : Obligations.ClearErrCompletes := exec_clearErr

end Sys2Proof.Machine
end

section
/-! PROOF. O18, O19, O15, O17: COUNT tallies the unread fields (R115). BUILD's merges are MergeInv's (R116-R119), its tree is the one
tree of the Forest that the last merge leaves, and Weighted gives its root's weight (R122); a lone EOS leaf is wrapped (R121). -/

namespace Sys2Proof.Machine

/-! COUNT (R115). -/

/-- Settles O15: COUNT's table is `countTable` of the unread fields, which are too few for a count to wrap. -/
theorem countTalliesTheInput : Obligations.CountTalliesTheInput := by
  intro s hs hl
  have hlt : (byteFields s.restBits).length < 2 ^ 32 := hl.trans_lt (by decide)
  refine ⟨countTable (byteFields s.restBits), ?_, countTable_eos _, fun c hc => countTable_get hlt hc⟩
  rw [exec_eq_complete, runOf, runCount_ok hs hl]
  rfl

/-! BUILD's completion (R116). -/

/-- BUILD completes with the tree that `buildTree` makes of FREQ. -/
theorem exec_build {s : State} {root count : Nat} {nodes : NodeStore} (hv : s.freqValid = true)
    (hb : buildTree s.freq s.node = some (root, count, nodes)) :
    exec .build s = .next { s with
      node := nodes, root := BitVec.ofNat 10 root, nodeCount := BitVec.ofNat 10 count, treeSrc := false
      treeValid := true, codesValid := false, busy := false, pending := none, done := true } := by
  rw [exec_eq_complete, runOf, runBuild, require, if_pos hv]
  simp only [Run.andThen, State.startTree, hb]
  rfl

/-- Settles O17: the only leaf is EOS's, and `buildTree_lone` is its wrap. -/
theorem buildWrapsALoneLeaf : Obligations.BuildWrapsALoneLeaf := by
  intro s hv hp
  obtain ⟨nodes, hb, hleaf, hfiller, hroot⟩ := buildTree_lone s.node hp
  exact ⟨nodes, exec_build hv hb, hleaf, hfiller, hroot⟩

/-- Settles O18: the merge loop's invariant, at its end, says that the leaves are kept and that each later node is a merge of the
two least waiting ones. -/
theorem buildMergesTheTwoLeast : Obligations.BuildMergesTheTwoLeast := by
  intro s hv h2
  obtain ⟨e, nodes0, nodes, -, hb, hleaf, hM, -, -⟩ := buildTree_many s.node h2
  refine ⟨nodes, exec_build hv hb, fun i c hc => ?_, hM.merged⟩
  have hi : i < (positives s.freq).length := (List.getElem?_eq_some_iff.1 hc).1
  rw [hM.keep i hi, hleaf i c hc]

/-! The tree that BUILD leaves (R122). -/

/-- The store holds `tr` at `root` over all of the first `count` nodes, its leaf symbols are distinct, and its root weighs the sum of
the counts. -/
structure HoldsBuilt (freq : FreqTable) (nodes : NodeStore) (root count : Nat) (tr : Tree) : Prop where
  stored : tr.stored nodes
  index : tr.index = root
  isNode : tr.isNode = true
  indices : tr.indices.Perm (List.range count)
  count_le : count ≤ Config.nodeCap
  syms_nodup : tr.syms.Nodup
  weight : ∃ nd, nodes[root]? = some nd ∧ nd.weight.toNat = countSum freq

/-- A tree over two nodes or more has an internal root. -/
theorem Tree.isNode_of_indices {t : Tree} {n : Nat} (h : t.indices.Perm (List.range n)) (hn : 2 ≤ n) : t.isNode = true := by
  cases t with
  | leaf i v =>
    have hlen := h.length_eq
    rw [List.length_range, Tree.indices, List.length_singleton] at hlen
    omega
  | node i l r => rfl

/-- The forest that the last merge leaves is one tree of exactly the positive symbols. -/
theorem buildTree_many_holds {freq : FreqTable} (nodes : NodeStore) (h2 : 2 ≤ (positives freq).length)
    (hc : countSum freq < 2 ^ 32) :
    ∃ root count nodes' tr, buildTree freq nodes = some (root, count, nodes') ∧ HoldsBuilt freq nodes' root count tr ∧
      tr.syms.Perm (positives freq) := by
  obtain ⟨e, nodes0, nodes', he, hb, -, hM, ⟨F, hroots, hidx, hsyms⟩, hW⟩ := buildTree_many nodes h2
  obtain ⟨hindex, hstored⟩ := hroots e (List.mem_singleton.2 rfl)
  obtain ⟨nd, hnd, hw⟩ := hM.weight e (List.mem_singleton.2 rfl)
  have hle := positives_length_le freq
  rw [List.flatMap_singleton] at hidx hsyms
  refine ⟨_, _, nodes', F e.idx, hb, ?_, hsyms⟩
  exact {
    stored := hstored
    index := hindex.trans he
    isNode := Tree.isNode_of_indices hidx (by omega)
    indices := hidx
    count_le := by rw [Config.nodeCap]; omega
    syms_nodup := hsyms.nodup_iff.2 (positives_nodup freq)
    weight := ⟨nd, he ▸ hnd, by rw [hw, ← hW hc, List.map_singleton, List.sum_singleton]⟩ }

/-- The wrap's tree: EOS on the left and the filler on the right (R121). -/
def loneTree : Tree := .node 2 (.leaf 0 256) (.leaf 1 0)

theorem buildTree_lone_holds {freq : FreqTable} (nodes : NodeStore) (hp : positives freq = [Config.eos]) :
    ∃ root count nodes', buildTree freq nodes = some (root, count, nodes') ∧ HoldsBuilt freq nodes' root count loneTree := by
  obtain ⟨nodes', hb, hleaf, hfiller, hroot⟩ := buildTree_lone nodes hp
  refine ⟨_, _, nodes', hb, ?_⟩
  exact {
    stored := ⟨⟨_, hroot, rfl, rfl, rfl⟩, ⟨_, hleaf, rfl, rfl⟩, _, hfiller, rfl, rfl⟩
    index := rfl
    isNode := rfl
    indices := by decide
    count_le := by decide
    syms_nodup := by decide
    weight := ⟨_, hroot, by rw [countSum, hp, List.map_singleton, List.sum_singleton]; rfl⟩ }

/-- R122 for a state whose FREQ's tree is known: indices up to NODE_CAP fit their 10-bit registers. -/
theorem HoldsBuilt.exec_build {s : State} {root count : Nat} {nodes : NodeStore} {tr : Tree}
    (h : HoldsBuilt s.freq nodes root count tr) (hv : s.freqValid = true)
    (hb : buildTree s.freq s.node = some (root, count, nodes)) :
    ∃ t, exec .build s = .next t ∧ ValidTree t ∧ t.tree = .ok tr ∧
      ∃ nd, t.node[t.root.toNat]? = some nd ∧ nd.weight.toNat = countSum s.freq := by
  have hle := h.count_le
  have hlt : root < count := List.mem_range.1 (h.indices.mem_iff.1 (h.index ▸ tr.index_mem))
  rw [Config.nodeCap] at hle
  have hroot : (BitVec.ofNat 10 root).toNat = root := by rw [BitVec.toNat_ofNat]; omega
  have hcount : (BitVec.ofNat 10 count).toNat = count := by rw [BitVec.toNat_ofNat]; omega
  refine ⟨_, Machine.exec_build hv hb, ?_, ?_, ?_⟩
  · exact .of_stored (t := tr) h.stored (h.index.trans hroot.symm) h.isNode (by simpa only [hcount] using h.indices)
      (hcount.trans_le h.count_le)
  · simp only [State.tree, hroot]
    rw [← h.index]
    exact treeAt_of_stored h.stored (by rw [h.indices.length_eq, List.length_range]; exact h.count_le)
  · simpa only [hroot] using h.weight

theorem FreqOk.countSum_eq {s : State} (h : FreqOk s) : countSum s.freq = s.freqTotal.toNat + 1 :=
  (Machine.countSum_eq s.freq).trans h.total

/-- One positive count is EOS's (R38, R121). -/
theorem FreqOk.positives_eq {s : State} (h : FreqOk s) (h1 : (positives s.freq).length = 1) :
    positives s.freq = [Config.eos] := by
  obtain ⟨c, hc⟩ := List.length_eq_one_iff.1 h1
  have hm := eos_positive h
  rw [hc, List.mem_singleton] at hm
  rw [hc, hm]

/-- Settles O19, by the number of positive counts: two or more are merged into one tree, and EOS's alone is wrapped. -/
theorem buildMakesAValidTree : Obligations.BuildMakesAValidTree := by
  intro s hv hF
  have hsum := hF.countSum_eq
  have hbound := hF.bound
  rw [Config.maxInput] at hbound
  have hpos : 0 < (positives s.freq).length := List.length_pos_of_mem (eos_positive hF)
  by_cases h2 : 2 ≤ (positives s.freq).length
  · obtain ⟨root, count, nodes, tr, hb, hH, hsyms⟩ := buildTree_many_holds s.node h2 (by omega)
    obtain ⟨t, he, hvalid, htree, hweight⟩ := hH.exec_build hv hb
    exact ⟨t, tr, he, hvalid, htree, hH.syms_nodup, fun _ => hsyms, fun h1 => by omega, hsum ▸ hweight⟩
  · obtain ⟨root, count, nodes, hb, hH⟩ := buildTree_lone_holds s.node (hF.positives_eq (by omega))
    obtain ⟨t, he, hvalid, htree, hweight⟩ := hH.exec_build hv hb
    exact ⟨t, loneTree, he, hvalid, htree, hH.syms_nodup, fun h => absurd h h2, fun _ => rfl, hsum ▸ hweight⟩

end Sys2Proof.Machine
end

section
/-! PROOF. O21, O20, O22: DERIVE's table holds the paths of leaves of the tree in the node store (R130, R131), of which none begins
another (R132); and WRITE_BODY appends the codes of the fields it reads and then EOS's (R133, R134). -/

namespace Sys2Proof.Machine

/-! The code table (R132). -/

/-- A tree that fits the node store has at most 257 leaves (R10, R37). -/
theorem ValidTree.leafCount_le {s : State} {tr : Tree} (h : ValidTree s) (ht : s.tree = .ok tr) : tr.leafCount ≤ 257 := by
  obtain ⟨u, hu, hperm⟩ := h.reaches
  obtain rfl : u = tr := Except.ok.inj (hu.symm.trans ht)
  have hlen : u.indices.length = s.nodeCount.toNat := by rw [hperm.length_eq, List.length_range]
  have hcount := u.indices_length
  have hcap := h.count_le
  rw [Config.nodeCap] at hcap
  omega

/-- While CODES_VALID's promise holds, each code is a path of its symbol in the tree (R40, R132). -/
theorem CodesOk.code_mem_paths {s : State} (h : CodesOk s) :
    ∃ tr, s.tree = .ok tr ∧ ∀ c : Sym, s.code[c] ≠ [] → (c, s.code[c]) ∈ tr.paths [] := by
  obtain ⟨tr, ht, hcode⟩ := h
  refine ⟨tr, ht, fun c hc => ?_⟩
  have hpath : s.code[c] = lastPath (tr.paths []) c := by rw [hcode, Tree.derive_get]
  rw [hpath] at hc ⊢
  exact lastPath_mem hc

/-- Settles O21: the codes are paths of one tree, of which none begins another's, and its leaves bound their length. -/
theorem codesArePrefixFree : Obligations.CodesArePrefixFree := by
  intro s hvalid hcodes
  obtain ⟨tr, ht, hmem⟩ := hcodes.code_mem_paths
  refine ⟨fun c => ?_, fun a b hab ha hb hprefix => hab (Tree.paths_prefix (hmem a ha) (hmem b hb) hprefix).1⟩
  by_cases hc : s.code[c] = []
  · rw [hc]
    exact Nat.zero_le _
  · have hlt := Tree.path_lt (hmem c hc)
    have hle := hvalid.leafCount_le ht
    rw [Config.maxCodeLen]
    omega

/-! DERIVE (R130, R131). -/

/-- DERIVE completes with the table its walk makes of the tree in the node store. -/
theorem exec_derive {s : State} {tr : Tree} (hv : s.treeValid = true) (ht : s.tree = .ok tr) :
    exec .derive s = .next { s with
      code := tr.walk [] noCodes, codesValid := true, busy := false, pending := none, done := true } := by
  rw [exec_eq_complete, runOf, runDerive_ok hv ht]
  rfl

/-- Settles O20: the walk records each symbol's last path, and the paths and the leaves of a stored tree lead to each other. -/
theorem deriveRecordsLeafPaths : Obligations.DeriveRecordsLeafPaths := by
  intro s hv hvalid
  obtain ⟨tr, ht, hstored, hroot, -, hperm⟩ := hvalid.stored
  have hidx : ∀ n, n ∈ tr.indices ↔ n < s.nodeCount.toNat := fun n => by rw [hperm.mem_iff, List.mem_range]
  refine ⟨_, tr, exec_derive hv ht, ht, tr.derive_get, ?_, ?_⟩
  · rintro ⟨v, p⟩ hp
    obtain ⟨n, nd, hn, hfollow, hnd, hleaf, hsym⟩ := Tree.follow_path hstored hp
    exact ⟨n, nd, (hidx n).1 hn, hroot ▸ hfollow, hnd, hleaf, symOfField_val hsym⟩
  · intro n nd hn hnd hleaf
    obtain ⟨v, p, hp, hfollow, hsym⟩ := Tree.path_of_leaf hstored ((hidx n).2 hn) hnd hleaf
    exact ⟨(v, p), hp, hroot ▸ hfollow, symOfField_val hsym⟩

/-! WRITE_BODY (R133, R134). -/

/-- Settles O22: the loop appends the fields' codes and then EOS's, and `packBits` gives the bytes and the partial byte. -/
theorem writeBodyEncodesTheInput : Obligations.WriteBodyEncodesTheInput := by
  intro s hv ho hp hs hc he
  refine ⟨_, _, ?_, packBits_emits hp _⟩
  rw [exec_eq_complete, runOf, runWriteBody_ok hv ho hs hc he, appendBits_packed]
  rfl

end Sys2Proof.Machine
end

section
/-! PROOF. O24-O26: WRITE_MAGIC and WRITE_HEADER append MAGIC's bits and the tree's header to the output (R140-R142); CHECK_MAGIC
compares the next 32 bits with MAGIC (R143). -/

namespace Sys2Proof.Machine

/-! The two ends of a completion (R105). -/

theorem exec_of_ok {i : Instr} {s t : State} (h : runOf i s = .ok () t) : exec i s = .next t.finishOk := by
  rw [exec_eq_complete, h]
  rfl

theorem exec_of_raise {i : Instr} {s t : State} {e : ErrorReg} (h : runOf i s = .raise e t) :
    exec i s = .next (t.enterError e) := by
  rw [exec_eq_complete, h]
  rfl

/-! WRITE_MAGIC and WRITE_HEADER (R140-R142). -/

/-- A writing command that appends `c` and nothing else completes with `packBits` in its output. -/
theorem exec_of_appendBits {i : Instr} {s : State} {c : BitStr} (h : runOf i s = .ok () (s.appendBits c)) :
    exec i s = .next { s with
      outBytes := (packBits s.outBytes s.pend c).1, pend := (packBits s.outBytes s.pend c).2
      outPos := s.outPos + BitVec.ofNat 64 c.length, busy := false, pending := none, done := true } := by
  rw [exec_of_ok h, appendBits_packed]
  rfl

/-- Settles O24: the packer is given the 32 bits of MAGIC and nothing else. -/
theorem writeMagicCompletes : Obligations.WriteMagicCompletes := by
  intro s ho hp
  refine ⟨_, _, ?_, packBits_emits hp _⟩
  rw [exec_of_appendBits (i := .writeMagic) (runWriteMagic_ok ho), bitsOf_length]
  rfl

/-- Settles O25: `Emit` writes the header of the tree in the node store, whose length its leaves give. -/
theorem writeHeaderEmitsTheTree : Obligations.WriteHeaderEmitsTheTree := by
  intro s hv hvalid ho hp
  obtain ⟨tr, ht, -⟩ := hvalid.reaches
  have hlen : tr.headerBits.length = 11 * tr.leafCount - 1 := Nat.eq_sub_of_add_eq tr.headerBits_length
  refine ⟨tr, _, _, ht, hlen, ?_, packBits_emits hp _⟩
  rw [exec_of_appendBits (i := .writeHeader) (runWriteHeader_ok hv ho ht), hlen]

/-! CHECK_MAGIC (R143). -/

/-- Another 32 bits than MAGIC's raise FORMAT(0) past them. -/
theorem runCheckMagic_otherTag {s : State} (hlen : 32 ≤ s.restBits.length)
    (h : s.restBits.take 32 ≠ bitsOf 32 s.magic.toNat) :
    runCheckMagic s = .raise (errorOf .format .checkMagic 0) { s with inPos := s.inPos + BitVec.ofNat 64 32 } := by
  have hne : uint (s.restBits.take 32) ≠ s.magic.toNat := fun he =>
    h (by rw [← he, bitsOf_uint_of_length (List.length_take_of_le hlen)])
  rw [runCheckMagic, readBits_ok (by decide) hlen]
  simp only [require, beq_iff_eq]
  exact if_neg hne

/-- Fewer than 32 bits raise FORMAT(1) at the end of the input. -/
theorem runCheckMagic_short {s : State} (h : s.restBits.length < 32) :
    runCheckMagic s = .raise (errorOf .format .checkMagic 1) { s with inPos := BitVec.ofNat 64 s.inLimit } := by
  rw [runCheckMagic, readBits_eod h]

/-- Settles O26, by what ReadBits(32) returns and its comparison with MAGIC. -/
theorem checkMagicOutcomes : Obligations.CheckMagicOutcomes := by
  intro s
  refine ⟨fun h => ?_, fun hlen h => exec_of_raise (i := .checkMagic) (runCheckMagic_otherTag hlen h),
    fun h => exec_of_raise (i := .checkMagic) (runCheckMagic_short h)⟩
  have hrest : s.restBits = bitsOf 32 s.magic.toNat ++ s.restBits.drop 32 := by rw [← h, List.take_append_drop]
  exact exec_of_ok (i := .checkMagic) (runCheckMagic_ok hrest)

end Sys2Proof.Machine
end

section
/-! PROOF. O27-O29: READ_HEADER is one parse from the cleared node count (R144). The tree it makes is numbered in pre-order from
0, so it is a valid tree (R37, R145, R147); a raise of the parse is READ_HEADER's own (R146). -/

namespace Sys2Proof.Machine

/-! The parse's start and its two ends (R144). -/

/-- The state in which READ_HEADER begins to parse. -/
def State.parseStart (s : State) : State := { s.startTree with nodeCount := 0 }

theorem parseStart_nodeCount (s : State) : s.parseStart.nodeCount.toNat = 0 := rfl

/-- What READ_HEADER leaves of a parse that ends with its root at 0. -/
def State.treeRead (s : State) (nodes : NodeStore) (count : BitVec 10) (pos : BitVec 64) : State :=
  { s.startTree.parsed nodes count pos with root := 0, treeSrc := true, treeValid := true }

theorem exec_readHeader_ok {s : State} {nodes : NodeStore} {count : BitVec 10} {pos : BitVec 64}
    (h : parseNode Config.nodeCap true s.parseStart = .ok 0 (s.parseStart.parsed nodes count pos)) :
    exec .readHeader s = .next (s.treeRead nodes count pos).finishOk := by
  refine exec_of_ok ?_
  change (parseNode Config.nodeCap true s.parseStart).andThen _ = _
  rw [h]
  rfl

theorem exec_readHeader_raise {s t : State} {e : ErrorReg}
    (h : parseNode Config.nodeCap true s.parseStart = .raise e t) : exec .readHeader s = .next (t.enterError e) := by
  refine exec_of_raise ?_
  change (parseNode Config.nodeCap true s.parseStart).andThen _ = _
  rw [h]
  rfl

/-! The tree it makes (R37, R145). -/

theorem ParsedTree.indices_eq_range {nodes : NodeStore} {t : Tree} (h : ParsedTree nodes 0 t) :
    t.indices = List.range t.indices.length := by
  rw [List.range_eq_range']
  exact h.indices

/-- A parsed tree that fills the store from 0 on is a valid tree. -/
theorem ParsedTree.validTree {s : State} {t : Tree} (h : ParsedTree s.node 0 t) (hroot : s.root = 0) (hn : t.isNode = true)
    (hcount : s.nodeCount.toNat = t.indices.length) (hcap : s.nodeCount.toNat ≤ Config.nodeCap) : ValidTree s := by
  refine .of_stored h.stored (by rw [h.index, hroot]; rfl) hn (.of_eq ?_) hcap
  rw [hcount]
  exact h.indices_eq_range

theorem ParsedTree.tree_eq {s : State} {t : Tree} (h : ParsedTree s.node 0 t) (hroot : s.root = 0)
    (hcap : t.indices.length ≤ Config.nodeCap) : s.tree = .ok t := by
  have ht := treeAt_of_stored h.stored hcap
  rw [h.index] at ht
  rw [State.tree, hroot]
  exact ht

theorem Tree.isNode_of_sameShape {t u : Tree} (h : t.sameShape u = true) (hu : u.isNode = true) : t.isNode = true := by
  cases t with
  | node i l r => rfl
  | leaf i v =>
    cases u with
    | leaf j w => exact hu
    | node j l r => exact h

/-- Settles O27: the parse reads back the header, and the tree it makes of it is valid. -/
theorem readHeaderRebuildsTheTree : Obligations.ReadHeaderRebuildsTheTree := by
  intro s tr rest hs hn hcap hrest
  obtain ⟨nodes, tr', hrun, htr', hshape, hlen⟩ := runReadHeader_ok hs hn hcap hrest
  have hcount : (BitVec.ofNat 10 tr.indices.length).toNat = tr.indices.length := by
    rw [Config.nodeCap] at hcap
    rw [BitVec.toNat_ofNat]
    omega
  refine ⟨nodes, tr', _, exec_of_ok hrun, rfl, ?_, ?_, hshape, ?_, ?_⟩
  · exact ParsedTree.validTree htr' rfl (Tree.isNode_of_sameShape hshape hn) (hcount.trans hlen.symm) (hcount.trans_le hcap)
  · exact ParsedTree.tree_eq htr' rfl (hlen.trans_le hcap)
  · rw [← hlen]
    exact htr'.indices_eq_range
  · intro n nd hlt hnd
    exact htr'.weight n nd (Nat.zero_le n) (by omega) hnd

/-- Settles O28: a parse ends in a tree, which is valid, or in one of its errors, with TREE_VALID as the start left it. -/
theorem readHeaderSucceedsOrInvalidates : Obligations.ReadHeaderSucceedsOrInvalidates := by
  intro s
  obtain ⟨nodes, count, pos, tr, hparse, htr, hcount, hcap, -, hnode⟩ | ⟨e, nodes, count, pos, hparse, he⟩ :=
    parseNode_result Config.nodeCap true s.parseStart (Nat.zero_le _)
  · rw [parseStart_nodeCount] at hparse htr hcount
    refine ⟨_, exec_readHeader_ok hparse, .inl ⟨rfl, rfl, rfl, rfl, rfl, rfl, ?_⟩, rfl⟩
    exact ParsedTree.validTree htr rfl (hnode rfl) (hcount.trans (Nat.zero_add _)) hcap
  · obtain ⟨hrow, hop⟩ := parseErrors_isRow he
    exact ⟨_, exec_readHeader_raise hparse, .inr ⟨rfl, rfl, rfl, rfl, rfl, hop, hrow⟩, rfl⟩

/-! The error of the node that is due (R146). -/

/-- At NODE_CAP nodes the parse raises CAPACITY, with fuel left or without. -/
theorem parseNode_full {fuel : Nat} {isRoot : Bool} {s : State} (h : s.nodeCount.toNat = Config.nodeCap) :
    parseNode fuel isRoot s = .raise (errorOf .capacity .readHeader 0) s := by
  cases fuel with
  | zero => rfl
  | succ fuel => exact parseNode_cap fuel isRoot s h

theorem parseNode_noBit {fuel : Nat} {isRoot : Bool} {s : State} (hcap : s.nodeCount.toNat ≠ Config.nodeCap)
    (h : s.restBits = []) :
    parseNode (fuel + 1) isRoot s =
      .raise (errorOf .truncated .readHeader 0) { s with inPos := BitVec.ofNat 64 s.inLimit } :=
  parseNode_eod hcap (readBits_eod (by rw [h]; decide))

/-- A leaf whose field runs out (R146). -/
theorem parseNode_shortField {fuel : Nat} {s : State} {rest : BitStr} (hs : s.inBytes.length < Config.streamLimit)
    (hcap : s.nodeCount.toNat ≠ Config.nodeCap) (h : s.restBits = true :: rest) (hlen : rest.length < 9) :
    ∃ t, parseNode (fuel + 1) false s = .raise (errorOf .truncated .readHeader 1) t ∧
      t.inPos = BitVec.ofNat 64 s.inLimit := by
  have hbit := readBits_at (bits := [true]) (by decide) rfl h
  have hrest := restBits_after (bits := [true]) hs h s.node (s.nodeCount + 1)
  rw [parseNode_leaf hcap hbit, parsed_allocNode, readBits_eod (hrest ▸ hlen)]
  exact ⟨_, rfl, rfl⟩

/-- A leaf whose field is above 256 (R88, R146). -/
theorem parseNode_badField {fuel : Nat} {s : State} {field rest : BitStr} (hs : s.inBytes.length < Config.streamLimit)
    (hcap : s.nodeCount.toNat ≠ Config.nodeCap) (h : s.restBits = true :: (field ++ rest)) (hlen : field.length = 9)
    (hbad : 256 < uint field) :
    ∃ t, parseNode (fuel + 1) false s = .raise (errorOf .format .readHeader 2) t ∧
      t.inPos = s.inPos + BitVec.ofNat 64 10 := by
  have hbit := readBits_at (bits := [true]) (by decide) rfl h
  have hrest := restBits_after (bits := [true]) hs h s.node (s.nodeCount + 1)
  rw [parseNode_leaf hcap hbit, parsed_allocNode, readBits_at (by decide) hlen hrest]
  refine ⟨_, if_pos hbad, ?_⟩
  exact BitVec.add_assoc s.inPos (BitVec.ofNat 64 1) (BitVec.ofNat 64 9)

/-! The whole nodes before it (R87). -/

/-- READ_HEADER from `s` has read the whole nodes `pre`, and the node that is due is parsed in `u`: its raise is the command's. -/
structure ReachesNode (s : State) (pre : List (Option Sym)) (rest : BitStr) (fuel : Nat) (u : State) : Prop where
  inBytes : u.inBytes = s.inBytes
  nodeCount : u.nodeCount.toNat = pre.length
  restBits : u.restBits = rest
  inPos : u.inPos = s.inPos + BitVec.ofNat 64 (pre.flatMap nodeBits).length
  fuel_ge : Config.nodeCap ≤ fuel + pre.length
  raises : ∀ e t, parseNode fuel pre.isEmpty u = .raise e t → exec .readHeader s = .next (t.enterError e)

theorem exists_reachesNode {s : State} {tr : Tree} {pre post : List (Option Sym)} {rest : BitStr}
    (hs : s.inBytes.length < Config.streamLimit) (htr : tr.preorder = pre ++ post) (hpost : post ≠ [])
    (hlen : pre.length ≤ Config.nodeCap) (hrest : s.restBits = pre.flatMap nodeBits ++ rest) :
    ∃ fuel u, ReachesNode s pre rest fuel u := by
  rw [Config.nodeCap] at hlen
  obtain ⟨nodes, fuel, hfuel, hraise⟩ := parseNode_stem tr (fuel := Config.nodeCap) (isRoot := true)
    (s := s.parseStart) hs htr hpost hrest (by rw [parseStart_nodeCount]; omega) le_rfl
  refine ⟨fuel, s.parseStart.parsed nodes (s.parseStart.nodeCount + BitVec.ofNat 10 pre.length)
    (s.inPos + BitVec.ofNat 64 (pre.flatMap nodeBits).length), ?_⟩
  exact {
    inBytes := rfl
    nodeCount := by rw [parsed_nodeCount, BitVec.toNat_add, parseStart_nodeCount, BitVec.toNat_ofNat]; omega
    restBits := restBits_after (s := s.parseStart) hs hrest nodes _
    inPos := rfl
    fuel_ge := hfuel
    raises := fun e t h => exec_readHeader_raise (hraise e t h) }

/-- Below NODE_CAP nodes the node that is due is parsed with fuel and with room in the store. -/
theorem exists_reachesNode_room {s : State} {tr : Tree} {pre post : List (Option Sym)} {rest : BitStr}
    (hs : s.inBytes.length < Config.streamLimit) (htr : tr.preorder = pre ++ post) (hpost : post ≠ [])
    (hlt : pre.length < Config.nodeCap) (hrest : s.restBits = pre.flatMap nodeBits ++ rest) :
    ∃ fuel u, ReachesNode s pre rest (fuel + 1) u ∧ u.nodeCount.toNat ≠ Config.nodeCap := by
  obtain ⟨fuel, u, hu⟩ := exists_reachesNode hs htr hpost hlt.le hrest
  have hfuel := hu.fuel_ge
  obtain ⟨k, rfl⟩ : ∃ k, fuel = k + 1 := Nat.exists_eq_add_one.2 (by omega)
  exact ⟨k, u, hu, by rw [hu.nodeCount]; exact hlt.ne⟩

theorem ReachesNode.raises_at {s u t : State} {pre : List (Option Sym)} {rest : BitStr} {fuel p : Nat} {e : ErrorReg}
    (h : ReachesNode s pre rest fuel u) (ht : parseNode fuel pre.isEmpty u = .raise e t) (hp : t.inPos.toNat = p) :
    ∃ v, exec .readHeader s = .next v ∧ v.err = true ∧ v.error = e ∧ v.inPos.toNat = p :=
  ⟨_, h.raises e t ht, rfl, rfl, hp⟩

theorem ReachesNode.inLimit_toNat {s u : State} {pre : List (Option Sym)} {rest : BitStr} {fuel : Nat}
    (h : ReachesNode s pre rest fuel u) (hs : s.inBytes.length < Config.streamLimit) :
    (BitVec.ofNat 64 u.inLimit).toNat = s.inLimit := by
  rw [State.inLimit, h.inBytes]
  exact Machine.inLimit_toNat hs

/-- The cursor after the first bits of the rest (R62, R68). -/
theorem inPos_after_toNat {s : State} {bits rest : BitStr} (hs : s.inBytes.length < Config.streamLimit)
    (h : s.restBits = bits ++ rest) : (s.inPos + BitVec.ofNat 64 bits.length).toNat = s.inPos.toNat + bits.length := by
  obtain rfl | hne := eq_or_ne bits []
  · exact congrArg BitVec.toNat (BitVec.add_zero s.inPos)
  · exact inPos_add_toNat hs (List.length_pos_iff.2 hne) (by rw [h, List.length_append]; exact Nat.le_add_right _ _)

/-- A leaf at the root (R144). -/
theorem readHeader_rootLeaf {s : State} {rest : BitStr} (hs : s.inBytes.length < Config.streamLimit)
    (h : s.restBits = true :: rest) :
    ∃ t, exec .readHeader s = .next t ∧ t.err = true ∧ t.error = { cause := 1, op := 0x0A, detail := 3 } ∧
      t.inPos.toNat = s.inPos.toNat + 1 := by
  have hbit := readBits_at (s := s.parseStart) (bits := [true]) (by decide) rfl h
  exact ⟨_, exec_readHeader_raise (parseNode_rootLeaf (by rw [parseStart_nodeCount]; decide) hbit), rfl, rfl,
    inPos_after_toNat (bits := [true]) hs h⟩

/-- Settles O29: after the whole nodes of a header, by what the node that is due finds. -/
theorem readHeaderErrorsInOrder : Obligations.ReadHeaderErrorsInOrder := by
  intro s hs
  refine ⟨fun rest h => readHeader_rootLeaf hs h, fun tr pre post _ htr hpost => ⟨?noBit, ?shortField, ?badField, ?full⟩⟩
  case noBit =>
    intro hlt h
    obtain ⟨fuel, u, hu, hroom⟩ := exists_reachesNode_room (rest := []) hs htr hpost hlt (by rw [h, List.append_nil])
    exact hu.raises_at (parseNode_noBit hroom hu.restBits) (hu.inLimit_toNat hs)
  case shortField =>
    intro rest hne hlt h hlen
    obtain ⟨fuel, u, hu, hroom⟩ := exists_reachesNode_room hs htr hpost hlt h
    obtain ⟨t, ht, hpos⟩ := parseNode_shortField (fuel := fuel) (hu.inBytes ▸ hs) hroom hu.restBits hlen
    rw [← List.isEmpty_eq_false_iff.2 hne] at ht
    exact hu.raises_at ht (by rw [hpos, hu.inLimit_toNat hs])
  case badField =>
    intro field rest hne hlt h hlen hbad
    obtain ⟨fuel, u, hu, hroom⟩ := exists_reachesNode_room hs htr hpost hlt h
    obtain ⟨t, ht, hpos⟩ := parseNode_badField (fuel := fuel) (hu.inBytes ▸ hs) hroom hu.restBits hlen hbad
    rw [← List.isEmpty_eq_false_iff.2 hne] at ht
    have hread := inPos_after_toNat (bits := pre.flatMap nodeBits ++ true :: field) (rest := rest) hs (by simpa using h)
    rw [List.length_append, List.length_cons, hlen, BitVec.ofNat_add, ← BitVec.add_assoc, ← hu.inPos] at hread
    exact hu.raises_at ht (by rw [hpos, hread, Nat.add_assoc])
  case full =>
    intro rest hlen h
    obtain ⟨fuel, u, hu⟩ := exists_reachesNode hs htr hpost hlen.le h
    exact hu.raises_at (parseNode_full (hu.nodeCount.trans hlen)) (by rw [hu.inPos, inPos_after_toNat hs h])

end Sys2Proof.Machine
end

section
/-! PROOF. O30-O32: READ_BODY is one run of the decoding loop from the root (R155). Whole paths to leaves that are not EOS leave the
loop at the root with their bytes emitted (R157), and what follows them decides how it ends (R158, R159). On any node store each
turn reads one bit and emits at most one byte (R160). -/

namespace Sys2Proof.Machine

/-! After whole paths (R155-R157). -/

/-- The bits of the bytes that a list of leaf paths decodes to (R157). -/
def itemBytes (items : List (Sym × BitStr)) : BitStr := items.flatMap fun q => bitsOf 8 q.1.val

theorem itemBytes_length (items : List (Sym × BitStr)) : (itemBytes items).length = 8 * items.length := by
  simp only [itemBytes, List.length_flatMap, bitsOf_length, List.map_const', List.sum_replicate, smul_eq_mul, Nat.mul_comm]

/-- The loop's state after whole paths: their bytes emitted, CUR at the root, the cursor past them. -/
def State.decoded (s : State) (items : List (Sym × BitStr)) : State :=
  (s.appendBits (itemBytes items)).walked s.root (s.inPos + BitVec.ofNat 64 (items.flatMap Prod.snd).length)

theorem decoded_inBytes (s : State) (items : List (Sym × BitStr)) : (s.decoded items).inBytes = s.inBytes :=
  appendBits_inBytes _ _

theorem decoded_inLimit (s : State) (items : List (Sym × BitStr)) : (s.decoded items).inLimit = s.inLimit :=
  congrArg (8 * List.length ·) (decoded_inBytes s items)

theorem decoded_node (s : State) (items : List (Sym × BitStr)) : (s.decoded items).node = s.node :=
  appendBits_node _ _

theorem decoded_restBits {s : State} {items : List (Sym × BitStr)} {rest : BitStr}
    (hs : s.inBytes.length < Config.streamLimit) (h : s.restBits = items.flatMap Prod.snd ++ rest) :
    (s.decoded items).restBits = rest := by
  rw [State.decoded, ← appendBits_walked, appendBits_restBits]
  exact walked_restBits_after hs h s.root

/-- The fields written when the loop stops with CUR and the cursor moved on from where the whole paths end. -/
theorem decoded_walked_eq (s : State) (items : List (Sym × BitStr)) (cur : BitVec 10) (pos : BitVec 64) :
    (s.decoded items).walked cur pos = { s with
      cur := cur, inPos := pos
      outBytes := (packBits s.outBytes s.pend (itemBytes items)).1, pend := (packBits s.outBytes s.pend (itemBytes items)).2
      outPos := s.outPos + BitVec.ofNat 64 (8 * items.length) } := by
  rw [State.decoded, walked_walked, appendBits_packed, itemBytes_length]
  rfl

theorem decoded_inPos_add (s : State) (items : List (Sym × BitStr)) (q : BitStr) :
    (s.decoded items).inPos + BitVec.ofNat 64 q.length =
      s.inPos + BitVec.ofNat 64 (items.flatMap Prod.snd ++ q).length := by
  rw [List.length_append, BitVec.ofNat_add, ← BitVec.add_assoc]
  rfl

theorem ValidTree.isNode_of_tree {s : State} {tr : Tree} (h : ValidTree s) (ht : s.tree = .ok tr) : tr.isNode = true := by
  obtain ⟨u, hu, -, -, hn, -⟩ := h.stored
  obtain rfl : u = tr := Except.ok.inj (hu.symm.trans ht)
  exact hn

/-- What READ_BODY needs in order to start, on a stream it is not refused, with whole paths to leaves that are not EOS before the
bits `rest` (R155). -/
structure StartsWithItems (s : State) (tr : Tree) (items : List (Sym × BitStr)) (rest : BitStr) : Prop where
  treeValid : s.treeValid = true
  outClosed : s.outClosed = false
  stream_fits : s.inBytes.length < Config.streamLimit
  tree : s.tree = .ok tr
  isNode : tr.isNode = true
  leafPaths : ∀ x ∈ items, x ∈ tr.paths [] ∧ x.1 ≠ Config.eos
  restBits : s.restBits = items.flatMap Prod.snd ++ rest

/-- The loop reaches the bits after the whole paths with a turn left for each of them and one more (R155-R157). -/
theorem StartsWithItems.runReadBody_eq {s : State} {tr : Tree} {items : List (Sym × BitStr)} {rest : BitStr}
    (h : StartsWithItems s tr items rest) :
    ∃ k, runReadBody s = decodeLoop (k + 1 + rest.length) (s.decoded items) := by
  have hlen := restBits_length s
  rw [h.restBits, List.length_append, State.inLimit] at hlen
  obtain ⟨k, hk⟩ : ∃ k, 8 * s.inBytes.length = k + (rest.length + (items.flatMap Prod.snd).length) :=
    Nat.exists_eq_add_of_le' (by omega)
  have hfuel : 8 * s.inBytes.length + 1 = k + 1 + rest.length + (items.flatMap Prod.snd).length := by omega
  use k
  rw [Machine.runReadBody_eq h.treeValid h.outClosed, hfuel,
    decodeLoop_items items (s := s.walked s.root s.inPos) h.tree h.isNode h.stream_fits rfl h.leafPaths h.restBits,
    appendBits_walked]
  rfl

/-- Settles O30: after the whole paths the loop follows EOS's path and stops on its leaf. -/
theorem readBodyDecodesPaths : Obligations.ReadBodyDecodesPaths := by
  intro s tr items e rest hv hvalid ho hp hs ht hi he hrest
  have hn := hvalid.isNode_of_tree ht
  obtain ⟨n, nd, hf, hnd, hk, hsym⟩ := followBits_path ht he
  have heos : nd.sym.toNat = 256 := hsym
  have hs' : (s.decoded items).inBytes.length < Config.streamLimit := by rw [decoded_inBytes]; exact hs
  obtain ⟨k, hrun⟩ := StartsWithItems.runReadBody_eq ⟨hv, ho, hs, ht, hn, hi, hrest⟩
  have hfuel : k + 1 + (e ++ rest).length = k + 1 + rest.length + e.length := by rw [List.length_append]; omega
  rw [hfuel, decodeLoop_path e (decoded_node s items) hs' (decoded_restBits hs hrest) (Tree.path_ne_nil hn he) hf hnd hk,
    if_pos heos, decoded_walked_eq, decoded_inPos_add] at hrun
  exact ⟨_, _, n, hf, exec_of_ok (i := .readBody) hrun, packBits_emits hp _⟩

/-- Settles O31: after the whole paths the loop descends to the internal node and meets the end there. -/
theorem readBodyTruncated : Obligations.ReadBodyTruncated := by
  intro s tr items q n nd hv hvalid ho hp hs ht hi hf hnd hk hrest
  obtain ⟨k, hrun⟩ := StartsWithItems.runReadBody_eq ⟨hv, ho, hs, ht, hvalid.isNode_of_tree ht, hi, hrest⟩
  have hs' : (s.decoded items).inBytes.length < Config.streamLimit := by rw [decoded_inBytes]; exact hs
  have hq : (s.decoded items).restBits = q ++ [] := by rw [List.append_nil]; exact decoded_restBits hs hrest
  have hlim : ∀ c p, ((s.decoded items).walked c p).inLimit = s.inLimit := fun _ _ => decoded_inLimit s items
  rw [decodeLoop_descend q (decoded_node s items) hs' hq hf hnd hk, decodeLoop_eod k _ (walked_restBits_after hs' hq _),
    hlim, walked_walked, walked_cur, decoded_walked_eq] at hrun
  exact ⟨_, _, exec_of_raise (i := .readBody) hrun, packBits_emits hp _⟩

/-! One byte at most for each bit (R160). -/

/-- What a turn of the loop on a bit can do, whatever the node store holds: fault, stop, descend, or emit a byte. -/
theorem decodeLoop_bit_cases (fuel : Nat) {s : State} {b : Bool} {rest : BitStr} (h : s.restBits = b :: rest) :
    decodeLoop (fuel + 1) s = .fault .nodeIndex ∨
    (∃ c, decodeLoop (fuel + 1) s = .ok () (s.walked c (s.inPos + BitVec.ofNat 64 1))) ∨
    (∃ c, decodeLoop (fuel + 1) s = decodeLoop fuel (s.walked c (s.inPos + BitVec.ofNat 64 1))) ∨
    ∃ v, decodeLoop (fuel + 1) s =
      decodeLoop fuel ((s.appendBits (bitsOf 8 v)).walked s.root (s.inPos + BitVec.ofNat 64 1)) := by
  cases hh : s.node[s.cur.toNat]? with
  | none =>
    left
    rw [decodeLoop_succ, readBits_bit h]
    simp only [walked_node, walked_cur, hh]
  | some here =>
    cases hn : s.node[(here.child b).toNat]? with
    | none =>
      left
      rw [decodeLoop_succ, readBits_bit h]
      simp only [walked_node, walked_cur, hh, childOf_eq, hn]
    | some nd =>
      right
      cases hk : nd.kind with
      | internal => exact .inr (.inl ⟨_, decodeLoop_internal h hh hn hk⟩)
      | leaf =>
        by_cases hv : nd.sym.toNat = 256
        · exact .inl ⟨_, decodeLoop_eos h hh hn hk hv⟩
        · exact .inr (.inr ⟨_, decodeLoop_leaf h hh hn hk hv⟩)

/-- From `s` to `t` the cursor moved on within the stream, and the output grew by at most a byte for each bit it passed (R160). -/
structure EmitsWithin (s t : State) : Prop where
  inBytes : t.inBytes = s.inBytes
  inPos_le : s.inPos.toNat ≤ t.inPos.toNat
  cursor_le : t.inPos.toNat ≤ s.inLimit
  outBits_le : t.outBits.length + 8 * s.inPos.toNat ≤ s.outBits.length + 8 * t.inPos.toNat

theorem EmitsWithin.inLimit {s t : State} (h : EmitsWithin s t) : t.inLimit = s.inLimit :=
  congrArg (8 * List.length ·) h.inBytes

theorem EmitsWithin.trans {s t u : State} (h : EmitsWithin s t) (k : EmitsWithin t u) : EmitsWithin s u where
  inBytes := k.inBytes.trans h.inBytes
  inPos_le := h.inPos_le.trans k.inPos_le
  cursor_le := k.cursor_le.trans_eq h.inLimit
  outBits_le := by
    have := h.outBits_le
    have := k.outBits_le
    omega

/-- A move of CUR and of the cursor, with at most a byte appended for each bit passed. -/
theorem emitsWithin_appendBits_walked {s : State} {bits : BitStr} {cur : BitVec 10} {pos : BitVec 64}
    (hle : s.inPos.toNat ≤ pos.toNat) (hlim : pos.toNat ≤ s.inLimit)
    (hbits : bits.length + 8 * s.inPos.toNat ≤ 8 * pos.toNat) :
    EmitsWithin s ((s.appendBits bits).walked cur pos) where
  inBytes := appendBits_inBytes _ _
  inPos_le := hle
  cursor_le := hlim
  outBits_le := by
    change (s.appendBits bits).outBits.length + _ ≤ _ + 8 * pos.toNat
    rw [appendBits_outBits, List.length_append]
    omega

theorem emitsWithin_walked {s : State} {cur : BitVec 10} {pos : BitVec 64}
    (hle : s.inPos.toNat ≤ pos.toNat) (hlim : pos.toNat ≤ s.inLimit) : EmitsWithin s (s.walked cur pos) := by
  have h := emitsWithin_appendBits_walked (bits := []) (cur := cur) hle hlim (by simpa using hle)
  rwa [appendBits_nil] at h

theorem decodeLoop_emitsWithin (fuel : Nat) {s : State} (hs : s.inBytes.length < Config.streamLimit)
    (hp : s.inPos.toNat ≤ s.inLimit) : (decodeLoop fuel s).Ends (EmitsWithin s) := by
  induction fuel generalizing s with
  | zero => trivial
  | succ fuel ih =>
    cases hr : s.restBits with
    | nil =>
      rw [decodeLoop_eod fuel s hr]
      have hpos := inLimit_toNat hs
      exact emitsWithin_walked (hp.trans_eq hpos.symm) hpos.le
    | cons b rest =>
      have hlen := restBits_length s
      rw [hr, List.length_cons] at hlen
      have hpos : (s.inPos + BitVec.ofNat 64 1).toNat = s.inPos.toNat + 1 :=
        inPos_add_toNat hs Nat.one_pos (by rw [hr]; exact Nat.le_add_left 1 _)
      have hturn : ∀ bits cur, bits.length ≤ 8 →
          EmitsWithin s ((s.appendBits bits).walked cur (s.inPos + BitVec.ofNat 64 1)) := fun bits cur hb =>
        emitsWithin_appendBits_walked (by omega) (by omega) (by omega)
      have hdescend : ∀ cur, EmitsWithin s (s.walked cur (s.inPos + BitVec.ofNat 64 1)) := fun cur =>
        emitsWithin_walked (by omega) (by omega)
      have hrest : ∀ {t}, EmitsWithin s t → (decodeLoop fuel t).Ends (EmitsWithin s) := fun {t} h =>
        (ih (by rw [h.inBytes]; exact hs) (h.cursor_le.trans_eq h.inLimit.symm)).mono fun _ => h.trans
      obtain he | ⟨c, he⟩ | ⟨c, he⟩ | ⟨v, he⟩ := decodeLoop_bit_cases fuel hr
      · rw [he]; trivial
      · rw [he]; exact hdescend c
      · rw [he]; exact hrest (hdescend c)
      · rw [he]; exact hrest (hturn _ _ (bitsOf_length 8 v).le)

theorem runReadBody_emitsWithin {s : State} (hs : s.inBytes.length < Config.streamLimit)
    (hp : s.inPos.toNat ≤ s.inLimit) : (runReadBody s).Ends (EmitsWithin s) := by
  have hself : ∀ cur, EmitsWithin s (s.walked cur s.inPos) := fun _ => emitsWithin_walked le_rfl hp
  unfold runReadBody
  refine Run.Ends.andThen (require_ends (hself s.cur)) fun _ t h => ?_
  obtain ⟨-, rfl⟩ := require_ok h
  refine Run.Ends.andThen (require_ends (hself t.cur)) fun _ t h => ?_
  obtain ⟨-, rfl⟩ := require_ok h
  exact (decodeLoop_emitsWithin _ (s := t.walked t.root t.inPos) hs hp).mono fun _ => (hself t.root).trans

/-- Settles O32: each turn of the loop keeps the bound, and a completion writes neither the cursor nor the output. -/
theorem readBodyOutputBound : Obligations.ReadBodyOutputBound := by
  intro s t hs hp hexec
  obtain ⟨u, hu, hend⟩ := exec_ends (i := .readBody) (runReadBody_emitsWithin hs hp) hexec
  have hbound : u.outBits.length ≤ s.outBits.length + 8 * (u.inPos.toNat - s.inPos.toNat) := by
    have := hu.inPos_le
    have := hu.outBits_le
    omega
  obtain rfl | ⟨e, rfl⟩ := hend <;> exact ⟨hu.inPos_le, hu.cursor_le, hbound⟩

end Sys2Proof.Machine
end

section
/-! PROOF. O38, O39: a line's step is its command's Exec with the control fields of a completion (R94, R105), and no Exec reads those
fields, so that the lines of a sequence run as `runAll` runs their Execs; after a raise the other lines are rejected (R103). -/

namespace Sys2Proof.Machine

/-! Execs do not read the control fields. -/

theorem runAll_withCtl (fs : List (State → Run Unit)) (hf : ∀ f ∈ fs, ∀ s c, f (State.withCtl s c) = (f s).withCtl c)
    (s : State) (c : Ctl) : runAll fs (s.withCtl c) = (runAll fs s).withCtl c := by
  induction fs generalizing s with
  | nil => rfl
  | cons f fs ih =>
    exact andThen_withCtl (hf f List.mem_cons_self s c) fun _ t => ih (fun g hg => hf g (List.mem_cons_of_mem f hg)) t

theorem primitive_run_withCtl {i : Instr} (hp : i.composite = false) (s : State) (c : Ctl) :
    runOf i (s.withCtl c) = (runOf i s).withCtl c := by
  cases i with
  | nop => rfl
  | count => exact runCount_withCtl s c
  | build => exact runBuild_withCtl s c
  | derive => exact runDerive_withCtl s c
  | writeMagic => exact runWriteMagic_withCtl s c
  | writeHeader => exact runWriteHeader_withCtl s c
  | writeBody => exact runWriteBody_withCtl s c
  | rewind => rfl
  | close => exact runClose_withCtl s c
  | checkMagic => exact runCheckMagic_withCtl s c
  | readHeader => exact runReadHeader_withCtl s c
  | readBody => exact runReadBody_withCtl s c
  | clearErr => rfl
  | compress => cases hp
  | decompress => cases hp

/-- The Execs of a list of primitive commands do not read them either. -/
theorem runAll_runOf_withCtl {l : List Instr} (hl : ∀ j ∈ l, j.composite = false) (s : State) (c : Ctl) :
    runAll (l.map runOf) (s.withCtl c) = (runAll (l.map runOf) s).withCtl c :=
  runAll_withCtl _ (List.forall_mem_map.2 fun j hj => primitive_run_withCtl (hl j hj)) s c

/-! One line (R94, R105). -/

/-- The control fields after a completion: DONE is 1 exactly when the Exec did not raise (R105, R107). -/
def Ctl.idle (done : Bool) (ts : List Turn) : Ctl := { busy := false, pending := none, done := done, turns := ts }

/-- How a line on an idle block ends, given how its command's Exec ends. -/
def lineEnd (ts : List Turn) : Run Unit → Host.Outcome State Fault Refusal
  | .ok _ t => .next (t.withCtl (.idle true ts))
  | .raise e t => .next (State.enterError e (t.withCtl (.idle false ts)))
  | .fault f => .fault f
  | .refuse q => .refused q

/-- A command whose Exec does not read the control fields. -/
theorem step_lineOf {s : State} {i : Instr} {ts : List Turn} (hb : s.busy = false) (he : s.err = false)
    (hc : ∀ c, runOf i (s.withCtl c) = (runOf i s).withCtl c) :
    step { s with turns := lineOf i :: ts } = lineEnd ts (runOf i s) := by
  have hacc : State.accept i { s with turns := ts } =
      s.withCtl { busy := true, pending := some i, done := false, turns := ts } := rfl
  rw [step_line_accept (s := { s with turns := lineOf i :: ts }) rfl hb (.inl he) (decode_encode i), exec_eq_complete]
  change complete (runOf i (State.accept i { s with turns := ts })) = _
  rw [hacc, hc]
  cases runOf i s <;> rfl

/-! The lines of a sequence. -/

theorem core_run_succ {M : Host.Core} {s t : M.State} (h : M.step s = .next t) (n : Nat) : M.run (n + 1) s = M.run n t := by
  rw [Host.Core.run, h]

/-- A run of the machine, its first step taken. -/
theorem run_succ_of_step {s t : State} (h : step s = .next t) (n : Nat) :
    Sys2Proof.core.run (n + 1) s = Sys2Proof.core.run n t :=
  core_run_succ (M := Sys2Proof.core) h n

theorem encode_ne_clearErrWord {i : Instr} (hi : i ≠ .clearErr) : encode i ≠ clearErrWord := fun h =>
  hi (Except.ok.inj ((decode_encode i).symm.trans (h ▸ decode_clearErrWord)))

/-- While ERR is 1 the lines are rejected one after another (R103). -/
theorem run_rejectedLines {l : List Instr} (hl : ∀ j ∈ l, j ≠ .clearErr) {s : State} (hb : s.busy = false)
    (he : s.err = true) :
    ∃ b, Sys2Proof.core.run l.length { s with turns := l.map lineOf } = .next { s with turns := [], cmdRej := b } := by
  induction l generalizing s with
  | nil => exact ⟨s.cmdRej, rfl⟩
  | cons j l ih =>
    have hstep : step { s with turns := (j :: l).map lineOf } = .next { s with turns := l.map lineOf, cmdRej := true } :=
      step_line_reject (s := { s with turns := (j :: l).map lineOf }) rfl hb he
        (encode_ne_clearErrWord (hl j List.mem_cons_self))
    obtain ⟨b, hrun⟩ := ih (fun k hk => hl k (List.mem_cons_of_mem j hk)) (s := { s with cmdRej := true }) hb he
    exact ⟨b, (run_succ_of_step hstep l.length).trans hrun⟩

/-- The outcome `o` of some lines is that of one line whose Exec ends as `r`, but for CMD_REJ after a raise. It says nothing where
`r` stops the model: a composite's line has no next state there. -/
def EndsAsLine (r : Run Unit) (o : Host.Outcome State Fault Refusal) : Prop :=
  match r with
  | .ok _ t => o = .next (t.withCtl (.idle true []))
  | .raise e t => ∃ b, o = .next { State.enterError e (t.withCtl (.idle false [])) with cmdRej := b }
  | .fault _ => True
  | .refuse _ => True

/-- The control fields of the state a run ends in do not matter to it. -/
theorem endsAsLine_withCtl {r : Run Unit} {c : Ctl} {o : Host.Outcome State Fault Refusal} (h : EndsAsLine (r.withCtl c) o) :
    EndsAsLine r o := by
  cases r <;> exact h

/-- One line and then the lines of `l`, given how those end on the state that the first leaves. -/
theorem endsAsLine_cons {j : Instr} {l : List Instr} (hp : j.composite = false) (hi : j ≠ .clearErr)
    (hl : ∀ k ∈ l, k ≠ .clearErr) {s : State} (hb : s.busy = false) (he : s.err = false)
    (h : ∀ t : State, t.err = false →
      EndsAsLine (runAll (l.map runOf) t) (Sys2Proof.core.run l.length (t.withCtl (.idle true (l.map lineOf))))) :
    EndsAsLine (runAll ((j :: l).map runOf) s)
      (Sys2Proof.core.run (l.length + 1) { s with turns := (j :: l).map lineOf }) := by
  have hstep : step { s with turns := (j :: l).map lineOf } = lineEnd (l.map lineOf) (runOf j s) :=
    step_lineOf hb he (primitive_run_withCtl hp s)
  have hk := primitive_run_keeps hp hi s
  rw [List.map_cons, runAll]
  cases hr : runOf j s with
  | ok a t =>
    rw [hr] at hk hstep
    rw [run_succ_of_step hstep]
    exact h t (hk.err.trans he)
  | raise e t =>
    rw [hr] at hstep
    rw [run_succ_of_step hstep]
    exact run_rejectedLines hl (s := State.enterError e (t.withCtl (.idle false (l.map lineOf)))) rfl rfl
  | fault f => trivial
  | refuse q => trivial

/-- The lines of primitive commands, none of them CLEAR_ERR, after a line that did not raise. -/
theorem run_linesAfter {l : List Instr} (hl : ∀ k ∈ l, k.composite = false ∧ k ≠ .clearErr) {t : State} (he : t.err = false) :
    EndsAsLine (runAll (l.map runOf) t) (Sys2Proof.core.run l.length (t.withCtl (.idle true (l.map lineOf)))) := by
  induction l generalizing t with
  | nil => exact rfl
  | cons k l ih =>
    obtain ⟨⟨hp, hi⟩, hl'⟩ := List.forall_mem_cons.1 hl
    refine endsAsLine_withCtl (c := .idle true ((k :: l).map lineOf)) ?_
    rw [← runAll_runOf_withCtl fun k hk => (hl k hk).1]
    exact endsAsLine_cons hp hi (fun k hk => (hl' k hk).2) rfl he fun _ => ih hl'

/-- The lines of primitive commands, none of them CLEAR_ERR, run as their Execs one after another. -/
theorem run_lines {j : Instr} {l : List Instr} (hl : ∀ k ∈ j :: l, k.composite = false ∧ k ≠ .clearErr) {s : State}
    (hb : s.busy = false) (he : s.err = false) :
    EndsAsLine (runAll ((j :: l).map runOf) s)
      (Sys2Proof.core.run (l.length + 1) { s with turns := (j :: l).map lineOf }) := by
  obtain ⟨⟨hp, hi⟩, hl'⟩ := List.forall_mem_cons.1 hl
  exact endsAsLine_cons hp hi (fun k hk => (hl' k hk).2) hb he fun _ => run_linesAfter hl'

/-- A composite's line and the lines of the commands it runs (R95, R167, R168). -/
theorem seq_endsAs_composite {i j : Instr} {l : List Instr} (hl : ∀ k ∈ j :: l, k.composite = false ∧ k ≠ .clearErr)
    {s t : State} (hrun : ∀ s, s.outClosed = false → runOf i s = runAll ((j :: l).map runOf) s) (hb : s.busy = false) (he : s.err = false)
    (ho : s.outClosed = false) (h : step { s with turns := [lineOf i] } = .next t) :
    ∃ u, Sys2Proof.core.run (l.length + 1) { s with turns := (j :: l).map lineOf } = .next u ∧
      t = { u with cmdRej := t.cmdRej } ∧ (t.err = false → u = t) := by
  have hc : ∀ c, runOf i (s.withCtl c) = (runOf i s).withCtl c := fun c => by
    rw [hrun s ho, hrun (s.withCtl c) ho]
    exact runAll_runOf_withCtl (fun k hk => (hl k hk).1) s c
  have hlines := run_lines hl hb he
  rw [step_lineOf hb he hc, hrun s ho] at h
  cases hr : runAll ((j :: l).map runOf) s with
  | ok a v =>
    rw [hr] at h hlines
    obtain rfl := Host.Outcome.next.inj h
    exact ⟨_, hlines, rfl, fun _ => rfl⟩
  | raise e v =>
    rw [hr] at h hlines
    obtain rfl := Host.Outcome.next.inj h
    obtain ⟨b, hlines⟩ := hlines
    exact ⟨_, hlines, rfl, fun herr => by cases herr⟩
  | fault f => rw [hr] at h; cases h
  | refuse q => rw [hr] at h; cases h

/-! Composites on an open output (R167, R168). -/

theorem require_andThen_ok {p : Bool} {e : ErrorReg} {s : State} {k : Unit → State → Run Unit} (h : p = true) :
    (require p e s).andThen k = k () s := by
  rw [require, if_pos h]
  rfl

theorem runCompress_open {s : State} (ho : s.outClosed = false) : runCompress s = runAll (compressSeqInstrs.map runOf) s :=
  require_andThen_ok (congrArg not ho)

theorem runDecompress_open {s : State} (ho : s.outClosed = false) : runDecompress s = runAll (decompressSeqInstrs.map runOf) s :=
  require_andThen_ok (congrArg not ho)

/-- Settles O38: COMPRESS runs the Execs of the nine lines. -/
theorem compressSeqEndsAsCompress : Obligations.CompressSeqEndsAsCompress := fun _ _ hb he ho =>
  seq_endsAs_composite (i := .compress) (fun k hk => seqInstrs_primitive k (List.mem_append_left _ hk))
    (fun _ => runCompress_open) hb he ho

/-- Settles O39: DECOMPRESS runs the Execs of the five lines. -/
theorem decompressSeqEndsAsDecompress : Obligations.DecompressSeqEndsAsDecompress := fun _ _ hb he ho =>
  seq_endsAs_composite (i := .decompress) (fun k hk => seqInstrs_primitive k (List.mem_append_right _ hk))
    (fun _ => runDecompress_open) hb he ho

end Sys2Proof.Machine
end

section
/-! PROOF. O13, O14, O35, O59: REWIND and CLOSE (R165, R166), DECOMPRESS of a stream without the tag (R170), and why no command
reopens the output (R207). -/

namespace Sys2Proof.Machine

/-- Settles O13: REWIND's Exec writes the cursor alone. -/
theorem rewindCompletes : Obligations.RewindCompletes := fun s => exec_of_ok (i := .rewind) (s := s) rfl

/-! CLOSE (R65, R166). -/

/-- The pad ends on a byte boundary (R93). -/
theorem padBits_fills (n : Nat) : (n + (padBits n).length) % 8 = 0 := by
  rw [padBits, List.length_replicate]
  omega

theorem padBits_length_lt (n : Nat) : (padBits n).length < 8 := by
  rw [padBits, List.length_replicate]
  omega

/-- Bits that end on a byte boundary leave no partial byte. -/
theorem packBits_whole {s : State} {c : BitStr} (hp : s.pend.length < 8) (hc : (s.pend.length + c.length) % 8 = 0) :
    (packBits s.outBytes s.pend c).2 = [] := by
  obtain ⟨-, hbits, hlt⟩ := packBits_emits hp c
  have hlen := congrArg List.length hbits
  simp only [List.length_append, bytesBits_length, outBits_length] at hlen
  exact List.length_eq_zero_iff.1 (by omega)

/-- The pad depends on the bits in the last byte alone. -/
theorem padBits_congr {n m : Nat} (h : n % 8 = m % 8) : padBits n = padBits m := by
  rw [padBits, padBits, h]

/-- Bits and the pad that a CLOSE after them writes. -/
def State.padded (s : State) (c : BitStr) : BitStr := c ++ padBits (s.pend.length + c.length)

/-- What a CLOSE leaves after the bits `c` (R65). -/
def State.closedAfter (s : State) (c : BitStr) : State :=
  { s with
    outBytes := (packBits s.outBytes s.pend (s.padded c)).1, pend := []
    outPos := s.outPos + BitVec.ofNat 64 (s.padded c).length, outClosed := true
    outCloses := s.outCloses ++ [(packBits s.outBytes s.pend (s.padded c)).1.length] }

theorem packBits_padded {s : State} (hp : s.pend.length < 8) (c : BitStr) :
    (packBits s.outBytes s.pend (s.padded c)).2 = [] := by
  refine packBits_whole hp ?_
  have hpad := padBits_fills (s.pend.length + c.length)
  rw [State.padded, List.length_append]
  omega

theorem closedAfter_emits {s : State} (hp : s.pend.length < 8) (c : BitStr) :
    s.Emits (s.padded c) (s.closedAfter c).outBytes [] := by
  have h := packBits_emits hp (s.padded c)
  rwa [packBits_padded hp] at h

/-- CLOSE after a command that appended `c`. -/
theorem runClose_appendBits {s : State} (ho : s.outClosed = false) (hp : s.pend.length < 8) (c : BitStr) :
    runClose (s.appendBits c) = .ok () (s.closedAfter c) := by
  have hlen := congrArg List.length (appendBits_outBits c s)
  rw [List.length_append, outBits_length, outBits_length] at hlen
  have hpad : padBits (s.appendBits c).pend.length = padBits (s.pend.length + c.length) := padBits_congr (by omega)
  have hopen : (s.appendBits c).outClosed = false := by rw [appendBits_eq]; exact ho
  have hwhole : (packBits s.outBytes s.pend (c ++ padBits (s.pend.length + c.length))).2 = [] := packBits_padded hp c
  rw [runClose_ok hopen (appendBits_pend_lt hp), hpad, ← appendBits_append, appendBits_packed, appendBits_packed, hwhole]
  rfl

/-- Settles O14: nothing precedes the pad, and it is empty when there is no partial byte. -/
theorem closePadsAndCloses : Obligations.ClosePadsAndCloses := by
  intro s ho hp
  have hrun := runClose_appendBits ho hp []
  rw [appendBits_nil] at hrun
  refine ⟨_, exec_of_ok (i := .close) hrun, closedAfter_emits hp [], fun h => ?_⟩
  have hpad : s.padded [] = [] := by
    rw [State.padded, h]
    rfl
  change (packBits s.outBytes s.pend (s.padded [])).1 = s.outBytes
  rw [hpad]
  rfl

/-! DECOMPRESS without the tag (R170). -/

/-- DECOMPRESS rewinds and then raises what CHECK_MAGIC raises. -/
theorem exec_decompress_of_checkMagic_raise {s t : State} {e : ErrorReg} (ho : s.outClosed = false)
    (h : runCheckMagic s.rewind = .raise e t) : exec .decompress s = .next (t.enterError e) := by
  refine exec_of_raise (i := .decompress) ((runDecompress_open ho).trans ?_)
  change (runCheckMagic s.rewind).andThen _ = _
  rw [h]
  rfl

theorem rewind_restBits (s : State) : s.rewind.restBits = bytesBits s.inBytes := List.drop_zero

/-- Settles O35, by the two raises of CHECK_MAGIC. -/
theorem decompressRejectsAWrongTag : Obligations.DecompressRejectsAWrongTag := by
  intro s ho
  have hlen : s.rewind.restBits.length = 8 * s.inBytes.length := by rw [rewind_restBits, bytesBits_length]
  refine ⟨fun h4 htag => ?_, fun h4 => ?_⟩
  · exact exec_decompress_of_checkMagic_raise ho
      (runCheckMagic_otherTag (by omega) (by rw [rewind_restBits]; exact htag))
  · exact exec_decompress_of_checkMagic_raise ho (runCheckMagic_short (by omega))

/-! OUT_CLOSED (R26, R207). -/

/-- A closed output stays closed. -/
def StaysClosed (s t : State) : Prop := s.outClosed = true → t.outClosed = true

theorem KeepsOpen.staysClosed {s t : State} (h : KeepsOpen s t) : StaysClosed s t := fun hc => h.outClosed.trans hc

/-- The only primitive command that closes the output is CLOSE. -/
theorem primitive_run_keepsOpen {i : Instr} (hp : i.composite = false) (hi : i ∉ [Instr.clearErr, .close]) (s : State) :
    (runOf i s).Ends (KeepsOpen s) := by
  cases i with
  | nop => exact KeepsOpen.refl s
  | count => exact runCount_keeps s
  | build => exact runBuild_keeps s
  | derive => exact runDerive_keeps s
  | writeMagic => exact runWriteMagic_keeps s
  | writeHeader => exact runWriteHeader_keeps s
  | writeBody => exact runWriteBody_keeps s
  | rewind => exact runRewind_keeps s
  | close => exact absurd (by decide) hi
  | checkMagic => exact runCheckMagic_keeps s
  | readHeader => exact runReadHeader_keeps s
  | readBody => exact runReadBody_keeps s
  | clearErr => exact absurd (by decide) hi
  | compress => cases hp
  | decompress => cases hp

theorem runClose_staysClosed (s : State) : (runClose s).Ends (StaysClosed s) := by
  refine (runClose_ends s).mono fun t h => ?_
  obtain rfl | ⟨b, rfl⟩ := h
  · exact id
  · exact fun _ => rfl

theorem primitive_run_staysClosed {i : Instr} (hp : i.composite = false) (s : State) :
    (runOf i s).Ends (StaysClosed s) := by
  by_cases hi : i ∈ [Instr.clearErr, .close]
  · obtain rfl | rfl : i = .clearErr ∨ i = .close := by simpa using hi
    · exact id
    · exact runClose_staysClosed s
  · exact (primitive_run_keepsOpen hp hi s).mono fun _ => KeepsOpen.staysClosed

theorem run_staysClosed (i : Instr) (s : State) : (runOf i s).Ends (StaysClosed s) := by
  have htrans : ∀ {s t u}, StaysClosed s t → StaysClosed t u → StaysClosed s u := fun h k hc => k (h hc)
  have hseq : ∀ j ∈ compressSeqInstrs ++ decompressSeqInstrs, ∀ s, (runOf j s).Ends (StaysClosed s) := fun j hj =>
    primitive_run_staysClosed (seqInstrs_primitive j hj).1
  cases hp : i.composite with
  | false => exact primitive_run_staysClosed hp s
  | true =>
    cases i with
    | compress =>
      exact runCompress_ends (R := StaysClosed) (fun _ => id) htrans (fun j hj => hseq j (List.mem_append_left _ hj)) s
    | decompress =>
      exact runDecompress_ends (R := StaysClosed) (fun _ => id) htrans (fun j hj => hseq j (List.mem_append_right _ hj)) s
    | _ => cases hp

theorem exec_staysClosed {i : Instr} {s t : State} (h : exec i s = .next t) : StaysClosed s t := by
  obtain ⟨u, hu, rfl | ⟨e, rfl⟩⟩ := exec_ends (run_staysClosed i s) h
  · exact hu
  · exact hu

theorem issue_outClosed (w : Word) (s : State) : (s.issue w).outClosed = s.outClosed := by
  obtain ⟨-, hu⟩ | ⟨-, -, ⟨r, -, hu⟩ | ⟨i, -, hu⟩⟩ := issue_cases w s
  all_goals
    rw [hu]
    rfl

/-- Settles O59: of a step's moves only a reset reopens the output. -/
theorem outputReopensOnlyByReset : Obligations.OutputReopensOnlyByReset := by
  intro s t h hs ht
  have hissue : ∀ w ts b, (State.issue w { s with turns := ts, busLog := b }).outClosed = true := fun w ts b =>
    (issue_outClosed w _).trans hs
  have hopen : ¬ t.outClosed = true := Bool.eq_false_iff.1 ht
  cases step_move h with
  | quiet ts b d => exact absurd hs hopen
  | issued w ts b => exact absurd (hissue w ts b) hopen
  | acked w ts b => exact absurd hs hopen
  | enabled w ts b => exact absurd hs hopen
  | completed ts hb hp he => exact absurd (exec_staysClosed he hs) hopen
  | lineCompleted w ts _ hu hb hp he =>
    subst hu
    exact absurd (exec_staysClosed he (hissue w ts s.busLog)) hopen
  | reset w ts hts hr =>
    obtain hts | ⟨hts, hw⟩ := hts
    · exact .inl ⟨ts, hts⟩
    · exact .inr ⟨w, ts, hts, hw⟩

end Sys2Proof.Machine
end

section
/-! PROOF. O33: COMPRESS in three parts: the commands that make the tables (R115, R116, R130), those that write the stream from them
(R140, R141, R133), and CLOSE (R166). -/

namespace Sys2Proof.Machine

/-! The tables (R38, R122, R132). -/

/-- The state after COUNT of the data symbols `cs`, its cursor at the end of the input (R115). -/
def State.counted (s : State) (cs : List Sym) : State :=
  { s with
    freq := countTable cs, freqTotal := BitVec.ofNat 32 cs.length, inPos := BitVec.ofNat 64 s.inLimit
    freqValid := true, treeValid := false, codesValid := false }

/-- The state after BUILD and DERIVE (R116, R130). -/
def State.derived (s : State) (nodes : NodeStore) (root count : BitVec 10) (code : CodeTable) : State :=
  { s with
    node := nodes, root := root, nodeCount := count, code := code, treeSrc := false, treeValid := true, codesValid := true }

/-- The state of COMPRESS when its tables are made of the whole input. -/
def State.tabled (s : State) (nodes : NodeStore) (root count : BitVec 10) (code : CodeTable) : State :=
  (s.counted (dataSyms s.inBytes)).derived nodes root count code

/-- COUNT's table over data symbols, and their number, are a FREQ table with its total (R38). -/
theorem freqOk_counted {s : State} {cs : List Sym} (hl : cs.length ≤ Config.maxInput) (he : Config.eos ∉ cs) :
    FreqOk (s.counted cs) := by
  have hlt : cs.length < 2 ^ 32 := hl.trans_lt (by decide)
  have hn : (s.counted cs).freqTotal.toNat = cs.length := (BitVec.toNat_ofNat _ _).trans (Nat.mod_eq_of_lt hlt)
  exact ⟨countTable_eos cs, hn ▸ countTable_total hlt he, hn.trans_le hl⟩

theorem mem_positives_countTable {cs : List Sym} {c : Sym} (hl : cs.length ≤ Config.maxInput) (he : Config.eos ∉ cs)
    (hc : c ∈ cs) : c ∈ positives (countTable cs) := by
  have hlt : cs.length < 2 ^ 32 := hl.trans_lt (by decide)
  have hcount := List.count_pos_iff.2 hc
  rw [← countTable_get hlt fun h => he (h ▸ hc)] at hcount
  exact mem_positives.2 (BitVec.lt_def.2 hcount)

/-- A symbol that labels a leaf of a tree with an internal root and distinct leaf symbols has a code (R131, R132). -/
theorem Tree.walk_ne_nil {tr : Tree} (hn : tr.isNode = true) (hd : tr.syms.Nodup) {c : Sym} (hc : c ∈ tr.syms) :
    (tr.walk [] noCodes)[c] ≠ [] := by
  obtain ⟨⟨v, q⟩, hq, rfl⟩ := List.mem_map.1 hc
  rw [tr.derive_get, lastPath_of_nodup hd hq]
  exact Tree.path_ne_nil hn hq

/-- What the tables are when a stream of the data symbols `cs` is written from them (R85). -/
structure ReadyToWrite (s : State) (tr : Tree) (cs : List Sym) : Prop where
  freqOk : FreqOk s
  validTree : ValidTree s
  codesOk : CodesOk s
  tree : s.tree = .ok tr
  codes : ∀ c ∈ cs, s.code[c] ≠ []
  eosCode : s.code[Config.eos] ≠ []

/-- BUILD and DERIVE after COUNT (R116, R130). -/
theorem runAll_build_derive (s : State) {cs : List Sym} (hl : cs.length ≤ Config.maxInput) (he : Config.eos ∉ cs) :
    ∃ nodes root count code tr, runAll [runBuild, runDerive] (s.counted cs) =
        .ok () ((s.counted cs).derived nodes root count code) ∧
      ReadyToWrite ((s.counted cs).derived nodes root count code) tr cs := by
  have hF := freqOk_counted (s := s) hl he
  obtain ⟨nodes, root, count, tr, hbuild, hstored, hroot, hn, hperm, hcap, hnodup, hsyms⟩ := runBuild_ok rfl hF
  have htree : treeAt nodes Config.nodeCap root.toNat = .ok tr := by
    rw [← hroot]
    exact treeAt_of_stored hstored (by rw [hperm.length_eq, List.length_range]; exact hcap)
  have hderive := runDerive_ok (tr := tr) (s := { s.counted cs with
    node := nodes, root := root, nodeCount := count, treeSrc := false, treeValid := true, codesValid := false }) rfl htree
  refine ⟨nodes, root, count, tr.walk [] noCodes, tr, ?_, ?_⟩
  · rw [runAll, hbuild, Run.andThen, runAll, hderive]
    rfl
  · exact {
      freqOk := hF.congr rfl rfl
      validTree := .of_stored hstored hroot hn hperm hcap
      codesOk := ⟨tr, htree, rfl⟩
      tree := htree
      codes := fun c hc => Tree.walk_ne_nil hn hnodup (hsyms c (mem_positives_countTable hl he hc))
      eosCode := Tree.walk_ne_nil hn hnodup (hsyms _ (eos_positive hF)) }

theorem dataSyms_length (bytes : List Byte) : (dataSyms bytes).length = bytes.length := List.length_map _

theorem eos_not_mem_dataSyms (bytes : List Byte) : Config.eos ∉ dataSyms bytes := by
  rw [← byteFields_bytesBits]
  exact eos_not_mem_byteFields _

theorem stream_fits_of_maxInput {n : Nat} (h : n ≤ Config.maxInput) : n < Config.streamLimit := h.trans_lt (by decide)

/-- The first four commands: the whole input is counted (R115), and the tree and the codes are made of it. -/
theorem runAll_tables {s : State} (hl : s.inBytes.length ≤ Config.maxInput) :
    ∃ nodes root count code tr,
      runAll ([Instr.rewind, .count, .build, .derive].map runOf) s =
        .ok () (s.tabled nodes root count code) ∧
      ReadyToWrite (s.tabled nodes root count code) tr (dataSyms s.inBytes) := by
  have hfields : byteFields s.rewind.restBits = dataSyms s.inBytes := by rw [rewind_restBits, byteFields_bytesBits]
  have hlen := (dataSyms_length s.inBytes).trans_le hl
  have hcount := runCount_ok (s := s.rewind) (stream_fits_of_maxInput hl) (by rw [hfields]; exact hlen)
  rw [hfields] at hcount
  obtain ⟨nodes, root, count, code, tr, hrun, hready⟩ := runAll_build_derive s hlen (eos_not_mem_dataSyms _)
  refine ⟨nodes, root, count, code, tr, ?_, hready⟩
  change (runCount s.rewind).andThen (fun _ t => runAll [runBuild, runDerive] t) = _
  rw [hcount]
  exact hrun

/-! The stream (R85). -/

/-- Tag, header and body, without the pad (R85). -/
def codedBits (magic : Word) (tr : Tree) (code : CodeTable) (data : List Sym) : BitStr :=
  bitsOf 32 magic.toNat ++ tr.headerBits ++ codesBits code data ++ code[Config.eos]

/-- The next four commands write the tag, the header and the codes of the whole input. -/
theorem runAll_stream {s : State} {tr : Tree} (ho : s.outClosed = false) (hs : s.inBytes.length < Config.streamLimit)
    (hv : s.treeValid = true) (hcv : s.codesValid = true) (h : ReadyToWrite s tr (dataSyms s.inBytes)) :
    runAll ([Instr.writeMagic, .writeHeader, .rewind, .writeBody].map runOf) s =
      .ok () ((s.walked s.cur (BitVec.ofNat 64 s.inLimit)).appendBits (codedBits s.magic tr s.code (dataSyms s.inBytes))) := by
  have hopen : ∀ c, (s.appendBits c).outClosed = false := fun c => by rw [appendBits_eq]; exact ho
  have htv : ∀ c, (s.appendBits c).treeValid = true := fun c => by rw [appendBits_eq]; exact hv
  have htree : ∀ c, (s.appendBits c).tree = .ok tr := fun c => by
    rw [State.tree, appendBits_node, appendBits_root]
    exact h.tree
  have hheader := runWriteHeader_ok (htv (bitsOf 32 s.magic.toNat)) (hopen _) (htree _)
  rw [← appendBits_append] at hheader
  generalize hc : bitsOf 32 s.magic.toNat ++ tr.headerBits = c at hheader
  have hrewind : (s.appendBits c).rewind = (s.walked s.cur 0).appendBits c := by
    rw [appendBits_walked, ← appendBits_cur c s]
    rfl
  have hcode : ((s.walked s.cur 0).appendBits c).code = s.code := appendBits_code _ _
  have hlim : ((s.walked s.cur 0).appendBits c).inLimit = s.inLimit := congrArg (8 * List.length ·) (appendBits_inBytes _ _)
  have hrest : byteFields ((s.walked s.cur 0).appendBits c).restBits = dataSyms s.inBytes := by
    rw [appendBits_restBits, walked_restBits]
    exact byteFields_bytesBits _
  have hbody := runWriteBody_ok (s := (s.walked s.cur 0).appendBits c) (by rw [appendBits_eq]; exact hcv)
    (by rw [appendBits_eq]; exact ho) (by rw [appendBits_inBytes]; exact hs) (by rw [hrest, hcode]; exact h.codes)
    (by rw [hcode]; exact h.eosCode)
  rw [hrest, hcode, hlim, ← appendBits_walked, walked_walked, appendBits_cur, walked_cur, ← appendBits_append] at hbody
  change (runWriteMagic s).andThen (fun _ t => (runWriteHeader t).andThen fun _ u => (runWriteBody u.rewind).andThen _) = _
  rw [runWriteMagic_ok ho, Run.andThen, hheader, Run.andThen, hrewind, hbody, ← hc, codedBits]
  simp only [List.append_assoc]
  rfl

/-- COMPRESS of an input that COUNT accepts (R167). -/
theorem runCompress_ok {s : State} (ho : s.outClosed = false) (hp : s.pend.length < 8)
    (hl : s.inBytes.length ≤ Config.maxInput) :
    ∃ nodes root count code tr,
      runCompress s =
        .ok () ((s.tabled nodes root count code).closedAfter (codedBits s.magic tr code (dataSyms s.inBytes))) ∧
      ReadyToWrite (s.tabled nodes root count code) tr (dataSyms s.inBytes) := by
  obtain ⟨nodes, root, count, code, tr, htables, hready⟩ := runAll_tables hl
  refine ⟨nodes, root, count, code, tr, ?_, hready⟩
  have hstream : runAll ([Instr.writeMagic, .writeHeader, .rewind, .writeBody].map runOf) (s.tabled nodes root count code) =
      .ok () ((s.tabled nodes root count code).appendBits (codedBits s.magic tr code (dataSyms s.inBytes))) :=
    runAll_stream (s := s.tabled nodes root count code) ho (stream_fits_of_maxInput hl) rfl rfl hready
  have hclose := runClose_appendBits (s := s.tabled nodes root count code) ho hp
    (codedBits s.magic tr code (dataSyms s.inBytes))
  rw [runCompress_open ho]
  change runAll ([Instr.rewind, .count, .build, .derive].map runOf ++
    ([Instr.writeMagic, .writeHeader, .rewind, .writeBody].map runOf ++ [runClose])) s = _
  rw [runAll_append, htables, Run.andThen, runAll_append, hstream, Run.andThen, runAll, hclose]
  rfl

/-- Settles O33: the tables are made, the stream is written from them, and CLOSE pads it. -/
theorem compressWritesTheStream : Obligations.CompressWritesTheStream := by
  intro s ho hp hl
  obtain ⟨nodes, root, count, code, tr, hrun, hready⟩ := runCompress_ok ho hp hl
  have hbits : s.padded (codedBits s.magic tr code (dataSyms s.inBytes)) =
      bitsOf 32 s.magic.toNat ++ tr.headerBits ++ codesBits code (dataSyms s.inBytes) ++ code[Config.eos] ++
        padBits (s.pend ++ bitsOf 32 s.magic.toNat ++ tr.headerBits ++ codesBits code (dataSyms s.inBytes) ++
          code[Config.eos]).length := by
    simp only [State.padded, codedBits, List.length_append, Nat.add_assoc]
  refine ⟨countTable (dataSyms s.inBytes), nodes, count, root, code, _, tr,
    s.padded (codedBits s.magic tr code (dataSyms s.inBytes)), _, exec_of_ok (i := .compress) hrun, ?_,
    hready.freqOk.congr rfl rfl, hready.validTree.congr rfl rfl rfl, hready.codesOk.congr rfl rfl rfl, hready.tree, hbits,
    hready.codes, hready.eosCode, closedAfter_emits hp _⟩
  rw [← dataSyms_length]
  rfl

end Sys2Proof.Machine
end

section
/-! PROOF. O34: DECOMPRESS command by command on a stream that is a tag, a header and leaf paths (R168): CHECK_MAGIC passes the tag,
READ_HEADER rebuilds the tree (R147), READ_BODY decodes up to EOS (R159), and CLOSE pads the bytes. -/

namespace Sys2Proof.Machine

/-! The tag and the header (R143, R144). -/

/-- The state after CHECK_MAGIC has found the tag. -/
def State.pastTag (s : State) : State := s.walked s.cur 32

/-- On a stream that begins with the tag, DECOMPRESS goes on with the last three commands behind it. -/
theorem runDecompress_tagged {s : State} {rest : BitStr} (ho : s.outClosed = false)
    (h : bytesBits s.inBytes = bitsOf 32 s.magic.toNat ++ rest) :
    runDecompress s = runAll [runReadHeader, runReadBody, runClose] s.pastTag := by
  have hcheck := runCheckMagic_ok (s := s.rewind) (rest := rest) (by rw [rewind_restBits]; exact h)
  rw [runDecompress_open ho]
  change (runCheckMagic s.rewind).andThen (fun _ t => runAll [runReadHeader, runReadBody, runClose] t) = _
  rw [hcheck]
  rfl

theorem pastTag_restBits {s : State} {rest : BitStr} (h : bytesBits s.inBytes = bitsOf 32 s.magic.toNat ++ rest) :
    s.pastTag.restBits = rest := by
  rw [State.pastTag, walked_restBits, h]
  exact List.drop_left' (bitsOf_length _ _)

/-- The state after READ_HEADER has read the header of `tr` into the node store `nodes` (R145). -/
def State.headerRead (s : State) (nodes : NodeStore) (tr : Tree) : State :=
  { s with
    node := nodes, nodeCount := BitVec.ofNat 10 tr.indices.length, root := 0, treeSrc := true, treeValid := true
    codesValid := false, inPos := s.inPos + BitVec.ofNat 64 tr.headerBits.length }

/-- READ_HEADER on a header that fits the store leaves an equal valid tree and the bits after the header (R147). -/
theorem runReadHeader_header {s : State} {tr : Tree} {rest : BitStr} (hs : s.inBytes.length < Config.streamLimit)
    (hn : tr.isNode = true) (hc : tr.indices.length ≤ Config.nodeCap) (h : s.restBits = tr.headerBits ++ rest) :
    ∃ nodes tr', runReadHeader s = .ok () (s.headerRead nodes tr) ∧ ValidTree (s.headerRead nodes tr) ∧
      (s.headerRead nodes tr).tree = .ok tr' ∧ tr'.sameShape tr = true ∧ (s.headerRead nodes tr).restBits = rest := by
  obtain ⟨nodes, -, hrun, -⟩ := runReadHeader_ok hs hn hc h
  obtain ⟨_, tr', t, hexec, -, hvalid, htree, hshape, -⟩ := readHeaderRebuildsTheTree s tr rest hs hn hc h
  obtain rfl : (s.headerRead nodes tr).finishOk = t :=
    Host.Outcome.next.inj ((exec_of_ok (i := .readHeader) hrun).symm.trans hexec)
  exact ⟨nodes, tr', hrun, hvalid.congr rfl rfl rfl, htree, hshape, restBits_after hs h s.node s.nodeCount⟩

/-! The body (R155, R159). -/

/-- READ_BODY over whole paths and EOS's emits the paths' bytes and leaves CUR on EOS's leaf. -/
theorem runReadBody_eos {s : State} {tr : Tree} {items : List (Sym × BitStr)} {e rest : BitStr}
    (h : StartsWithItems s tr items (e ++ rest)) (he : (Config.eos, e) ∈ tr.paths []) :
    ∃ cur : BitVec 10, followBits s.node s.root.toNat e = some cur.toNat ∧
      runReadBody s = .ok () ((s.walked cur (s.inPos + BitVec.ofNat 64 (items.flatMap Prod.snd ++ e).length)).appendBits
        (itemBytes items)) := by
  obtain ⟨n, nd, hf, hnd, hk, hsym⟩ := followBits_path h.tree he
  have heos : nd.sym.toNat = 256 := hsym
  have hn : (BitVec.ofNat 10 n).toNat = n := by
    have hlt : n < 513 := (Vector.getElem?_eq_some_iff.1 hnd).1
    rw [BitVec.toNat_ofNat]
    omega
  have hs : (s.decoded items).inBytes.length < Config.streamLimit := by rw [decoded_inBytes]; exact h.stream_fits
  obtain ⟨k, hrun⟩ := h.runReadBody_eq
  have hfuel : k + 1 + (e ++ rest).length = k + 1 + rest.length + e.length := by rw [List.length_append]; omega
  rw [hfuel, decodeLoop_path e (decoded_node s items) hs (decoded_restBits h.stream_fits h.restBits)
    (Tree.path_ne_nil h.isNode he) hf hnd hk, if_pos heos, decoded_inPos_add] at hrun
  refine ⟨BitVec.ofNat 10 n, hn.symm ▸ hf, ?_⟩
  rw [hrun, appendBits_walked]
  rfl

/-! The bytes it puts (R65, R157). -/

theorem bytesBits_injective : Function.Injective bytesBits := by
  intro a
  induction a with
  | nil =>
    intro b h
    have hlen := congrArg List.length h
    rw [bytesBits_length, bytesBits_length] at hlen
    exact (List.length_eq_zero_iff.1 (by simpa using hlen.symm)).symm
  | cons x a ih =>
    intro b h
    cases b with
    | nil =>
      have hlen := congrArg List.length h
      simp at hlen
    | cons y b =>
      rw [bytesBits_cons, bytesBits_cons] at h
      obtain ⟨hhead, htail⟩ := List.append_inj h (by rw [bitsOf_length, bitsOf_length])
      have huint := congrArg uint hhead
      rw [uint_bitsOf, uint_bitsOf, Nat.mod_eq_of_lt x.isLt, Nat.mod_eq_of_lt y.isLt] at huint
      rw [BitVec.eq_of_toNat_eq huint, ih htail]

/-- The decoded symbols as bytes. -/
theorem itemBytes_eq (items : List (Sym × BitStr)) :
    itemBytes items = bytesBits (items.map fun q => BitVec.ofNat 8 q.1.val) := by
  rw [itemBytes, bytesBits, List.flatMap_map]
  refine congrArg (items.flatMap ·) (funext fun q => ?_)
  rw [BitVec.toNat_ofNat, bitsOf_mod]

/-- Whole bytes leave the pad as it was before them. -/
theorem padded_itemBytes (s : State) (items : List (Sym × BitStr)) :
    s.padded (itemBytes items) = itemBytes items ++ padBits s.pend.length := by
  rw [State.padded, itemBytes_length, padBits_congr (Nat.add_mul_mod_self_left _ 8 items.length)]

/-- From a byte boundary the output is the decoded bytes. -/
theorem closedAfter_itemBytes {s : State} (h : s.pend = []) (items : List (Sym × BitStr)) :
    (s.closedAfter (itemBytes items)).outBytes = s.outBytes ++ items.map fun q => BitVec.ofNat 8 q.1.val := by
  obtain ⟨-, hbits, -⟩ := closedAfter_emits (s := s) (by rw [h]; decide) (itemBytes items)
  have hpad : padBits ([] : BitStr).length = [] := rfl
  generalize (s.closedAfter (itemBytes items)).outBytes = ob at hbits ⊢
  rw [padded_itemBytes, State.outBits, h, hpad, List.append_nil, List.append_nil, List.append_nil, itemBytes_eq,
    ← bytesBits_append] at hbits
  exact bytesBits_injective hbits

/-- Settles O34: the commands one after another; the tree that READ_HEADER rebuilds has the paths of the header's. -/
theorem decompressDecodesTheStream : Obligations.DecompressDecodesTheStream := by
  intro s tr items e rest ho hp hs hn hc hi he hbits
  obtain ⟨nodes, tr', hheader, hvalid, htree, hshape, hrest⟩ :=
    runReadHeader_header (s := s.pastTag) hs hn hc (pastTag_restBits hbits)
  have hpaths := Tree.sameShape_paths hshape
  rw [← hpaths] at hi he
  obtain ⟨cur, hcur, hbody⟩ := runReadBody_eos (s := s.pastTag.headerRead nodes tr)
    ⟨rfl, ho, hs, htree, hvalid.isNode_of_tree htree, hi, hrest⟩ he
  generalize hpos : (s.pastTag.headerRead nodes tr).inPos + BitVec.ofNat 64 (items.flatMap Prod.snd ++ e).length = pos at hbody
  generalize hu : (s.pastTag.headerRead nodes tr).walked cur pos = u at hbody
  have hclose := runClose_appendBits (s := u) (by rw [← hu]; exact ho) (by rw [← hu]; exact hp) (itemBytes items)
  have hrun : runDecompress s = .ok () (u.closedAfter (itemBytes items)) := by
    rw [runDecompress_tagged ho hbits, runAll, hheader, Run.andThen, runAll, hbody, Run.andThen, runAll, hclose]
    rfl
  have hemits := closedAfter_emits hp (itemBytes items)
  rw [padded_itemBytes] at hemits
  have hlast : u.closedAfter (itemBytes items) = { s.pastTag.headerRead nodes tr with
      cur := cur, inPos := pos, outBytes := (s.closedAfter (itemBytes items)).outBytes, pend := []
      outPos := s.outPos + BitVec.ofNat 64 (s.padded (itemBytes items)).length, outClosed := true
      outCloses := s.outCloses ++ [(s.closedAfter (itemBytes items)).outBytes.length] } := by
    rw [← hu]
    rfl
  have hpos' : pos = BitVec.ofNat 64 (32 + tr.headerBits.length + (items.flatMap Prod.snd ++ e).length) := by
    rw [← hpos, BitVec.ofNat_add, BitVec.ofNat_add]
    rfl
  rw [hlast, hpos', padded_itemBytes] at hrun
  exact ⟨nodes, cur, _, _, tr', _, exec_of_ok (i := .decompress) hrun, rfl, rfl, hemits,
    fun h => closedAfter_itemBytes h items, hcur, hvalid.congr rfl rfl rfl, htree, hshape⟩

end Sys2Proof.Machine
end

section
/-! PROOF. O36: a stream that COMPRESS writes is a tag, a header and root-to-leaf paths of its tree, so that DECOMPRESS of it gives
the input back (R169). -/

namespace Sys2Proof.Machine

/-! What COMPRESS writes (R85, R132). -/

/-- The bytes `c` are the stream of the data symbols, written from a byte boundary with the paths of `tr` as codes (R85). -/
structure IsStream (magic : Word) (tr : Tree) (code : CodeTable) (data : List Sym) (c : List Byte) : Prop where
  bits : bytesBits c = codedBits magic tr code data ++ padBits (codedBits magic tr code data).length
  isNode : tr.isNode = true
  nodes_le : tr.indices.length ≤ Config.nodeCap
  paths : ∀ v ∈ data ++ [Config.eos], (v, code[v]) ∈ tr.paths []
  noEos : Config.eos ∉ data
  data_le : data.length ≤ Config.maxInput

/-- A launch at some value of MAGIC (R8, R49). -/
def launchAt (magic : Word) (bytes : List Byte) : State := { State.launch bytes with magic := magic }

theorem exec_compress_launchAt (magic : Word) {bytes : List Byte} (hl : bytes.length ≤ Config.maxInput) :
    ∃ c tr code, exec .compress (launchAt magic bytes) = .next c ∧ c.done = true ∧ c.tree = .ok tr ∧
      IsStream magic tr code (dataSyms bytes) c.outBytes := by
  obtain ⟨fr, nodes, count, root, code, ob, tr, bits, c, hexec, hc, -, hvalid, hcodes, htree, hbits, hdata, heos, -, hemits, -⟩ :=
    compressWritesTheStream (launchAt magic bytes) rfl (Nat.zero_lt_succ 7) hl
  obtain ⟨u, hu, hperm⟩ := hvalid.reaches
  obtain rfl : u = tr := Except.ok.inj (hu.symm.trans htree)
  obtain ⟨u', hu', hpaths⟩ := hcodes.code_mem_paths
  obtain rfl : u' = u := Except.ok.inj (hu'.symm.trans htree)
  have hcode : c.code = code := by rw [hc]
  have hob : c.outBytes = ob := by rw [hc]
  refine ⟨c, u', code, hexec, by rw [hc], htree, ?_⟩
  exact {
    bits := by
      rw [hob, ← List.append_nil (bytesBits ob), hemits, hbits]
      rfl
    isNode := hvalid.isNode_of_tree htree
    nodes_le := by rw [hperm.length_eq, List.length_range]; exact hvalid.count_le
    paths := fun v hv => by
      have hne : code[v] ≠ [] := by
        obtain hv | hv := List.mem_append.1 hv
        · exact hdata v hv
        · rw [List.mem_singleton.1 hv]
          exact heos
      rw [← hcode] at hne ⊢
      exact hpaths v hne
    noEos := eos_not_mem_dataSyms bytes
    data_le := (dataSyms_length bytes).trans_le hl }

/-- The body's leaf paths, those of the data before EOS's (R91). -/
def codeItems (code : CodeTable) (data : List Sym) : List (Sym × BitStr) := data.map fun v => (v, code[v])

theorem codeItems_flatMap (code : CodeTable) (data : List Sym) :
    (codeItems code data).flatMap Prod.snd = codesBits code data := List.flatMap_map _ _ _

section
variable {magic : Word} {tr : Tree} {code : CodeTable} {data : List Sym} {c : List Byte}

theorem IsStream.mem_paths (h : IsStream magic tr code data c) :
    ∀ x ∈ codeItems code data, x ∈ tr.paths [] ∧ x.1 ≠ Config.eos := by
  intro x hx
  obtain ⟨v, hv, rfl⟩ := List.mem_map.1 hx
  exact ⟨h.paths v (List.mem_append_left _ hv), fun he => h.noEos (he ▸ hv)⟩

theorem IsStream.eos_mem_paths (h : IsStream magic tr code data c) : (Config.eos, code[Config.eos]) ∈ tr.paths [] :=
  h.paths _ (List.mem_append_right _ (List.mem_singleton_self _))

/-- Tag, header, paths, EOS's path and pad. -/
theorem IsStream.bits_eq (h : IsStream magic tr code data c) :
    bytesBits c = bitsOf 32 magic.toNat ++ (tr.headerBits ++ ((codeItems code data).flatMap Prod.snd ++ (code[Config.eos] ++
      padBits (codedBits magic tr code data).length))) := by
  rw [h.bits, codeItems_flatMap]
  simp only [codedBits, List.append_assoc]

theorem IsStream.leafCount_le (h : IsStream magic tr code data c) : tr.leafCount ≤ 257 := by
  have hnodes := h.nodes_le
  have hleaves := tr.indices_length
  rw [Config.nodeCap] at hnodes
  omega

theorem IsStream.codesBits_length_le (h : IsStream magic tr code data c) :
    (codesBits code data).length ≤ 257 * data.length := by
  have hcode : ∀ n ∈ data.map fun v => code[v].length, n ≤ 257 := by
    intro n hn
    obtain ⟨v, hv, rfl⟩ := List.mem_map.1 hn
    exact (Tree.path_lt (h.paths v (List.mem_append_left _ hv))).le.trans h.leafCount_le
  have hsum := List.sum_le_card_nsmul _ 257 hcode
  rw [List.length_map, smul_eq_mul, Nat.mul_comm] at hsum
  rw [codesBits, List.length_flatMap]
  exact hsum

/-- The stream of an input that COUNT accepts is one that the model does not refuse (R68, R204). -/
theorem IsStream.fits (h : IsStream magic tr code data c) : c.length < Config.streamLimit := by
  have hlen := congrArg List.length h.bits_eq
  have hheader := tr.headerBits_length
  have heos := Tree.path_lt h.eos_mem_paths
  have hleaves := h.leafCount_le
  have hcodes := h.codesBits_length_le
  have hpad := padBits_length_lt (codedBits magic tr code data).length
  have hdata := h.data_le
  simp only [List.length_append, bytesBits_length, bitsOf_length, codeItems_flatMap] at hlen
  rw [Config.maxInput] at hdata
  rw [Config.streamLimit]
  omega

end

/-! The round trip (R169). -/

theorem codeItems_bytes (code : CodeTable) (bytes : List Byte) :
    ((codeItems code (dataSyms bytes)).map fun q => BitVec.ofNat 8 q.1.val) = bytes := by
  rw [codeItems, dataSyms, List.map_map, List.map_map]
  refine (List.map_congr_left fun b _ => ?_).trans (List.map_id bytes)
  exact BitVec.eq_of_toNat_eq (by simp [symOfByte, b.isLt])

/-- Settles O36: the stream's paths are the data's, so that DECOMPRESS puts the data. -/
theorem roundTrip : Obligations.RoundTrip := by
  intro magic bytes hl
  obtain ⟨c, tr, code, hcompress, hdone, -, hstream⟩ := exec_compress_launchAt magic hl
  obtain ⟨nodes, cur, ob, bits, tr', d, hexec, hd, -, -, hob, -⟩ :=
    decompressDecodesTheStream (launchAt magic c.outBytes) tr _ _ _ rfl (Nat.zero_lt_succ 7) hstream.fits hstream.isNode hstream.nodes_le
      hstream.mem_paths hstream.eos_mem_paths hstream.bits_eq
  have hbytes : d.outBytes = bytes := by
    rw [hd]
    exact (hob rfl).trans (codeItems_bytes code bytes)
  exact ⟨c, d, hcompress, hdone, hexec, by rw [hd], hbytes⟩

end Sys2Proof.Machine
end

section
/-! PROOF. O37: a proper beginning of a stream that COMPRESS wrote ends inside the tag, inside a node of the header, or inside a leaf's
path of the body, and each of them is the error of the command that reads there (R143, R146, R158, R171). -/

namespace Sys2Proof.Machine

/-! A proper beginning of a list of bit strings (R171). -/

/-- It ends inside one of them. -/
theorem exists_split_of_prefix_flatMap {α : Type} {f : α → BitStr} {l : List α} {r : BitStr} (h : r <+: l.flatMap f)
    (hlt : r.length < (l.flatMap f).length) :
    ∃ pre x post part, l = pre ++ x :: post ∧ r = pre.flatMap f ++ part ∧ part <+: f x ∧ part.length < (f x).length := by
  induction l generalizing r with
  | nil => exact absurd hlt (Nat.not_lt_zero _)
  | cons x l ih =>
    rw [List.flatMap_cons] at h hlt
    by_cases hx : r.length < (f x).length
    · exact ⟨[], x, l, r, rfl, rfl, List.prefix_of_prefix_length_le h (List.prefix_append _ _) hx.le, hx⟩
    · obtain ⟨r', rfl⟩ := List.prefix_of_prefix_length_le (List.prefix_append _ _) h (Nat.le_of_not_lt hx)
      rw [List.prefix_append_right_inj] at h
      rw [List.length_append, List.length_append] at hlt
      obtain ⟨pre, y, post, part, rfl, rfl, hpart⟩ := ih h (by omega)
      exact ⟨x :: pre, y, post, part, rfl, by rw [List.flatMap_cons, List.append_assoc], hpart⟩

/-- A bit string with a beginning of known length, and what a longer beginning holds after it. -/
theorem prefix_append_split {a b r : BitStr} (h : r <+: a ++ b) (hlen : a.length ≤ r.length) : ∃ q, r = a ++ q ∧ q <+: b := by
  obtain ⟨q, rfl⟩ := List.prefix_of_prefix_length_le (List.prefix_append _ _) h hlen
  exact ⟨q, rfl, (List.prefix_append_right_inj a).1 h⟩

/-! Inside the header (R146). -/

/-- A raise of a command that starts without error, read off its completion (R105). -/
theorem run_raise_of_exec {i : Instr} {s t : State} (hi : i ≠ .clearErr) (he : s.err = false) (h : exec i s = .next t)
    (ht : t.err = true) : ∃ u, runOf i s = .raise t.error u ∧ u.done = s.done := by
  have hk := run_keeps hi s
  rw [exec_eq_complete] at h
  obtain ⟨u, hu, rfl⟩ | ⟨e, u, hu, rfl⟩ := complete_next h
  · rw [hu] at hk
    exact absurd (ht.symm.trans (hk.err.trans he)) (by decide)
  · rw [hu] at hk
    exact ⟨u, hu, hk.done⟩

/-- A header that is cut raises TRUNCATED: 0 before a node's structure bit, 1 inside a leaf's field. -/
theorem readHeader_truncated {s : State} {tr : Tree} (hs : s.inBytes.length < Config.streamLimit) (hn : tr.isNode = true)
    (hc : tr.indices.length ≤ Config.nodeCap) (h : s.restBits <+: tr.headerBits) (hlt : s.restBits.length < tr.headerBits.length) :
    ∃ t, exec .readHeader s = .next t ∧ t.err = true ∧ t.error.cause = 2 ∧ t.error.op = 0x0A ∧ t.error.detail.toNat ≤ 1 := by
  rw [tr.headerBits_eq] at h hlt
  obtain ⟨pre, x, post, part, htr, hrest, hpart, hshort⟩ := exists_split_of_prefix_flatMap h hlt
  have hpre : pre.length < Config.nodeCap := by
    have hlen := tr.preorder_length
    rw [htr, List.length_append, List.length_cons] at hlen
    omega
  obtain ⟨hnoBit, hshortField, -⟩ := (readHeaderErrorsInOrder s hs).2 tr pre (x :: post) hn htr (List.cons_ne_nil _ _)
  cases part with
  | nil =>
    obtain ⟨t, hexec, herr, herror, -⟩ := hnoBit hpre (hrest.trans (List.append_nil _))
    exact ⟨t, hexec, herr, by rw [herror], by rw [herror], by rw [herror]; decide⟩
  | cons b rest =>
    cases x with
    | none => simp [nodeBits] at hshort
    | some v =>
      obtain rfl : b = true := (List.cons_prefix_cons.1 hpart).1
      have hpre0 : pre ≠ [] := by
        rintro rfl
        cases tr with
        | leaf i w => cases hn
        | node i l r => simp [Tree.preorder] at htr
      have hfield : rest.length < 9 := Nat.lt_of_succ_lt_succ (by simpa [nodeBits] using hshort)
      obtain ⟨t, hexec, herr, herror, -⟩ := hshortField rest hpre0 hpre hrest hfield
      exact ⟨t, hexec, herr, by rw [herror], by rw [herror], by rw [herror]; decide⟩

/-! Inside a path (R158). -/

theorem followBits_append {nodes : NodeStore} {n m : Nat} {p q : BitStr} (h : followBits nodes n (p ++ q) = some m) :
    ∃ k, followBits nodes n p = some k ∧ followBits nodes k q = some m := by
  induction p generalizing n with
  | nil => exact ⟨n, rfl, h⟩
  | cons b p ih =>
    obtain ⟨nd, hnd, hk, hf⟩ := followBits_internal h
    obtain ⟨k, hp, hq⟩ := ih hf
    refine ⟨k, ?_, hq⟩
    obtain ⟨kind, sym, weight, left, right⟩ := nd
    obtain rfl : kind = .internal := hk
    rw [← hp, followBits, hnd]
    cases b <;> rfl

/-- A proper beginning of a leaf's path leads to an internal node. -/
theorem followBits_inside_path {s : State} {tr : Tree} (ht : s.tree = .ok tr) {v : Sym} {p part : BitStr}
    (hp : (v, p) ∈ tr.paths []) (hpart : part <+: p) (hlt : part.length < p.length) :
    ∃ n nd, followBits s.node s.root.toNat part = some n ∧ s.node[n]? = some nd ∧ nd.kind = .internal := by
  obtain ⟨m, -, hf, -⟩ := followBits_path ht hp
  obtain ⟨q, rfl⟩ := hpart
  obtain ⟨n, hn, hq⟩ := followBits_append hf
  cases q with
  | nil => simp at hlt
  | cons b q =>
    obtain ⟨nd, hnd, hk, -⟩ := followBits_internal hq
    exact ⟨n, nd, hn, hnd, hk⟩

/-- A body that is cut before the end of EOS's path raises TRUNCATED(2). -/
theorem readBody_truncated {s : State} {tr : Tree} {items : List (Sym × BitStr)} {e : BitStr} (hv : s.treeValid = true)
    (hvalid : ValidTree s) (ho : s.outClosed = false) (hp : s.pend.length < 8) (hs : s.inBytes.length < Config.streamLimit)
    (ht : s.tree = .ok tr) (hi : ∀ x ∈ items, x ∈ tr.paths [] ∧ x.1 ≠ Config.eos) (he : (Config.eos, e) ∈ tr.paths [])
    (h : s.restBits <+: items.flatMap Prod.snd ++ e) (hlt : s.restBits.length < (items.flatMap Prod.snd ++ e).length) :
    ∃ t, exec .readBody s = .next t ∧ t.err = true ∧ t.error = { cause := 2, op := 0x0B, detail := 2 } := by
  have hall : items.flatMap Prod.snd ++ e = (items ++ [(Config.eos, e)]).flatMap Prod.snd := by simp
  rw [hall] at h hlt
  obtain ⟨pre, x, post, part, hsplit, hrest, hpart, hshort⟩ := exists_split_of_prefix_flatMap h hlt
  have hpre : ∀ y ∈ pre, y ∈ items := by
    have hdrop := congrArg List.dropLast hsplit
    rw [List.dropLast_concat, List.dropLast_append_cons] at hdrop
    exact fun y hy => hdrop ▸ List.mem_append_left _ hy
  have hx : x ∈ tr.paths [] := by
    have hmem : x ∈ items ++ [(Config.eos, e)] := hsplit ▸ List.mem_append_right _ List.mem_cons_self
    obtain hx | hx := List.mem_append.1 hmem
    · exact (hi x hx).1
    · rw [List.mem_singleton.1 hx]
      exact he
  obtain ⟨n, nd, hf, hnd, hk⟩ := followBits_inside_path ht hx hpart hshort
  obtain ⟨ob, p, hexec, -⟩ := readBodyTruncated s tr pre part n nd hv hvalid ho hp hs ht (fun y hy => hi y (hpre y hy)) hf hnd hk
    hrest
  exact ⟨_, hexec, rfl, rfl⟩

/-! The cut stream (R171). -/

section
variable {s : State} {tr : Tree} {code : CodeTable} {data : List Sym} {c : List Byte} {rest : BitStr}

/-- DECOMPRESS behind the tag, with a header that is cut. -/
theorem IsStream.decompress_cutHeader (h : IsStream s.magic tr code data c) (ho : s.outClosed = false) (he : s.err = false)
    (hs : s.inBytes.length < Config.streamLimit) (hbits : bytesBits s.inBytes = bitsOf 32 s.magic.toNat ++ rest)
    (hrest : rest <+: tr.headerBits) (hlt : rest.length < tr.headerBits.length) :
    ∃ d, exec .decompress s = .next d ∧ d.err = true ∧ d.done = s.done ∧ d.error.cause = 2 ∧ d.error.op = 0x0A ∧
      d.error.detail.toNat ≤ 1 := by
  have hunread := pastTag_restBits hbits
  obtain ⟨t, hexec, hterr, herror⟩ := readHeader_truncated (s := s.pastTag) hs h.isNode h.nodes_le (by rw [hunread]; exact hrest)
    (by rw [hunread]; exact hlt)
  obtain ⟨u, hu, hdone⟩ := run_raise_of_exec (i := .readHeader) (s := s.pastTag) (by decide) he hexec hterr
  have hheader : runReadHeader s.pastTag = .raise t.error u := hu
  have hrun : runDecompress s = .raise t.error u := by
    rw [runDecompress_tagged ho hbits, runAll, hheader]
    rfl
  exact ⟨_, exec_of_raise (i := .decompress) hrun, rfl, hdone, herror⟩

/-- DECOMPRESS behind the header, with a body that is cut. -/
theorem IsStream.decompress_cutBody (h : IsStream s.magic tr code data c) (ho : s.outClosed = false) (he : s.err = false)
    (hp : s.pend.length < 8) (hs : s.inBytes.length < Config.streamLimit)
    (hbits : bytesBits s.inBytes = bitsOf 32 s.magic.toNat ++ (tr.headerBits ++ rest))
    (hrest : rest <+: (codeItems code data).flatMap Prod.snd ++ code[Config.eos])
    (hlt : rest.length < ((codeItems code data).flatMap Prod.snd ++ code[Config.eos]).length) :
    ∃ d, exec .decompress s = .next d ∧ d.err = true ∧ d.done = s.done ∧
      d.error = { cause := 2, op := 0x0B, detail := 2 } := by
  obtain ⟨nodes, tr', hheader, hvalid, htree, hshape, hunread⟩ :=
    runReadHeader_header (s := s.pastTag) hs h.isNode h.nodes_le (pastTag_restBits hbits)
  have hpaths := Tree.sameShape_paths hshape
  obtain ⟨t, hexec, hterr, herror⟩ := readBody_truncated (s := s.pastTag.headerRead nodes tr) rfl hvalid ho hp hs htree
    (by rw [hpaths]; exact h.mem_paths) (by rw [hpaths]; exact h.eos_mem_paths) (by rw [hunread]; exact hrest)
    (by rw [hunread]; exact hlt)
  obtain ⟨u, hu, hdone⟩ := run_raise_of_exec (i := .readBody) (s := s.pastTag.headerRead nodes tr) (by decide) he hexec hterr
  have hbody : runReadBody (s.pastTag.headerRead nodes tr) = .raise t.error u := hu
  have hrun : runDecompress s = .raise t.error u := by
    rw [runDecompress_tagged ho hbits, runAll, hheader, Run.andThen, runAll, hbody]
    rfl
  exact ⟨_, exec_of_raise (i := .decompress) hrun, rfl, hdone, herror⟩

end

/-- Settles O37: by where the cut falls; the pad is shorter than the byte that is missing at least. -/
theorem truncationIsDetected : Obligations.TruncationIsDetected := by
  intro magic bytes c tr cut hl hcompress htree hcut hshorter
  obtain ⟨c', tr₀, code, hcompress', -, htree', hstream⟩ := exec_compress_launchAt magic hl
  obtain rfl : c' = c := Host.Outcome.next.inj (hcompress'.symm.trans hcompress)
  obtain rfl : tr₀ = tr := Except.ok.inj (htree'.symm.trans htree)
  have hfits : cut.length < Config.streamLimit := hshorter.trans hstream.fits
  have hprefix : bytesBits cut <+: bytesBits c'.outBytes := by
    obtain ⟨more, hmore⟩ := hcut
    rw [← hmore, bytesBits_append]
    exact List.prefix_append _ _
  have htotal := congrArg List.length hstream.bits_eq
  have hcutlen := bytesBits_length cut
  have hpad := padBits_length_lt (codedBits magic tr₀ code (dataSyms bytes)).length
  rw [hstream.bits_eq] at hprefix
  simp only [List.length_append, bytesBits_length, bitsOf_length] at htotal
  by_cases h4 : cut.length < 4
  · exact ⟨_, (decompressRejectsAWrongTag (launchAt magic cut) rfl).2 h4, rfl, rfl, fun _ => rfl, fun h => by omega,
      fun h => by omega⟩
  obtain ⟨rest, hrest, hafterTag⟩ := prefix_append_split hprefix (by rw [bitsOf_length]; omega)
  have hrestlen := congrArg List.length hrest
  rw [List.length_append, bitsOf_length] at hrestlen
  by_cases hheader : 8 * cut.length < 32 + tr₀.headerBits.length
  · obtain ⟨d, hexec, herr, hdone, herror⟩ := hstream.decompress_cutHeader (s := launchAt magic cut) rfl rfl hfits hrest
      (List.prefix_of_prefix_length_le hafterTag (List.prefix_append _ _) (by omega)) (by omega)
    exact ⟨d, hexec, herr, hdone, fun h => absurd h h4, fun _ _ => herror, fun h => absurd hheader (by omega)⟩
  · obtain ⟨body, rfl, hbody⟩ := prefix_append_split hafterTag (by omega)
    rw [List.length_append] at hrestlen
    rw [← List.append_assoc] at hbody
    obtain ⟨d, hexec, herr, hdone, herror⟩ := hstream.decompress_cutBody (s := launchAt magic cut) rfl rfl
      (Nat.zero_lt_succ 7) hfits hrest
      (List.prefix_of_prefix_length_le hbody (List.prefix_append _ _) (by rw [List.length_append]; omega))
      (by rw [List.length_append]; omega)
    exact ⟨d, hexec, herr, hdone, fun h => absurd h h4, fun _ h => absurd h hheader, fun _ => herror⟩

end Sys2Proof.Machine
end

section
/-! PROOF. O9, O10: each command checks its table and then the output before any other step, and a check that fails raises on the
state it is made in (R201, R202, R208). -/

namespace Sys2Proof.Machine

/-! A check that fails. -/

theorem require_andThen_raise {p : Bool} {e : ErrorReg} {s : State} {k : Unit → State → Run Unit} (h : p = false) :
    (require p e s).andThen k = .raise e s := by
  rw [require, if_neg (Bool.eq_false_iff.1 h)]
  rfl

/-- A command whose first check fails changes nothing but what the error entry writes (R196). -/
theorem exec_of_require_raise {i : Instr} {p : Bool} {e : ErrorReg} {s : State} {k : Unit → State → Run Unit} (hp : p = false)
    (h : runOf i s = (require p e s).andThen k) : exec i s = .next (s.enterError e) :=
  exec_of_raise (h.trans (require_andThen_raise hp))

/-- Settles O9: the check of the VALID flag is the first of each of the five. -/
theorem sequenceErrors : Obligations.SequenceErrors := fun _ =>
  ⟨fun hv => exec_of_require_raise (i := .build) hv rfl, fun hv => exec_of_require_raise (i := .derive) hv rfl,
    fun hv => exec_of_require_raise (i := .writeHeader) hv rfl, fun hv => exec_of_require_raise (i := .readBody) hv rfl,
    fun hv => exec_of_require_raise (i := .writeBody) hv rfl⟩

/-- On a closed output a writing command whose next check is the output's raises OUT_CLOSED with its own opcode. -/
theorem exec_outClosed {i : Instr} {s : State} {k : Unit → State → Run Unit} (ho : s.outClosed = true)
    (h : runOf i s = (require (!s.outClosed) (errorOf .outClosed i 0) s).andThen k) :
    exec i s = .next (s.enterError (errorOf .outClosed i 0)) :=
  exec_of_require_raise (congrArg not ho) h

/-- Settles O10: the output's check is the first of four commands, and comes after the table's in the other three. -/
theorem outClosedErrors : Obligations.OutClosedErrors := by
  intro s ho
  refine ⟨fun i hi => ?_, fun hv i hi => ?_, fun hv => exec_outClosed (i := .writeBody) ho (require_andThen_ok hv)⟩
  · simp only [List.mem_cons, List.not_mem_nil, or_false] at hi
    obtain rfl | rfl | rfl | rfl := hi
    · exact exec_outClosed (i := .writeMagic) ho rfl
    · exact exec_outClosed (i := .close) ho rfl
    · exact exec_outClosed (i := .compress) ho rfl
    · exact exec_outClosed (i := .decompress) ho rfl
  · simp only [List.mem_cons, List.not_mem_nil, or_false] at hi
    obtain rfl | rfl := hi
    · exact exec_outClosed (i := .writeHeader) ho (require_andThen_ok hv)
    · exact exec_outClosed (i := .readBody) ho (require_andThen_ok hv)

end Sys2Proof.Machine
end

section
/-! PROOF. O16, O23: COUNT's loop raises at the byte after MAX_INPUT (R115, R204), and WRITE_BODY's at the first field without a
code, or after the loop at EOS (R135, R203). What the loop did before the raise stays (R107). -/

namespace Sys2Proof.Machine

/-- The loops' fuel is more than the whole fields that are left. -/
theorem fields_lt_fuel (s : State) : s.restBits.length / 8 < s.inBytes.length + 1 := by
  rw [restBits_length, State.inLimit]
  omega

/-! COUNT (R204). -/

/-- COUNT of more than MAX_INPUT fields has counted the first MAX_INPUT of them and read one more. -/
theorem runCount_tooLong {s : State} (hs : s.inBytes.length < Config.streamLimit)
    (hl : Config.maxInput < (byteFields s.restBits).length) :
    runCount s = .raise (errorOf .inputTooLong .count 0) { s with
      freq := tally (Vector.replicate 257 0) ((byteFields s.restBits).take Config.maxInput)
      inPos := s.inPos + BitVec.ofNat 64 (8 * (Config.maxInput + 1))
      freqValid := false, treeValid := false, codesValid := false } := by
  have hloop := countLoop_long (s.inBytes.length + 1) 0 { s.startCount with freq := Vector.replicate 257 0 } hs (fields_lt_fuel s)
    (hl.trans_eq (Nat.zero_add _).symm) (Nat.zero_le _)
  unfold runCount
  dsimp only
  rw [hloop]
  rfl

/-- Settles O16: the table is the `tally` of the counted fields, which are too few for a count to wrap. -/
theorem countRefusesLongInput : Obligations.CountRefusesLongInput := by
  intro s hs hl
  have hlt : ((byteFields s.restBits).take Config.maxInput).length < 2 ^ 32 :=
    (List.length_take_le _ _).trans_lt (by decide)
  exact ⟨_, exec_of_raise (i := .count) (runCount_tooLong hs hl), fun c => tally_zero _ c hlt⟩

/-! WRITE_BODY (R203). -/

/-- WRITE_BODY past its two checks. -/
theorem runWriteBody_open {s : State} (hv : s.codesValid = true) (ho : s.outClosed = false) :
    runWriteBody s = (bodyLoop (s.inBytes.length + 1) s).andThen fun _ t => emitSym Config.eos t :=
  (require_andThen_ok hv).trans (require_andThen_ok (congrArg not ho))

/-- WRITE_BODY ends in a raise of the loop. -/
theorem runWriteBody_noCode {s : State} {pre post : List Sym} {v : Sym} (hv : s.codesValid = true) (ho : s.outClosed = false)
    (hs : s.inBytes.length < Config.streamLimit) (hb : byteFields s.restBits = pre ++ v :: post)
    (hc : ∀ c ∈ pre, s.code[c] ≠ []) (hn : s.code[v] = []) :
    runWriteBody s = .raise (errorOf .noCode .writeBody v.val)
      { s.appendBits (codesBits s.code pre) with inPos := s.inPos + BitVec.ofNat 64 (8 * (pre.length + 1)) } := by
  rw [runWriteBody_open hv ho, bodyLoop_noCode _ s pre v post hs (fields_lt_fuel s) hb hc hn]
  rfl

/-- WRITE_BODY whose loop ends with the input, when EOS has no code. -/
theorem runWriteBody_noEosCode {s : State} (hv : s.codesValid = true) (ho : s.outClosed = false)
    (hs : s.inBytes.length < Config.streamLimit) (hc : ∀ c ∈ byteFields s.restBits, s.code[c] ≠ [])
    (hn : s.code[Config.eos] = []) :
    runWriteBody s = .raise (errorOf .noCode .writeBody Config.eos.val)
      { s.appendBits (codesBits s.code (byteFields s.restBits)) with inPos := BitVec.ofNat 64 s.inLimit } := by
  rw [runWriteBody_open hv ho, bodyLoop_ok _ s hs (fields_lt_fuel s) hc, Run.andThen]
  exact emitSym_none ((congrArg (·[Config.eos]) (appendBits_code _ s)).trans hn)

/-- A raise after the bits `c` were emitted leaves `packBits` in the output. -/
theorem exec_of_appendBits_raise {i : Instr} {s : State} {c : BitStr} {pos : BitVec 64} {e : ErrorReg}
    (h : runOf i s = .raise e { s.appendBits c with inPos := pos }) :
    exec i s = .next { s with
      inPos := pos, outBytes := (packBits s.outBytes s.pend c).1, pend := (packBits s.outBytes s.pend c).2
      outPos := s.outPos + BitVec.ofNat 64 c.length, busy := false, pending := none, err := true, error := e } := by
  rw [exec_of_raise h, appendBits_packed]
  rfl

/-- Settles O23: the two raises of WRITE_BODY, after the codes that `packBits` has put. -/
theorem writeBodyRaisesNoCode : Obligations.WriteBodyRaisesNoCode := by
  intro s hv ho hp hs
  refine ⟨fun pre v post hb hc hn => ?_, fun hc hn => ?_⟩
  · exact ⟨_, _, exec_of_appendBits_raise (i := .writeBody) (runWriteBody_noCode hv ho hs hb hc hn), packBits_emits hp _⟩
  · exact ⟨_, _, exec_of_appendBits_raise (i := .writeBody) (runWriteBody_noEosCode hv ho hs hc hn), packBits_emits hp _⟩

end Sys2Proof.Machine
end

section
/-! PROOF. O40: a composite's last command is CLOSE. A raise comes from a command before it, all of which leave the output open, or
from a check that changes nothing (R206). -/

namespace Sys2Proof.Machine

/-! Where a raise comes from. -/

/-- A raise of two parts in sequence is one of the first or one of the second. -/
theorem andThen_raise {α β : Type} {r : Run α} {k : α → State → Run β} {e : ErrorReg} {u : State}
    (h : r.andThen k = .raise e u) : r = .raise e u ∨ ∃ a t, r = .ok a t ∧ k a t = .raise e u := by
  cases r with
  | ok a t => exact .inr ⟨a, t, rfl, h⟩
  | raise e' t =>
    obtain ⟨rfl, rfl⟩ := Run.raise.inj h
    exact .inl rfl
  | fault f => cases h
  | refuse q => cases h

/-- A check raises on the state it is made in. -/
theorem require_raise {p : Bool} {e e' : ErrorReg} {s u : State} (h : require p e s = .raise e' u) : u = s := by
  cases p with
  | true => cases h
  | false => exact (Run.raise.inj h).2.symm

/-- CLOSE raises only by its check (R166). -/
theorem runClose_raise {e : ErrorReg} {s u : State} (h : runClose s = .raise e u) : u = s := by
  obtain hcheck | ⟨_, t, -, hclosed⟩ := andThen_raise h
  · exact require_raise hcheck
  · cases hclosed

/-- A raise of a composite leaves the output open: `l` are its commands before CLOSE. -/
theorem composite_raise_keepsOpen {p : Bool} {e₀ e : ErrorReg} {l : List Instr} {s u : State}
    (hl : ∀ j ∈ l, j.composite = false ∧ j ∉ [Instr.clearErr, .close])
    (h : ((require p e₀ s).andThen fun _ s => runAll (l.map runOf ++ [runClose]) s) = .raise e u) : KeepsOpen s u := by
  obtain hcheck | ⟨_, t, ht, hrun⟩ := andThen_raise h
  · exact require_raise hcheck ▸ KeepsOpen.refl s
  obtain ⟨-, rfl⟩ := require_ok ht
  have hopen : (runAll (l.map runOf) t).Ends (KeepsOpen t) :=
    runAll_ends KeepsOpen.refl KeepsOpen.trans _
      (List.forall_mem_map.2 fun j hj => primitive_run_keepsOpen (hl j hj).1 (hl j hj).2) t
  rw [runAll_append] at hrun
  obtain hbefore | ⟨_, v, hv, hlast⟩ := andThen_raise hrun
  · rwa [hbefore] at hopen
  · rw [hv] at hopen
    obtain hclose | ⟨_, w, -, hend⟩ := andThen_raise hlast
    · exact runClose_raise hclose ▸ hopen
    · cases hend

/-- A composite that raises leaves the output open (R206). -/
theorem run_composite_raise_keepsOpen {i : Instr} {e : ErrorReg} {s u : State} (hi : i = .compress ∨ i = .decompress)
    (h : runOf i s = .raise e u) : KeepsOpen s u := by
  obtain rfl | rfl := hi
  · exact composite_raise_keepsOpen (l := compressSeqInstrs.dropLast) (by decide) h
  · exact composite_raise_keepsOpen (l := decompressSeqInstrs.dropLast) (by decide) h

/-- Settles O40: from ERR = 0 a completion with ERR = 1 is a raise, and the error entry writes no stream. -/
theorem failedCompositeNeverCloses : Obligations.FailedCompositeNeverCloses := by
  intro i s t hi he h ht
  have hne : i ≠ .clearErr := by rintro rfl; exact absurd hi (by decide)
  obtain ⟨u, hu, -⟩ := run_raise_of_exec hne he h ht
  generalize t.error = e at hu
  obtain rfl : u.enterError e = t := Host.Outcome.next.inj ((exec_of_raise hu).symm.trans h)
  have hk := run_composite_raise_keepsOpen hi hu
  exact ⟨hk.noClose, hk.outClosed, hk.outBytes⟩

end Sys2Proof.Machine
end

section
/-! PROOF. O51-O53: the reset. Its step is `State.resetNow` on the state whose turn is taken, which leaves the reset values; while
BUSY is 1 some beginning of the cancelled command's output stays before them (R220-R222). -/

namespace Sys2Proof.Machine

/-! The launch (R223). -/

/-- Settles O53: a launch is its own reset. -/
theorem launchMeetsTheInvariant : Obligations.LaunchMeetsTheInvariant := fun bytes h =>
  inv_toReset (s := State.launch bytes) h

/-! The step of a reset (R220, R221). -/

theorem step_hardReset {s : State} {ts : List Turn} (ht : s.turns = .hardReset :: ts) :
    step s = State.resetNow { s with turns := ts } := by
  rw [step, nextTurn, ht]
  rfl

theorem step_softReset {s : State} {ts : List Turn} {w : Word} (ht : s.turns = .write 32 (s.hufBase + 0x004) w :: ts)
    (hw : w.getLsbD 0 = true) :
    step s = State.resetNow { s with
      turns := ts, busLog := { data := 0, error := false } :: s.busLog, irqEn := w.getLsbD 1 } := by
  rw [step_write (by decide) (by decide) ht, State.writeReg, hw]
  rfl

theorem resetNow_idle {s : State} (hb : s.busy = false) : s.resetNow = .next s.toReset := by
  simp [State.resetNow, hb]

/-- While BUSY is 1 a reset also runs the pending command, for the output that it may have put (R222). -/
theorem resetNow_busy {s e : State} {i : Instr} (hb : s.busy = true) (hp : s.pending = some i) (he : exec i s = .next e) :
    s.resetNow = .next (State.cancelOutput e s).toReset := by
  simp [State.resetNow, hb, hp, he]

/-- Settles O51: every value is a field of `State.toReset`. -/
theorem resetGivesTheResetValues : Obligations.ResetGivesTheResetValues := by
  intro s ts w hb ht
  obtain ht | ⟨ht, hw⟩ := ht
  · exact ⟨_, (step_hardReset ht).trans (resetNow_idle hb), by and_intros <;> rfl⟩
  · exact ⟨_, (step_softReset ht hw).trans (resetNow_idle hb), by and_intros <;> rfl⟩

/-! The output of a cancelled command (R222). -/

theorem cancelOutput_outBytes {s e : State} {out : List Byte} (ho : e.outBytes = s.outBytes ++ out) :
    (State.cancelOutput e s).outBytes = s.outBytes ++ out.take (Config.cancelLen s.draws) := by
  simp [State.cancelOutput, ho]

/-- A close is recorded only after all of the output. -/
theorem cancelOutput_outCloses {s e : State} {out : List Byte} (ho : e.outBytes = s.outBytes ++ out)
    (hc : s.outCloses <+: e.outCloses) :
    (State.cancelOutput e s).outCloses = s.outCloses ∨
      out.take (Config.cancelLen s.draws) = out ∧ (State.cancelOutput e s).outCloses = e.outCloses := by
  have hout : e.outBytes.drop s.outBytes.length = out := by rw [ho, List.drop_left]
  unfold State.cancelOutput
  dsimp only
  rw [hout]
  split_ifs with hclosed
  · exact .inr ⟨(List.take_prefix _ _).eq_of_length hclosed.1, (List.prefix_append_drop hc).symm⟩
  · exact .inl (List.append_nil _)

/-- Settles O52: the beginning is the one that `State.cancelOutput` draws. -/
theorem resetCancelsTheCommand : Obligations.ResetCancelsTheCommand := by
  intro s r e ts w i out hb hp hr he ho
  obtain ⟨b, q, rfl, hstep⟩ :
      ∃ b q, r = { s with turns := ts, busLog := b, irqEn := q } ∧ step s = r.resetNow := by
    obtain ⟨ht, rfl⟩ | ⟨ht, hw, rfl⟩ := hr
    · exact ⟨s.busLog, s.irqEn, rfl, step_hardReset ht⟩
    · exact ⟨_, w.getLsbD 1, rfl, step_softReset ht hw⟩
  refine ⟨_, out.take (Config.cancelLen s.draws), hstep.trans (resetNow_busy hb hp he), List.take_prefix _ _,
    cancelOutput_outBytes ho, cancelOutput_outCloses ho (exec_streams he).outCloses, ?_⟩
  and_intros <;> rfl

end Sys2Proof.Machine
end
